-- ==== Sys2Proof/Word.lean ====
section
/-! DEFINITION. The word types of the model: what the spec treats as bits (R6), a linear address (R28) and a vector number (R96) are plain `Nat`s, since sums never wrap (R9). -/

namespace Sys2Proof

/-- The addressable unit, 8 bits (R28). -/
abbrev Byte := BitVec 8

/-- A 32-bit value: a general register, EIP, EFLAGS, CR3, SSP (R10 to R18). -/
abbrev Word := BitVec 32

/-- A segment selector, 16 bits (R14, R49). -/
abbrev Sel := BitVec 16

/-- A 64-bit value: a descriptor (R41, R47), or a base address of 32 or 64 bits (R41, R45). -/
abbrev Quad := BitVec 64

/-- A 128-bit value: the TSS descriptor of 64-bit mode (R45). -/
abbrev Oct := BitVec 128

end Sys2Proof
end

