-- ==== Sys2Proof/Config.lean ====
section
/-! DEFINITION. The parameters of a launch (00_scope.md R5), as plain data: no in-scope instruction changes them (10_state.md R24, R25).
They are fields, not constants, so that every statement about the model holds for every choice of them.
The spec leaves no result of a completed instruction open, so there is no free value here. -/

namespace Sys2Proof

/-- The operating mode (R5, R25, D20). -/
inductive Mode where
  | protectedMode
  | long64
  deriving DecidableEq, Repr

/-- A code location: a CS selector and an EIP (R60, R113). -/
structure CodeLoc where
  cs  : Sel
  eip : Word
  deriving DecidableEq, Repr

/-- One row of the parameter `ldtWindow` (R5, R17): under the LDTR selector `sel` the current LDT has this base and this limit,
the offset of its last byte.  The width of the limit is not in the spec (log 14). -/
structure LdtWindow where
  sel   : Sel
  base  : Quad
  limit : Nat
  deriving DecidableEq, Repr

/-- The parameters of R5.  The bases are 32 bits in `Protected`, 64 in `Long64` (log 13). -/
structure Config where
  mode               : Mode
  pagingEnabled      : Bool
  shadowStackEnabled : Bool
  gdtBase            : Quad
  gdtLimit           : BitVec 16
  idtBase            : Quad
  idtLimit           : BitVec 16
  /-- `ldtWindow`, a function from an LDTR selector to (base, limit) or none; the first row of a selector counts. -/
  ldtWindows         : List LdtWindow
  /-- `hasErrorCode`: the vectors whose exceptions carry an error code (R5, R78). -/
  errorVectors       : List Nat
  /-- `stops` (R113). -/
  stops              : List CodeLoc
  deriving DecidableEq, Repr

/-- The parameters of the launch state `State.reset`.  DESIGN CHOICE (log 5): the spec gives none of them a value. -/
def Config.reset : Config where
  mode := .protectedMode
  pagingEnabled := false
  shadowStackEnabled := false
  gdtBase := 0
  gdtLimit := 0
  idtBase := 0
  idtLimit := 0
  ldtWindows := []
  errorVectors := []
  stops := []

end Sys2Proof
end

