-- ==== Sys2Proof/Syntax.lean ====
section
/-! DEFINITION. The instruction terms (30_encoding.md R61): four, one per row of spec/opcode_table.json. -/

namespace Sys2Proof

/-- The eight general registers, in the order of their TSS fields and of their numbers 0 to 7 (R10, R63). -/
inductive Reg where
  | eax | ecx | edx | ebx | esp | ebp | esi | edi
  deriving DecidableEq, Repr

/-- The instruction terms (R61). -/
inductive Instr where
  /-- `LTR r`: load the task register from the selector in the low half of `r` (R69, R70). -/
  | ltr (r : Reg)
  /-- `JMP sel:off` (R74). -/
  | jmp (sel : Sel) (off : Word)
  /-- `CALL sel:off` (R75). -/
  | call (sel : Sel) (off : Word)
  /-- `IRET` (R76). -/
  | iret
  deriving DecidableEq, Repr

end Sys2Proof
end

