-- ==== Sys2Proof/Machine/State.lean ====
section
/-! DEFINITION. The state of the machine as plain data (10_state.md R10 to R27), the reasons a step can stop (60_exceptions.md R93, R94),
and the launch state `State.reset`. -/

namespace Sys2Proof.Machine

/-- The eight general registers (R10). -/
structure Gprs where
  eax : Word
  ecx : Word
  edx : Word
  ebx : Word
  esp : Word
  ebp : Word
  esi : Word
  edi : Word
  deriving DecidableEq, Repr

/-- The selectors in the six segment registers (R14). -/
structure SegRegs where
  cs : Sel
  ds : Sel
  ss : Sel
  es : Sel
  fs : Sel
  gs : Sel
  deriving DecidableEq, Repr

/-- The attribute bits kept in the task register (R16: G, AVL, P, DPL, Type). -/
structure TssAttr where
  g    : Bool
  avl  : Bool
  p    : Bool
  dpl  : BitVec 2
  type : BitVec 4
  deriving DecidableEq, Repr

/-- A loaded task register (R16): the visible selector and the invisible copy of the TSS descriptor.
The base is 32 bits in `Protected`, 64 in `Long64` (log 13). -/
structure TaskReg where
  sel   : Sel
  base  : Quad
  limit : BitVec 20
  attr  : TssAttr
  deriving DecidableEq, Repr

/-- What the environment offers at an instruction boundary (R5 `intr`, R77, R78, R96). -/
inductive Event where
  | interrupt (v : Nat)
  | exception (v : Nat)
  deriving DecidableEq, Repr

/-- What a `NotPresent` fault names: the selector of a descriptor or gate, or the vector of an IDT gate (R69, R77, R79, R81). -/
inductive AbsentThing where
  | selector (sel : Sel)
  | vector (v : Nat)
  deriving DecidableEq, Repr

/-- The fault outcomes of R93.  Each is terminal (R93, D21) and SAFE: the model stops where the processor would go on in a handler. -/
inductive Fault where
  /-- LTR with CPL not 0 (R69, no selector); JMP or CALL with max(CPL, RPL) > DPL of the gate or of the TSS descriptor (R79).  Safe. -/
  | privilegeViolation (sel : Option Sel)
  /-- A selector that must name a TSS descriptor has TI = 1 (R69, R79, R81).  Safe. -/
  | selectorNotGlobal (sel : Sel)
  /-- Index 0 with TI 0 (R50).  Safe. -/
  | selectorNull (sel : Sel)
  /-- A descriptor slot not within the table limit, or no current LDT (R50).  Safe. -/
  | selectorOutOfTable (sel : Sel)
  /-- The IDT slot of the vector is not within the IDT limit (R50).  Safe. -/
  | vectorOutOfTable (v : Nat)
  /-- The descriptor that must be a TSS descriptor is not one (R69, R70, R81).  Safe. -/
  | notATss (sel : Sel)
  /-- Dispatch by JMP, CALL, interrupt or exception, or LTR, of a task whose busy flag is set (R69, R81, R88).  Safe. -/
  | taskBusy (sel : Sel)
  /-- IRET to a task whose busy flag is clear (R81).  Safe. -/
  | taskNotBusy (sel : Sel)
  /-- P = 0 in the task gate or the TSS descriptor (R69, R77, R79, R81).  Safe. -/
  | notPresent (x : AbsentThing)
  /-- The effective limit of the incoming TSS is below 0x67 (R81).  Safe. -/
  | tssTooSmall (sel : Sel)
  /-- The IDT entry of the vector is a TSS descriptor (R77).  Safe. -/
  | invalidIdtEntry (v : Nat)
  deriving DecidableEq, Repr

/-- The refusals of R94, and `notModelled`.  Each says that the spec gives the situation no meaning; each is SAFE. -/
inductive Refusal where
  /-- An instruction without a meaning in this model, raised by `exec` alone; no arm of this model uses it.  Safe. -/
  | notModelled (mnemonic : String)
  /-- The location holds no instruction of R61; raised by the step (R60, R65).  Safe. -/
  | noInstruction
  /-- JMP, CALL or an event that meets a descriptor which is neither a TSS descriptor nor a task gate (R77, R79).  Safe. -/
  | notATaskTransfer
  /-- IRET with NT clear (R76).  Safe. -/
  | iretWithoutNT
  /-- JMP, CALL, IRET or an event in 64-bit mode (R91).  Safe. -/
  | longModeTransfer
  /-- A task switch or IRET with the task register never loaded (R90).  Safe. -/
  | trNotLoaded
  /-- A task switch with shadow stacks enabled (R90, D28).  Safe. -/
  | shadowStackUnmodelled
  /-- A task switch to a TSS whose T bit is set (R90, D27).  Safe. -/
  | debugTrapUnmodelled
  /-- An incoming selector with the index of the current task's (R90, D32).  Safe. -/
  | selfSwitch
  /-- An exception that carries an error code (R78, D23).  Safe. -/
  | errorCodeUnmodelled
  /-- The structures of a task switch overlap (R33, D33).  Safe. -/
  | structuresOverlap
  /-- An address or EIP sum that does not fit its width (R9, R11, R33).  Safe. -/
  | addressWrap
  /-- A TSS descriptor with bit 54 or 53 set (R44, D30).  Safe. -/
  | reservedBitSet
  deriving DecidableEq, Repr

/-- The model-only mark of R26. -/
inductive RunMark where
  | running
  | faulted (f : Fault)
  | refused (r : Refusal)
  deriving DecidableEq, Repr

/-- The linear memory (R28): the bytes that are not 0, in strictly rising order of address; every other byte is 0 (log 6). -/
abbrev Memory := List Host.Cell

/-- The canonical form of a memory: addresses strictly rising, no listed byte equal to what an unlisted one reads as. -/
abbrev Memory.wf (m : Memory) : Prop :=
  m.Pairwise (fun x y => x.1 < y.1) ∧ ∀ c ∈ m, c.2 ≠ 0

/-- What `code` gives at a location (R60): an instruction term and its length in bytes. -/
structure CodeEntry where
  term : Instr
  len  : Nat
  deriving DecidableEq, Repr

/-- The program text `code`, a partial function from code locations to terms with their lengths (R5, R60; log 1): a location that is not
listed has none.  Terms may lie over one another, as nothing in R60 forbids. -/
abbrev CodeStore := List (CodeLoc × CodeEntry)

/-- The place of a location in the order of the program text. -/
def codePlace (l : CodeLoc) : Nat := l.cs.toNat * 2 ^ 32 + l.eip.toNat

/-- The canonical form of a program text: locations strictly rising, and every length positive (R64). -/
abbrev CodeStore.wf (c : CodeStore) : Prop :=
  c.Pairwise (fun x y => codePlace x.1 < codePlace y.1) ∧ ∀ x ∈ c, 0 < x.2.len

/-- The state of the machine. -/
structure State where
  /-- General registers (R10). -/
  gprs    : Gprs
  /-- Instruction pointer (R11). -/
  eip     : Word
  /-- Flags register; bit 14 is NT (R12, R13). -/
  eflags  : Word
  /-- Segment registers (R14). -/
  segs    : SegRegs
  /-- Page-directory base of the current task (R15). -/
  cr3     : Word
  /-- Task register, or none when never loaded (R16, R71). -/
  tr      : Option TaskReg
  /-- LDT register, selector only (R17, D41). -/
  ldtr    : Sel
  /-- Shadow stack pointer, carried as data (R18, D28). -/
  ssp     : Word
  /-- Current privilege level (R19). -/
  cpl     : BitVec 2
  /-- Linear memory (R28). -/
  mem     : Memory
  /-- Program text (R5 `code`). -/
  code    : CodeStore
  /-- Launch parameters (R5, R24, R25). -/
  cfg     : Config
  /-- The environment's offers still to come, first the one at the next boundary; an empty list offers nothing more (R5 `intr`, R96; log 7). -/
  offers  : List (Option Event)
  /-- The model-only outcome mark (R26). -/
  outcome : RunMark
  deriving DecidableEq, Repr

/-- The launch state the host starts from.  The spec gives no reset value of anything but `outcome` (R27, R107): every other value here is a
DESIGN CHOICE (log 4, log 5, log 6). -/
def State.reset : State where
  gprs := ⟨0, 0, 0, 0, 0, 0, 0, 0⟩
  eip := 0
  eflags := 0
  segs := ⟨0, 0, 0, 0, 0, 0⟩
  cr3 := 0
  tr := none
  ldtr := 0
  ssp := 0
  cpl := 0
  mem := []
  code := []
  cfg := Config.reset
  offers := []
  outcome := .running

/-- The state with another memory. -/
def State.withMem (s : State) (m : Memory) : State := { s with mem := m }
/-- The state with another task register. -/
def State.withTr (s : State) (t : TaskReg) : State := { s with tr := some t }
/-- The state with another instruction pointer. -/
def State.withEip (s : State) (e : Word) : State := { s with eip := e }
/-- The state with other offers to come. -/
def State.withOffers (s : State) (os : List (Option Event)) : State := { s with offers := os }
/-- The state with another outcome mark. -/
def State.withOutcome (s : State) (o : RunMark) : State := { s with outcome := o }
/-- The state with another program text. -/
def State.withCode (s : State) (c : CodeStore) : State := { s with code := c }
/-- The state with other launch parameters. -/
def State.withCfg (s : State) (c : Config) : State := { s with cfg := c }

end Sys2Proof.Machine
end

