-- ==== Sys2Proof/Machine/Memory.lean ====
section
/-! DEFINITION. Reads and writes of the linear memory (20_memory.md R28, R30, R32). -/

namespace Sys2Proof.Machine

/-- The byte at an address; an unlisted byte is 0 (R28, log 6). -/
def Memory.byte : Memory → Nat → Byte
  | [], _ => 0
  | (k, v) :: rest, a => if k = a then v else Memory.byte rest a

/-- A byte put in its place in the rising order. -/
def Memory.insertByte : Memory → Nat → Byte → Memory
  | [], a, b => [(a, b)]
  | (k, v) :: rest, a, b =>
    if a < k then (a, b) :: (k, v) :: rest
    else if a = k then (a, b) :: rest
    else (k, v) :: Memory.insertByte rest a b

/-- A 1-byte write (R32).  Writing 0, what an unlisted byte reads as, removes the entry, so that equal memories are equal lists. -/
def Memory.setByte (m : Memory) (a : Nat) (b : Byte) : Memory :=
  if b = 0 then m.filter (fun c => c.1 ≠ a) else m.insertByte a b

/-- `MemRead(a, 2)`: the byte at the lowest address is bits 7:0 (R30). -/
def Memory.read2 (m : Memory) (a : Nat) : BitVec 16 := m.byte (a + 1) ++ m.byte a

/-- `MemRead(a, 4)` (R30). -/
def Memory.read4 (m : Memory) (a : Nat) : BitVec 32 := m.read2 (a + 2) ++ m.read2 a

/-- `MemRead(a, 8)` (R30). -/
def Memory.read8 (m : Memory) (a : Nat) : BitVec 64 := m.read4 (a + 4) ++ m.read4 a

/-- `MemRead(a, 16)` (R30). -/
def Memory.read16 (m : Memory) (a : Nat) : BitVec 128 := m.read8 (a + 8) ++ m.read8 a

/-- `MemWrite(a, 2, v)` (R30). -/
def Memory.write2 (m : Memory) (a : Nat) (v : BitVec 16) : Memory :=
  (m.setByte a (v.extractLsb' 0 8)).setByte (a + 1) (v.extractLsb' 8 8)

/-- `MemWrite(a, 4, v)` (R30). -/
def Memory.write4 (m : Memory) (a : Nat) (v : BitVec 32) : Memory :=
  (m.write2 a (v.extractLsb' 0 16)).write2 (a + 2) (v.extractLsb' 16 16)

end Sys2Proof.Machine
end

