-- ==== Sys2Proof/Machine/Operands.lean ====
section
/-! DEFINITION. What the machine reads out of operands and descriptors: selectors (R49), general registers (R10), the TSS and task-gate
descriptors (R41 to R47), their classification (R51), and the layouts of the three TSS formats (R35, R38, R39). -/

namespace Sys2Proof.Machine

/-- `x[r]` (R7, R10). -/
def Gprs.get (g : Gprs) : Reg → Word
  | .eax => g.eax | .ecx => g.ecx | .edx => g.edx | .ebx => g.ebx
  | .esp => g.esp | .ebp => g.ebp | .esi => g.esi | .edi => g.edi

/-- `x[r][15:0]`, the operand of LTR (R62). -/
def Gprs.low16 (g : Gprs) (r : Reg) : Sel := (g.get r).extractLsb' 0 16

/-- The index of a selector, bits 15:3, as the number of a descriptor slot (R49). -/
def selIndex (sel : Sel) : Nat := (sel.extractLsb' 3 13).toNat

/-- TI, bit 2 of a selector: 0 the GDT, 1 the current LDT (R49). -/
def selTI (sel : Sel) : Bool := sel.getLsbD 2

/-- The RPL, bits 1:0 of a selector (R49). -/
def selRPL (sel : Sel) : BitVec 2 := sel.extractLsb' 0 2

/-- A decoded TSS descriptor, of either format (R46).  `zero` is the field 108:104 of the 64-bit format, 0 for the 32-bit one. -/
structure TssDesc where
  base  : Quad
  limit : BitVec 20
  g     : Bool
  z54   : Bool
  z53   : Bool
  avl   : Bool
  p     : Bool
  dpl   : BitVec 2
  s     : Bool
  type  : BitVec 4
  b     : Bool
  zero  : BitVec 5
  deriving DecidableEq, Repr

/-- A decoded task gate (R47). -/
structure GateDesc where
  p      : Bool
  dpl    : BitVec 2
  s      : Bool
  type   : BitVec 4
  tssSel : Sel
  deriving DecidableEq, Repr

/-- `DecodeTss32` (R46): the base is 32 bits, held in 64. -/
def decodeTss32 (d : BitVec 64) : TssDesc where
  base  := (d.extractLsb' 56 8 ++ d.extractLsb' 32 8 ++ d.extractLsb' 16 16).setWidth 64
  limit := d.extractLsb' 48 4 ++ d.extractLsb' 0 16
  g     := d.getLsbD 55
  z54   := d.getLsbD 54
  z53   := d.getLsbD 53
  avl   := d.getLsbD 52
  p     := d.getLsbD 47
  dpl   := d.extractLsb' 45 2
  s     := d.getLsbD 44
  type  := d.extractLsb' 40 4
  b     := d.getLsbD 41
  zero  := 0

/-- `DecodeTss64` (R46): the low half as a 32-bit descriptor, the base with bits 95:64 above, and the field 108:104 (D42). -/
def decodeTss64 (d : BitVec 128) : TssDesc :=
  { decodeTss32 (d.extractLsb' 0 64) with
    base := d.extractLsb' 64 32 ++ d.extractLsb' 56 8 ++ d.extractLsb' 32 8 ++ d.extractLsb' 16 16
    zero := d.extractLsb' 104 5 }

/-- `EncodeTss32` (R46). -/
def encodeTss32 (base : Word) (limit : BitVec 20) (g avl p : Bool) (dpl : BitVec 2) (b : Bool) : BitVec 64 :=
  base.extractLsb' 24 8 ++ BitVec.ofBool g ++ 0#1 ++ 0#1 ++ BitVec.ofBool avl ++ limit.extractLsb' 16 4
    ++ BitVec.ofBool p ++ dpl ++ 0#1 ++ 1#1 ++ 0#1 ++ BitVec.ofBool b ++ 1#1 ++ base.extractLsb' 16 8
    ++ base.extractLsb' 0 16 ++ limit.extractLsb' 0 16

/-- `EffLimit` (R43, R46): the offset of the last byte of the segment, 32 bits. -/
def effLimit (t : TssDesc) : Word :=
  if t.g then (t.limit.setWidth 32 <<< 12) ||| 0xFFF else t.limit.setWidth 32

/-- The least effective limit of a 32-bit TSS (R43, D18). -/
def minTssLimit : Word := 0x67

/-- `DecodeGate` (R47). -/
def decodeGate (g : BitVec 64) : GateDesc where
  p      := g.getLsbD 47
  dpl    := g.extractLsb' 45 2
  s      := g.getLsbD 44
  type   := g.extractLsb' 40 4
  tssSel := g.extractLsb' 16 16

/-- `EncodeGate` (R47): reserved bits zero. -/
def encodeGate (tssSel : Sel) (p : Bool) (dpl : BitVec 2) : BitVec 64 :=
  0#16 ++ BitVec.ofBool p ++ dpl ++ 0#1 ++ 0b0101#4 ++ 0#8 ++ tssSel ++ 0#16

/-- The three classes of a descriptor met by a task dispatch (R51). -/
inductive DescClass where
  | tss (t : TssDesc)
  | gate (g : GateDesc)
  | other
  deriving DecidableEq, Repr

/-- `Classify` (R51). -/
def classify (d : BitVec 64) : DescClass :=
  if d.getLsbD 44 = false ∧ d.getLsbD 43 = true ∧ d.getLsbD 42 = false ∧ d.getLsbD 40 = true then .tss (decodeTss32 d)
  else if d.getLsbD 44 = false ∧ d.extractLsb' 40 4 = 0b0101 then .gate (decodeGate d)
  else .other

/-- The type of a busy TSS descriptor, `1011b` (R42). -/
def busyTssType : BitVec 4 := 0b1011

/-- The record loaded into TR from a TSS descriptor (R69, R80 step 7, R85): P = 1 and the busy type. -/
def taskRegOf (sel : Sel) (t : TssDesc) : TaskReg where
  sel := sel
  base := t.base
  limit := t.limit
  attr := { g := t.g, avl := t.avl, p := true, dpl := t.dpl, type := busyTssType }

/-- The named fields of the 32-bit TSS (R35).  `t` is the 16-bit half row whose bit 0 is T. -/
inductive Tss32Field where
  | link | esp0 | ss0 | esp1 | ss1 | esp2 | ss2 | cr3 | eip | eflags
  | eax | ecx | edx | ebx | esp | ebp | esi | edi
  | es | cs | ss | ds | fs | gs | ldt | t | ioMap | ssp
  deriving DecidableEq, Repr

/-- The byte offset of a field of the 32-bit TSS (R35). -/
def tss32Offset : Tss32Field → Nat
  | .link => 0 | .esp0 => 4 | .ss0 => 8 | .esp1 => 12 | .ss1 => 16 | .esp2 => 20 | .ss2 => 24
  | .cr3 => 28 | .eip => 32 | .eflags => 36
  | .eax => 40 | .ecx => 44 | .edx => 48 | .ebx => 52 | .esp => 56 | .ebp => 60 | .esi => 64 | .edi => 68
  | .es => 72 | .cs => 76 | .ss => 80 | .ds => 84 | .fs => 88 | .gs => 92 | .ldt => 96
  | .t => 100 | .ioMap => 102 | .ssp => 104

/-- The width in bytes of a field of the 32-bit TSS (R35). -/
def tss32Width : Tss32Field → Nat
  | .link | .ss0 | .ss1 | .ss2 | .es | .cs | .ss | .ds | .fs | .gs | .ldt | .t | .ioMap => 2
  | .esp0 | .esp1 | .esp2 | .cr3 | .eip | .eflags
  | .eax | .ecx | .edx | .ebx | .esp | .ebp | .esi | .edi | .ssp => 4

/-- The value of a field of the 32-bit TSS at `base`; a 16-bit field is zero-extended, its reserved half ignored (R35, R59). -/
def readTss32 (m : Memory) (base : Nat) (f : Tss32Field) : Word :=
  if tss32Width f = 2 then (m.read2 (base + tss32Offset f)).setWidth 32 else m.read4 (base + tss32Offset f)

/-- The bytes a 32-bit TSS must have, offsets 0 to 103 (R33, R43). -/
def tss32Size : Nat := 104

/-- The fields of the 16-bit TSS (R38). -/
inductive Tss16Field where
  | link | sp0 | ss0 | sp1 | ss1 | sp2 | ss2 | ip | flag
  | ax | cx | dx | bx | sp | bp | si | di | es | cs | ss | ds | ldt
  deriving DecidableEq, Repr

/-- The byte offset of a field of the 16-bit TSS; every field is 16 bits (R38). -/
def tss16Offset : Tss16Field → Nat
  | .link => 0 | .sp0 => 2 | .ss0 => 4 | .sp1 => 6 | .ss1 => 8 | .sp2 => 10 | .ss2 => 12 | .ip => 14 | .flag => 16
  | .ax => 18 | .cx => 20 | .dx => 22 | .bx => 24 | .sp => 26 | .bp => 28 | .si => 30 | .di => 32
  | .es => 34 | .cs => 36 | .ss => 38 | .ds => 40 | .ldt => 42

/-- The value of a field of the 16-bit TSS at `base` (R38): data only, no task switch goes through it (R92). -/
def readTss16 (m : Memory) (base : Nat) (f : Tss16Field) : BitVec 16 := m.read2 (base + tss16Offset f)

/-- The fields of the 64-bit TSS (R39): RSP0 to RSP2, IST1 to IST7 (`ist k` is IST(k+1)), and the I/O map base. -/
inductive Tss64Field where
  | rsp (n : Fin 3)
  | ist (k : Fin 7)
  | ioMap
  deriving DecidableEq, Repr

/-- The byte offset of a field of the 64-bit TSS (R39): RSPn at 4 + 8n, ISTk at 28 + 8k. -/
def tss64Offset : Tss64Field → Nat
  | .rsp n => 4 + 8 * n.val
  | .ist k => 28 + 8 * (k.val + 1)
  | .ioMap => 102

/-- The value of a field of the 64-bit TSS at `base` (R39): data only, no operation of the model accesses it (R91). -/
def readTss64 (m : Memory) (base : Nat) : Tss64Field → BitVec 64
  | .ioMap => (m.read2 (base + tss64Offset .ioMap)).setWidth 64
  | .rsp n => m.read8 (base + tss64Offset (.rsp n))
  | .ist k => m.read8 (base + tss64Offset (.ist k))

end Sys2Proof.Machine
end

