-- ==== Sys2Proof/Machine/Flags.lean ====
section
/-! DEFINITION. The flags: NT in EFLAGS (R13, R83), the busy flag in a TSS descriptor (R42, R83), and the privilege comparison (R9, R79). -/

namespace Sys2Proof.Machine

/-- The kinds of a dispatch (R72): `int` covers interrupts and exceptions. -/
inductive DispatchKind where
  | jmp | call | int | iret
  deriving DecidableEq, Repr

/-- CALL and INT are the nesting dispatches (R72): they write the link and force NT (R83). -/
def nests : DispatchKind → Bool
  | .call | .int => true
  | .jmp | .iret => false

/-- The outgoing task's busy flag is cleared by JMP and IRET (R83). -/
def clearsOutgoingBusy : DispatchKind → Bool
  | .jmp | .iret => true
  | .call | .int => false

/-- The incoming task's busy flag is set by all but IRET (R83). -/
def setsIncomingBusy : DispatchKind → Bool
  | .iret => false
  | .jmp | .call | .int => true

/-- NT, bit 14 of EFLAGS (R13). -/
def ntFlag (eflags : Word) : Bool := eflags.getLsbD 14

/-- The mask of NT (R13). -/
def ntMask : Word := 0x00004000

/-- EFLAGS with NT set. -/
def setNT (eflags : Word) : Word := eflags ||| ntMask

/-- EFLAGS with NT cleared. -/
def clearNT (eflags : Word) : Word := eflags &&& ~~~ntMask

/-- The EFLAGS image saved for the outgoing task (R80 step 3, R83). -/
def savedEflags (k : DispatchKind) (eflags : Word) : Word :=
  match k with
  | .iret => clearNT eflags
  | .jmp | .call | .int => eflags

/-- The EFLAGS loaded for the incoming task (R83, R84). -/
def loadedEflags (k : DispatchKind) (saved : Word) : Word := if nests k then setNT saved else saved

/-- The byte of a descriptor that holds the busy flag, descriptor + 5 (R30, R32). -/
def busyByteOffset : Nat := 5

/-- The busy flag set in the descriptor at `d`: a 1-byte read-modify-write with 0x02 (R69, R80 step 5). -/
def setBusy (m : Memory) (d : Nat) : Memory :=
  m.setByte (d + busyByteOffset) (m.byte (d + busyByteOffset) ||| 0x02)

/-- The busy flag cleared in the descriptor at `d`: a 1-byte read-modify-write with 0xFD (R80 step 2). -/
def clearBusy (m : Memory) (d : Nat) : Memory :=
  m.setByte (d + busyByteOffset) (m.byte (d + busyByteOffset) &&& 0xFD)

/-- `max(CPL, RPL) <= DPL` (R79), on unsigned numbers (R9). -/
def privilegeAllows (cpl rpl dpl : BitVec 2) : Bool := decide (max cpl.toNat rpl.toNat ≤ dpl.toNat)

/-- The CPL after a selector is loaded into CS by a task switch: its bits 1:0 (R19, R84). -/
def cplOf (cs : Sel) : BitVec 2 := cs.extractLsb' 0 2

end Sys2Proof.Machine
end

