-- ==== Sys2Proof/WellFormed.lean ====
section
/-! DEFINITION. Well-formedness of instruction terms (R61) and of the launch parameters (R5). -/

namespace Sys2Proof

/-- Every term of R61 is well-formed: a register is one of eight, `sel` has 16 bits and `off` 32 by their types,
and R61 gives no further condition ("there are no qualifiers, no condition codes and no modifiers"). -/
def Instr.wf : Instr → Bool
  | .ltr _    => true
  | .jmp _ _  => true
  | .call _ _ => true
  | .iret     => true

/-- The bases of R5 are 32 bits in `Protected`: the upper half of the 64-bit field is zero. -/
def Config.basesFit (c : Config) : Bool :=
  match c.mode with
  | .protectedMode => decide (c.gdtBase.toNat < 2 ^ 32) && decide (c.idtBase.toNat < 2 ^ 32)
      && c.ldtWindows.all fun w => decide (w.base.toNat < 2 ^ 32)
  | .long64 => true

/-- `ldtWindow` is a function (R5): one row for a selector. -/
def Config.windowsDistinct (c : Config) : Bool :=
  decide (c.ldtWindows.map (·.sel)).Nodup

/-- The well-formed launch parameters. -/
def Config.wf (c : Config) : Bool := c.basesFit && c.windowsDistinct

end Sys2Proof
end

