-- ==== Sys2Proof/Decode.lean ====
section
/-! DEFINITION. The decoder of the byte encodings of 30_encoding.md R63, total on any bytes, and the encoder written from the same table.
The rules work on terms (R60); the decoder stands in front of them and refuses every prefixed form and every form not in R63 (R66). -/

namespace Sys2Proof

/-- Why bytes are no instruction of R63 (log 2).  For each of them the loader leaves `code` undefined, and a location where it is undefined
is `refused(NoInstruction)` when reached (R60, R65). -/
inductive DecodeError where
  /-- No byte at all. -/
  | noBytes
  /-- The bytes end inside an instruction of R63. -/
  | truncated
  /-- `0F 00 /3` with mod not 11: LTR with a memory operand, left out (R63, D35). -/
  | ltrMemoryOperand
  /-- `0F 00` with another opcode extension: not in R63. -/
  | otherGroupMember (modrm : Byte)
  /-- Another two-byte opcode `0F xx`: not in R63. -/
  | otherTwoByteOpcode (op : Byte)
  /-- `FF /5`, `FF /3`: the indirect far JMP and CALL, left out (R63, D36). -/
  | indirectFarTransfer
  /-- Prefix `66`: the 16-bit operand-size forms, left out (R63). -/
  | operandSizePrefixed
  /-- Any other first byte, another prefix among them: not in R63. -/
  | otherOpcode (op : Byte)
  deriving DecidableEq, Repr

/-- The register number of R63: EAX 0, ECX 1, EDX 2, EBX 3, ESP 4, EBP 5, ESI 6, EDI 7. -/
def Reg.num : Reg → BitVec 3
  | .eax => 0 | .ecx => 1 | .edx => 2 | .ebx => 3 | .esp => 4 | .ebp => 5 | .esi => 6 | .edi => 7

/-- The register of a number (R63). -/
def regOfNum (n : BitVec 3) : Reg :=
  if n = 0 then .eax else if n = 1 then .ecx else if n = 2 then .edx else if n = 3 then .ebx
  else if n = 4 then .esp else if n = 5 then .ebp else if n = 6 then .esi else .edi

/-- The length in bytes of an instruction (R64). -/
def Instr.length : Instr → Nat
  | .ltr _ => 3
  | .jmp _ _ => 7
  | .call _ _ => 7
  | .iret => 1

/-- The ModRM byte `11 011 rrr` or not (R63, LTR). -/
def decodeLtrModRm (modrm : Byte) : Except DecodeError Instr :=
  if modrm.extractLsb' 3 3 = 0b011 then
    if modrm.extractLsb' 6 2 = 0b11 then .ok (.ltr (regOfNum (modrm.extractLsb' 0 3)))
    else .error .ltrMemoryOperand
  else .error (.otherGroupMember modrm)

/-- The bytes after the opcode `0F` (R63, LTR). -/
def decodeTwoByte : List Byte → Except DecodeError (Instr × List Byte)
  | [] => .error .truncated
  | op :: rest =>
    if op = 0x00 then
      match rest with
      | [] => .error .truncated
      | modrm :: rest' => (decodeLtrModRm modrm).map fun i => (i, rest')
    else .error (.otherTwoByteOpcode op)

/-- The six bytes `o0 o1 o2 o3 s0 s1` of a far pointer, little-endian (R63), given to `mk sel off`. -/
def decodeFarPointer (mk : Sel → Word → Instr) : List Byte → Except DecodeError (Instr × List Byte)
  | o0 :: o1 :: o2 :: o3 :: s0 :: s1 :: rest => .ok (mk (s1 ++ s0) (o3 ++ o2 ++ o1 ++ o0), rest)
  | _ => .error .truncated

/-- The bytes after the opcode `FF`: the far indirect forms are named, the rest is no instruction of R63. -/
def decodeGroupFF : List Byte → Except DecodeError (Instr × List Byte)
  | [] => .error .truncated
  | modrm :: _ =>
    if modrm.extractLsb' 3 3 = 0b101 ∨ modrm.extractLsb' 3 3 = 0b011 then .error .indirectFarTransfer
    else .error (.otherGroupMember modrm)

/-- The decoder: the instruction the bytes begin with and the bytes after it, or the reason there is none (R63, R66). -/
def decode : List Byte → Except DecodeError (Instr × List Byte)
  | [] => .error .noBytes
  | op :: rest =>
    if op = 0xCF then .ok (.iret, rest)
    else if op = 0xEA then decodeFarPointer .jmp rest
    else if op = 0x9A then decodeFarPointer .call rest
    else if op = 0x0F then decodeTwoByte rest
    else if op = 0xFF then decodeGroupFF rest
    else if op = 0x66 then .error .operandSizePrefixed
    else .error (.otherOpcode op)

/-- The six bytes of a far pointer (R63). -/
def farPointerBytes (sel : Sel) (off : Word) : List Byte :=
  [off.extractLsb' 0 8, off.extractLsb' 8 8, off.extractLsb' 16 8, off.extractLsb' 24 8,
   sel.extractLsb' 0 8, sel.extractLsb' 8 8]

/-- The encoder, from the table of R63, bytes in increasing address order. -/
def encode : Instr → List Byte
  | .ltr r        => [0x0F, 0x00, 0xD8 + r.num.setWidth 8]
  | .jmp sel off  => 0xEA :: farPointerBytes sel off
  | .call sel off => 0x9A :: farPointerBytes sel off
  | .iret         => [0xCF]

/-- The longest instruction of R63, in bytes. -/
def maxInstrLength : Nat := 7

/-- The first `n` bytes of a number read with its most significant byte first. -/
def bytesMsbFirst (w : Nat) : Nat → List Byte
  | 0 => []
  | n + 1 => BitVec.ofNat 8 (w / 256 ^ n) :: bytesMsbFirst w n

/-- The first `n` bytes of a number read with its least significant byte first. -/
def bytesLsbFirst (w : Nat) : Nat → List Byte
  | 0 => []
  | n + 1 => BitVec.ofNat 8 w :: bytesLsbFirst (w / 256) n

/-- Whether the bytes begin with an instruction. -/
def decodes (bs : List Byte) : Bool :=
  match decode bs with
  | .ok _ => true
  | .error _ => false

/-- The bytes in memory of a table word of `nbits` bits, followed by zero bytes up to the longest instruction.
spec/opcode_table.json reads a row's bytes as ONE number with bit 0 the least significant bit of its LAST byte (for `LTR`, "fixed" has bits
23:3 and the field `r` bits 2:0), so the first byte is the most significant one.
Where those bytes are no instruction, the other numbering (first byte least significant) is tried (DESIGN CHOICE, log 3). -/
def tableBytes (nbits w : Nat) : List Byte :=
  let n := nbits / 8
  let pad := List.replicate (maxInstrLength - n) (0 : Byte)
  let msb := bytesMsbFirst w n ++ pad
  if decodes msb then msb else bytesLsbFirst w n ++ pad

/-- The instruction the decoder reads from a table word (log 3). -/
def decodeTableWord (nbits w : Nat) : Option Instr :=
  match decode (tableBytes nbits w) with
  | .ok (i, _) => some i
  | .error _ => none

end Sys2Proof
end

