-- ==== Sys2Proof/Machine/Program.lean ====
section
/-! DEFINITION. The program text `code` (R5, R60): what stands at a code location, terms put there and taken away, and the loader that puts
there the term a decoder reads from bytes.  No rule of the machine reads bytes (R60, D1): the decoder stands in front of it. -/

namespace Sys2Proof.Machine

/-- `code(l)` (R60): the term and the length at a location, or none. -/
def CodeStore.lookup : CodeStore → CodeLoc → Option CodeEntry
  | [], _ => none
  | (k, e) :: rest, l => if k = l then some e else CodeStore.lookup rest l

/-- The program text with a term and its length put at a location, kept in rising order. -/
def CodeStore.place : CodeStore → CodeLoc → CodeEntry → CodeStore
  | [], l, e => [(l, e)]
  | (k, v) :: rest, l, e =>
    if codePlace l < codePlace k then (l, e) :: (k, v) :: rest
    else if l = k then (l, e) :: rest
    else (k, v) :: CodeStore.place rest l e

/-- The program text with nothing at a location. -/
def CodeStore.remove (c : CodeStore) (l : CodeLoc) : CodeStore := c.filter fun x => x.1 ≠ l

/-- The term the decoder reads at the beginning of some bytes, with the length its encoding has (R63, R64), or none. -/
def decodedEntry (bs : List Byte) : Option CodeEntry :=
  match decode bs with
  | .ok (i, _) => some ⟨i, i.length⟩
  | .error _ => none

/-- The loader in front of the machine (R66, log 1): at the location stands what the decoder reads from the bytes, and nothing where it
reads no instruction of R63. -/
def CodeStore.load (c : CodeStore) (l : CodeLoc) (bs : List Byte) : CodeStore :=
  match decodedEntry bs with
  | some e => c.place l e
  | none => c.remove l

/-- The code location of the next instruction, (seg[CS], EIP) (R11, R60). -/
def State.codeLoc (s : State) : CodeLoc := ⟨s.segs.cs, s.eip⟩

/-- `code(seg[CS], EIP)` (R60): the term and its length at the current location, or none. -/
def fetch (s : State) : Option CodeEntry := s.code.lookup s.codeLoc

/-- `len` for the instruction `i` in progress (R64): "`len` is part of what `code` returns".
Every instruction a step runs is the one `code` has at the current location; for another one, which no step runs, it is the length of R63 (log 1). -/
def State.lenOf (s : State) (i : Instr) : Nat :=
  match fetch s with
  | some e => if e.term = i then e.len else i.length
  | none => i.length

/-- `EIP + len` for the instruction in progress, where it fits 32 bits (R11, R64). -/
def State.eipAfter (s : State) (i : Instr) : Word := s.eip + BitVec.ofNat 32 (s.lenOf i)

/-- The location of the next instruction is one of `stops` (R113). -/
def atStop (s : State) : Bool := s.cfg.stops.contains s.codeLoc

end Sys2Proof.Machine
end

