-- ==== Sys2Proof/Machine/Ops.lean ====
section
/-! DEFINITION. The operations the instructions share: checked address sums (R9), descriptor lookup (R50), the resolution of a JMP or CALL
target (R79), the task switch (R80 to R86), and the dispatch of an interrupt or exception (R77, R78), each in the order of its pseudocode. -/

namespace Sys2Proof.Machine

/-- How a rule's pseudocode stops: `raise` (R93) or `refuse` (R94). -/
inductive Stop where
  | raise (f : Fault)
  | refuse (r : Refusal)
  deriving DecidableEq, Repr

/-- A piece of pseudocode: a value, or the first stop met (R98 (a)). -/
abbrev Chk (α : Type) := Except Stop α

/-- `if c then raise f` (R7). -/
def raiseIf (c : Prop) [Decidable c] (f : Fault) : Chk Unit := if c then .error (.raise f) else .ok ()

/-- `if c then refuse r` (R7). -/
def refuseIf (c : Prop) [Decidable c] (r : Refusal) : Chk Unit := if c then .error (.refuse r) else .ok ()

/-- The outcome of a rule: a stop has no next state, so nothing written before it is kept (R93, D21). -/
def toOutcome : Chk State → Host.Outcome State Fault Refusal
  | .ok s => .next s
  | .error (.raise f) => .fault f
  | .error (.refuse r) => .refused r

/-- One more than the highest address: 32 bits in `Protected`, 64 in `Long64` (R9, R28). -/
def addrLimit : Mode → Nat
  | .protectedMode => 2 ^ 32
  | .long64 => 2 ^ 64

/-- The address sum `base + off`: refused when it does not fit the address width (R9). -/
def addrSum (s : State) (base off : Nat) : Chk Nat := do
  refuseIf (addrLimit s.cfg.mode ≤ base + off) .addressWrap
  .ok (base + off)

/-- The last byte of an access of `n` bytes (`n` at least 1) at `a` fits the address width (R9, R30). -/
def accessFits (s : State) (a : Nat) (n : Nat) : Chk Unit :=
  refuseIf (addrLimit s.cfg.mode < a + n) .addressWrap

/-- `MemRead(a, 2)`. -/
def memRead2 (s : State) (a : Nat) : Chk (BitVec 16) := do
  accessFits s a 2
  .ok (s.mem.read2 a)

/-- `MemRead(a, 8)`. -/
def memRead8 (s : State) (a : Nat) : Chk (BitVec 64) := do
  accessFits s a 8
  .ok (s.mem.read8 a)

/-- `MemRead(a, 16)`. -/
def memRead16 (s : State) (a : Nat) : Chk (BitVec 128) := do
  accessFits s a 16
  .ok (s.mem.read16 a)

/-- `EIP + len` for the instruction `i` in progress, refused when it does not fit 32 bits (R11, R64). -/
def nextEip (s : State) (i : Instr) : Chk Word := do
  refuseIf (2 ^ 32 ≤ s.eip.toNat + s.lenOf i) .addressWrap
  .ok (s.eipAfter i)

/-- `ldtWindow(sel)` (R5): where the current LDT lies, or none. -/
def ldtWindowOf (c : Config) (sel : Sel) : Option LdtWindow := c.ldtWindows.find? fun w => w.sel = sel

/-- `hasErrorCode(v)` (R5). -/
def hasErrorCode (c : Config) (v : Nat) : Bool := c.errorVectors.contains v

/-- The base and limit of the table a selector names (R50): the GDT, or the current LDT. -/
def tableOf (s : State) (sel : Sel) : Chk (Nat × Nat) :=
  if selTI sel then
    match ldtWindowOf s.cfg s.ldtr with
    | none => .error (.raise (.selectorOutOfTable sel))
    | some w => .ok (w.base.toNat, w.limit)
  else .ok (s.cfg.gdtBase.toNat, s.cfg.gdtLimit.toNat)

/-- `DescAddr(sel, size)` (R50). -/
def descAddr (s : State) (sel : Sel) (size : Nat) : Chk Nat := do
  raiseIf (selIndex sel = 0 ∧ selTI sel = false) (.selectorNull sel)
  let tbl ← tableOf s sel
  raiseIf (tbl.2 < 8 * selIndex sel + size - 1) (.selectorOutOfTable sel)
  addrSum s tbl.1 (8 * selIndex sel)

/-- `IdtAddr(v)` (R50). -/
def idtAddr (s : State) (v : Nat) : Chk Nat := do
  raiseIf (s.cfg.idtLimit.toNat < 8 * v + 7) (.vectorOutOfTable v)
  addrSum s s.cfg.idtBase.toNat (8 * v)

/-- `ResolveTarget(sel)` (R79): the selector of the TSS a JMP or CALL goes to, after the access check. -/
def resolveTarget (s : State) (sel : Sel) : Chk Sel := do
  let a ← descAddr s sel 8
  let d ← memRead8 s a
  match classify d with
  | .tss t => do
    raiseIf (selTI sel = true) (.selectorNotGlobal sel)
    raiseIf (privilegeAllows s.cpl (selRPL sel) t.dpl = false) (.privilegeViolation (some sel))
    .ok sel
  | .gate g => do
    raiseIf (privilegeAllows s.cpl (selRPL sel) g.dpl = false) (.privilegeViolation (some sel))
    raiseIf (g.p = false) (.notPresent (.selector sel))
    .ok g.tssSel
  | .other => .error (.refuse .notATaskTransfer)

/-- A range of bytes by its first and last address, both inside. -/
abbrev Range := Nat × Nat

/-- Two ranges have no byte in common. -/
def rangesApart (x y : Range) : Bool := decide (x.2 < y.1) || decide (y.2 < x.1)

/-- The ranges are pairwise disjoint. -/
def allApart : List Range → Bool
  | [] => true
  | x :: rest => rest.all (rangesApart x) && allApart rest

/-- The byte ranges of R33: outgoing TSS, incoming TSS, GDT, IDT and, if there is one, the current LDT. -/
def switchRanges (s : State) (ob nb : Nat) : List Range :=
  (ob, ob + (tss32Size - 1)) :: (nb, nb + (tss32Size - 1))
    :: (s.cfg.gdtBase.toNat, s.cfg.gdtBase.toNat + s.cfg.gdtLimit.toNat)
    :: (s.cfg.idtBase.toNat, s.cfg.idtBase.toNat + s.cfg.idtLimit.toNat)
    :: match ldtWindowOf s.cfg s.ldtr with
       | none => []
       | some w => [(w.base.toNat, w.base.toNat + w.limit)]

/-- `if not Separated(ob, nb) then refuse StructuresOverlap` (R81), the sums of R33 checked first (log 11). -/
def checkSeparated (s : State) (ob nb : Nat) : Chk Unit := do
  refuseIf ((switchRanges s ob nb).all (fun r => decide (r.2 < addrLimit s.cfg.mode)) = false) .addressWrap
  refuseIf (allApart (switchRanges s ob nb) = false) .structuresOverlap

/-- The busy flag of an incoming task must be 1 for IRET and 0 for every other kind (R81, R83). -/
def checkIncomingBusy (k : DispatchKind) (sel : Sel) (t : TssDesc) : Chk Unit :=
  match k with
  | .iret => raiseIf (t.b = false) (.taskNotBusy sel)
  | .jmp | .call | .int => raiseIf (t.b = true) (.taskBusy sel)

/-- `CheckIncoming(kind, tssSel)` (R81): the address of the incoming TSS descriptor and its fields; writes nothing. -/
def checkIncoming (k : DispatchKind) (tssSel : Sel) (tr : TaskReg) (s : State) : Chk (Nat × TssDesc) := do
  raiseIf (selTI tssSel = true) (.selectorNotGlobal tssSel)
  let a ← descAddr s tssSel 8
  let d ← memRead8 s a
  match classify d with
  | .tss t => do
    refuseIf (t.z54 = true ∨ t.z53 = true) .reservedBitSet
    checkIncomingBusy k tssSel t
    raiseIf (t.p = false) (.notPresent (.selector tssSel))
    raiseIf (effLimit t < minTssLimit) (.tssTooSmall tssSel)
    refuseIf (selIndex tssSel = selIndex tr.sel) .selfSwitch
    checkSeparated s tr.base.toNat t.base.toNat
    let row ← memRead2 s (t.base.toNat + tss32Offset .t)
    refuseIf (row.getLsbD 0 = true) .debugTrapUnmodelled
    .ok (a, t)
  | .gate _ | .other => .error (.raise (.notATss tssSel))

/-- `SaveContext(ob, nextEIP, img)` (R82): the dynamic fields written to the outgoing TSS. -/
def saveContext (m : Memory) (ob : Nat) (next img : Word) (g : Gprs) (r : SegRegs) : Memory :=
  let m := m.write4 (ob + tss32Offset .eip) next
  let m := m.write4 (ob + tss32Offset .eflags) img
  let m := m.write4 (ob + tss32Offset .eax) g.eax
  let m := m.write4 (ob + tss32Offset .ecx) g.ecx
  let m := m.write4 (ob + tss32Offset .edx) g.edx
  let m := m.write4 (ob + tss32Offset .ebx) g.ebx
  let m := m.write4 (ob + tss32Offset .esp) g.esp
  let m := m.write4 (ob + tss32Offset .ebp) g.ebp
  let m := m.write4 (ob + tss32Offset .esi) g.esi
  let m := m.write4 (ob + tss32Offset .edi) g.edi
  let m := m.write2 (ob + tss32Offset .es) r.es
  let m := m.write2 (ob + tss32Offset .cs) r.cs
  let m := m.write2 (ob + tss32Offset .ss) r.ss
  let m := m.write2 (ob + tss32Offset .ds) r.ds
  let m := m.write2 (ob + tss32Offset .fs) r.fs
  m.write2 (ob + tss32Offset .gs) r.gs

/-- The general registers held in the TSS at `nb` (R84). -/
def loadGprs (m : Memory) (nb : Nat) : Gprs where
  eax := m.read4 (nb + tss32Offset .eax)
  ecx := m.read4 (nb + tss32Offset .ecx)
  edx := m.read4 (nb + tss32Offset .edx)
  ebx := m.read4 (nb + tss32Offset .ebx)
  esp := m.read4 (nb + tss32Offset .esp)
  ebp := m.read4 (nb + tss32Offset .ebp)
  esi := m.read4 (nb + tss32Offset .esi)
  edi := m.read4 (nb + tss32Offset .edi)

/-- The segment selectors held in the TSS at `nb` (R84). -/
def loadSegs (m : Memory) (nb : Nat) : SegRegs where
  cs := m.read2 (nb + tss32Offset .cs)
  ds := m.read2 (nb + tss32Offset .ds)
  ss := m.read2 (nb + tss32Offset .ss)
  es := m.read2 (nb + tss32Offset .es)
  fs := m.read2 (nb + tss32Offset .fs)
  gs := m.read2 (nb + tss32Offset .gs)

/-- `LoadContext(nb, kind)` (R84, R86): the context loaded from the incoming TSS, read in the memory of `s`. -/
def loadContext (s : State) (nb : Nat) (k : DispatchKind) : State :=
  { s with
    cr3    := if s.cfg.pagingEnabled then s.mem.read4 (nb + tss32Offset .cr3) else s.cr3
    ldtr   := s.mem.read2 (nb + tss32Offset .ldt)
    eflags := loadedEflags k (s.mem.read4 (nb + tss32Offset .eflags))
    eip    := s.mem.read4 (nb + tss32Offset .eip)
    gprs   := loadGprs s.mem nb
    segs   := loadSegs s.mem nb
    cpl    := cplOf (s.mem.read2 (nb + tss32Offset .cs)) }

/-- The memory after steps 2 to 6 of R80: the outgoing busy flag, the saved context, the incoming busy flag and the link. -/
def switchMemory (k : DispatchKind) (tr : TaskReg) (next : Word) (outDesc inDesc nb : Nat) (s : State) : Memory :=
  let m := if clearsOutgoingBusy k then clearBusy s.mem outDesc else s.mem
  let m := saveContext m tr.base.toNat next (savedEflags k s.eflags) s.gprs s.segs
  let m := if setsIncomingBusy k then setBusy m inDesc else m
  if nests k then m.write2 (nb + tss32Offset .link) tr.sel else m

/-- Steps 2 to 8 of R80: the task register is loaded (step 7, R85) and then the context (step 8). -/
def commitSwitch (k : DispatchKind) (tssSel : Sel) (tr : TaskReg) (next : Word) (outDesc inDesc : Nat) (t : TssDesc)
    (s : State) : State :=
  loadContext
    ((s.withMem (switchMemory k tr next outDesc inDesc t.base.toNat s)).withTr (taskRegOf tssSel t)) t.base.toNat k

/-- `TaskSwitch(kind, tssSel, nextEIP)` (R80): steps 0 and 1 check and write nothing, steps 2 to 8 cannot stop but for an address sum. -/
def taskSwitch (k : DispatchKind) (tssSel : Sel) (next : Word) (s : State) : Chk State :=
  match s.tr with
  | none => .error (.refuse .trNotLoaded)
  | some tr => do
    refuseIf (s.cfg.shadowStackEnabled = true) .shadowStackUnmodelled
    let inc ← checkIncoming k tssSel tr s
    let outDesc ← addrSum s s.cfg.gdtBase.toNat (8 * selIndex tr.sel)
    refuseIf (clearsOutgoingBusy k = true ∧ addrLimit s.cfg.mode ≤ outDesc + busyByteOffset) .addressWrap
    .ok (commitSwitch k tssSel tr next outDesc inc.1 inc.2 s)

/-- The implicit dispatch through the IDT entry of a vector (R77): the boundary EIP is saved, no privilege check is made. -/
def dispatchVector (v : Nat) (s : State) : Chk State := do
  refuseIf (s.cfg.mode = .long64) .longModeTransfer
  let a ← idtAddr s v
  let d ← memRead8 s a
  match classify d with
  | .gate g => do
    raiseIf (g.p = false) (.notPresent (.vector v))
    taskSwitch .int g.tssSel s.eip s
  | .tss _ => .error (.raise (.invalidIdtEntry v))
  | .other => .error (.refuse .notATaskTransfer)

/-- Taking an interrupt or exception of the environment (R77, R78, R99): the one entry mechanism of the spec. -/
def takeEvent (e : Event) (s : State) : Chk State :=
  match e with
  | .interrupt v => dispatchVector v s
  | .exception v => do
    refuseIf (hasErrorCode s.cfg v = true) .errorCodeUnmodelled
    dispatchVector v s

/-- `MemRead(TR.base + 0, 2)`: the Previous Task Link of the current TSS (R76), the return half of R99 (R100). -/
def previousLink (s : State) (tr : TaskReg) : Chk Sel := memRead2 s (tr.base.toNat + tss32Offset .link)

end Sys2Proof.Machine
end

