-- ==== Sys2Proof/Machine/Ltr.lean ====
section
/-! DEFINITION. The meaning of LTR (40_ltr.md R69, R70). -/

namespace Sys2Proof.Machine

/-- The bytes of a TSS descriptor read by LTR: 8 in `Protected`, 16 in `Long64` (R69, R70). -/
def ltrDescSize : Mode → Nat
  | .protectedMode => 8
  | .long64 => 16

/-- The TSS descriptor at `a`: `Classify` looks at the low 64 bits in both modes (R69, R70). -/
def readLtrDesc (s : State) (a : Nat) (sel : Sel) : Chk TssDesc :=
  match s.cfg.mode with
  | .protectedMode => do
    let d ← memRead8 s a
    match classify d with
    | .tss t => .ok t
    | .gate _ | .other => .error (.raise (.notATss sel))
  | .long64 => do
    let d ← memRead16 s a
    match classify (d.extractLsb' 0 64) with
    | .tss _ => .ok (decodeTss64 d)
    | .gate _ | .other => .error (.raise (.notATss sel))

/-- The checks of LTR in the order of R69 and R70: the descriptor's address, its fields and the next EIP. -/
def checkLtr (sel : Sel) (i : Instr) (s : State) : Chk (Nat × TssDesc × Word) := do
  raiseIf (s.cpl ≠ 0) (.privilegeViolation none)
  raiseIf (selTI sel = true) (.selectorNotGlobal sel)
  let a ← descAddr s sel (ltrDescSize s.cfg.mode)
  let t ← readLtrDesc s a sel
  refuseIf (t.z54 = true ∨ t.z53 = true) .reservedBitSet
  raiseIf (t.zero ≠ 0) (.notATss sel)
  raiseIf (t.b = true) (.taskBusy sel)
  raiseIf (t.p = false) (.notPresent (.selector sel))
  let e ← nextEip s i
  .ok (a, t, e)

/-- `LTR r` (R69 in `Protected`, R70 in `Long64`). -/
def execLtr (r : Reg) (s : State) : Host.Outcome State Fault Refusal :=
  toOutcome do
    let x ← checkLtr (s.gprs.low16 r) (.ltr r) s
    .ok (((s.withMem (setBusy s.mem x.1)).withTr (taskRegOf (s.gprs.low16 r) x.2.1)).withEip x.2.2)

end Sys2Proof.Machine
end

