-- ==== Sys2Proof/Machine/Transfer.lean ====
section
/-! DEFINITION. The meanings of JMP, CALL and IRET (41_task_dispatch.md R74, R75, R76). -/

namespace Sys2Proof.Machine

/-- `JMP sel:off` (R74); `off` is ignored (R62). -/
def execJmp (sel : Sel) (off : Word) (s : State) : Host.Outcome State Fault Refusal :=
  toOutcome do
    refuseIf (s.cfg.mode = .long64) .longModeTransfer
    let tssSel ← resolveTarget s sel
    let next ← nextEip s (.jmp sel off)
    taskSwitch .jmp tssSel next s

/-- `CALL sel:off` (R75); `off` is ignored (R62). -/
def execCall (sel : Sel) (off : Word) (s : State) : Host.Outcome State Fault Refusal :=
  toOutcome do
    refuseIf (s.cfg.mode = .long64) .longModeTransfer
    let tssSel ← resolveTarget s sel
    let next ← nextEip s (.call sel off)
    taskSwitch .call tssSel next s

/-- `IRET` (R76): with NT set, a return to the task named by the Previous Task Link. -/
def execIret (s : State) : Host.Outcome State Fault Refusal :=
  toOutcome do
    refuseIf (s.cfg.mode = .long64) .longModeTransfer
    refuseIf (ntFlag s.eflags = false) .iretWithoutNT
    match s.tr with
    | none => .error (.refuse .trNotLoaded)
    | some tr => do
      let link ← previousLink s tr
      let next ← nextEip s .iret
      taskSwitch .iret link next s

end Sys2Proof.Machine
end

