-- ==== Sys2Proof/Machine/Dispatch.lean ====
section
/-! DEFINITION. The meaning of every instruction of spec/opcode_table.json, one arm each. -/

namespace Sys2Proof.Machine

/-- One arm per constructor of `Instr`. -/
def exec (i : Instr) (s : State) : Host.Outcome State Fault Refusal :=
  match i with
  | .ltr r => Sys2Proof.Machine.execLtr r s
  | .jmp sel off => Sys2Proof.Machine.execJmp sel off s
  | .call sel off => Sys2Proof.Machine.execCall sel off s
  | .iret => Sys2Proof.Machine.execIret s

end Sys2Proof.Machine
end

