-- ==== Sys2Proof/Machine/Step.lean ====
section
/-! DEFINITION. One step of the machine: an event offered at the boundary is taken before the instruction there (R96, R98);
a faulted, refused or final state takes no step (R93, R94, R113). -/

namespace Sys2Proof.Machine

/-- One step.  A stopped state answers its stop again; a final state with nothing offered stays as it is (log 8);
otherwise the offer at this boundary is used up and the event, or the instruction `code` has at (CS, EIP), happens. -/
def step (s : State) : Host.Outcome State Fault Refusal :=
  match s.outcome with
  | .faulted f => .fault f
  | .refused r => .refused r
  | .running =>
    match s.offers with
    | some e :: rest => toOutcome (takeEvent e (s.withOffers rest))
    | offers =>
      if atStop s then .next s
      else
        match fetch s with
        | some e => exec e.term (s.withOffers offers.tail)
        | none => .refused .noInstruction

/-- The state of the spec's run after a step (R26, R93, R94): a stop changes nothing but the outcome mark. -/
def advance (s : State) : State :=
  match step s with
  | .next t => t
  | .fault f => s.withOutcome (.faulted f)
  | .refused r => s.withOutcome (.refused r)

/-- A boundary without an event put before the offers to come, if the next one is an event. -/
def offersWithoutEventNext : List (Option Event) → List (Option Event)
  | some e :: rest => none :: some e :: rest
  | os => os

/-- The state with the instruction the decoder reads from a table word loaded at (CS, EIP) in the program text, and with everything that keeps the very next
step from running it taken away: an event offered at this boundary comes one boundary later, the location is no stop, the mark is `running`
(log 3, log 24). -/
def State.withFetchWord (s : State) (nbits w : Nat) : State :=
  (((s.withCode (s.code.load s.codeLoc (tableBytes nbits w))).withOffers (offersWithoutEventNext s.offers)).withCfg
    { s.cfg with stops := s.cfg.stops.filter fun l => l ≠ s.codeLoc }).withOutcome .running

end Sys2Proof.Machine
end

