-- ==== Sys2Proof/Safety.lean ====
section
/-! DEFINITION. The terms in which claims about the machine are stated: when an operation completes (its hypotheses on state and operands alone),
what a task switch is as a relation between states, the bytes it writes, the invariant of the machine, runs, and the launch premises of
70_reset_and_hazards.md R110. -/

namespace Sys2Proof.Machine

/-! ### Descriptors in their tables -/

/-- The address of a selector's slot in the GDT (R50). -/
def gdtSlot (s : State) (sel : Sel) : Nat := s.cfg.gdtBase.toNat + 8 * selIndex sel

/-- The selector names a GDT slot that is not the null one, lies within the table limit for `size` bytes, and within the address width (R49, R50, R9). -/
structure InGdt (s : State) (sel : Sel) (size : Nat) : Prop where
  global  : selTI sel = false
  notNull : selIndex sel ≠ 0
  inTable : 8 * selIndex sel + size - 1 ≤ s.cfg.gdtLimit.toNat
  fits    : gdtSlot s sel + size ≤ addrLimit s.cfg.mode

/-- The selector names an 8-byte slot of the current LDT at address `a`, with the same conditions (R50). -/
structure InLdt (s : State) (sel : Sel) (a : Nat) : Prop where
  localTable : selTI sel = true
  window     : ∃ w, ldtWindowOf s.cfg s.ldtr = some w ∧ 8 * selIndex sel + 7 ≤ w.limit ∧ a = w.base.toNat + 8 * selIndex sel
  fits       : a + 8 ≤ addrLimit s.cfg.mode

/-- What the figure of the TSS descriptor draws in bits 44, 43, 42 and 40 (R41, R51). -/
abbrev drawnAsTss (d : BitVec 64) : Prop :=
  d.getLsbD 44 = false ∧ d.getLsbD 43 = true ∧ d.getLsbD 42 = false ∧ d.getLsbD 40 = true

/-- What the figure of the task gate draws in bits 44 and 43:40 (R47, R51). -/
abbrev drawnAsGate (d : BitVec 64) : Prop := d.getLsbD 44 = false ∧ d.extractLsb' 40 4 = 0b0101

/-! ### When an instruction completes -/

/-- LTR with selector `sel` loads the task register in `Protected` (R69): every check of the rule passes. -/
structure LtrReady (s : State) (sel : Sel) (len : Nat) : Prop where
  mode     : s.cfg.mode = .protectedMode
  cpl      : s.cpl = 0
  slot     : InGdt s sel 8
  isTss    : drawnAsTss (s.mem.read8 (gdtSlot s sel))
  zeros    : (s.mem.read8 (gdtSlot s sel)).getLsbD 54 = false ∧ (s.mem.read8 (gdtSlot s sel)).getLsbD 53 = false
  notBusy  : (s.mem.read8 (gdtSlot s sel)).getLsbD 41 = false
  present  : (s.mem.read8 (gdtSlot s sel)).getLsbD 47 = true
  nextFits : s.eip.toNat + len < 2 ^ 32

/-- LTR with selector `sel` loads the task register in `Long64` (R70): the 16-byte descriptor. -/
structure LtrReady64 (s : State) (sel : Sel) (len : Nat) : Prop where
  mode     : s.cfg.mode = .long64
  cpl      : s.cpl = 0
  slot     : InGdt s sel 16
  isTss    : drawnAsTss (s.mem.read8 (gdtSlot s sel))
  zeros    : (s.mem.read8 (gdtSlot s sel)).getLsbD 54 = false ∧ (s.mem.read8 (gdtSlot s sel)).getLsbD 53 = false
  zero     : (s.mem.read16 (gdtSlot s sel)).extractLsb' 104 5 = 0
  notBusy  : (s.mem.read8 (gdtSlot s sel)).getLsbD 41 = false
  present  : (s.mem.read8 (gdtSlot s sel)).getLsbD 47 = true
  nextFits : s.eip.toNat + len < 2 ^ 32

/-- A JMP or CALL with selector `sel` reaches the TSS selector `tssSel` (R79): straight to a TSS descriptor in the GDT, or through a task gate
in the GDT or the current LDT, with the privilege check of each. -/
inductive Reaches (s : State) (sel : Sel) : Sel → Prop where
  | direct (slot : InGdt s sel 8) (isTss : drawnAsTss (s.mem.read8 (gdtSlot s sel)))
      (allowed : max s.cpl.toNat (selRPL sel).toNat ≤ ((s.mem.read8 (gdtSlot s sel)).extractLsb' 45 2).toNat) : Reaches s sel sel
  | gate (a : Nat) (slot : (InGdt s sel 8 ∧ a = gdtSlot s sel) ∨ InLdt s sel a) (isGate : drawnAsGate (s.mem.read8 a))
      (allowed : max s.cpl.toNat (selRPL sel).toNat ≤ ((s.mem.read8 a).extractLsb' 45 2).toNat)
      (present : (s.mem.read8 a).getLsbD 47 = true) : Reaches s sel ((s.mem.read8 a).extractLsb' 16 16)

/-- The descriptor in the GDT slot of a selector, decoded (R46). -/
def tssAt (s : State) (sel : Sel) : TssDesc := decodeTss32 (s.mem.read8 (gdtSlot s sel))

/-- A task switch of kind `k` to `tssSel` from the task in `tr` passes every check of R80 steps 0 and 1 and of R81. -/
structure SwitchReady (k : DispatchKind) (tssSel : Sel) (tr : TaskReg) (s : State) : Prop where
  loaded   : s.tr = some tr
  noShadow : s.cfg.shadowStackEnabled = false
  slot     : InGdt s tssSel 8
  isTss    : drawnAsTss (s.mem.read8 (gdtSlot s tssSel))
  zeros    : (tssAt s tssSel).z54 = false ∧ (tssAt s tssSel).z53 = false
  busy     : (tssAt s tssSel).b = decide (k = .iret)
  present  : (tssAt s tssSel).p = true
  bigEnough : minTssLimit ≤ effLimit (tssAt s tssSel)
  other    : selIndex tssSel ≠ selIndex tr.sel
  fit      : ∀ r ∈ switchRanges s tr.base.toNat (tssAt s tssSel).base.toNat, r.2 < addrLimit s.cfg.mode
  apart    : allApart (switchRanges s tr.base.toNat (tssAt s tssSel).base.toNat) = true
  noTrap   : (s.mem.read2 ((tssAt s tssSel).base.toNat + 100)).getLsbD 0 = false
  outSlot  : gdtSlot s tr.sel < addrLimit s.cfg.mode
  outBusy  : clearsOutgoingBusy k = true → gdtSlot s tr.sel + 5 < addrLimit s.cfg.mode

/-- The IDT entry of vector `v` is a present task gate in the table, naming `tssSel` (R50, R77). -/
structure GateInIdt (s : State) (v : Nat) (tssSel : Sel) : Prop where
  inTable : 8 * v + 7 ≤ s.cfg.idtLimit.toNat
  fits    : s.cfg.idtBase.toNat + 8 * v + 8 ≤ addrLimit s.cfg.mode
  isGate  : drawnAsGate (s.mem.read8 (s.cfg.idtBase.toNat + 8 * v))
  present : (s.mem.read8 (s.cfg.idtBase.toNat + 8 * v)).getLsbD 47 = true
  names   : (s.mem.read8 (s.cfg.idtBase.toNat + 8 * v)).extractLsb' 16 16 = tssSel

/-- The vector of an event, and whether an error code keeps it from being dispatched (R77, R78). -/
def Event.deliverable (c : Config) : Event → Bool
  | .interrupt _ => true
  | .exception v => !hasErrorCode c v

/-- The vector of an event. -/
def Event.vector : Event → Nat
  | .interrupt v => v
  | .exception v => v

/-! ### Task switches as a relation -/

/-- `s` goes to `t` by a task switch of kind `k` whose saved EIP is `next` (R74 to R78, R82): by one of the three transferring
instructions, or by an event of the environment. -/
def SwitchRun (k : DispatchKind) (next : Word) (s t : State) : Prop :=
  match k with
  | .jmp  => ∃ sel off, exec (.jmp sel off) s = .next t ∧ next = s.eipAfter (.jmp sel off)
  | .call => ∃ sel off, exec (.call sel off) s = .next t ∧ next = s.eipAfter (.call sel off)
  | .iret => exec .iret s = .next t ∧ next = s.eipAfter .iret
  | .int  => (∃ e, toOutcome (takeEvent e s) = .next t) ∧ next = s.eip

/-- The bytes of a TSS at `ob` that a switch away from it writes: the rows EIP to EDI, and the low halves of the six selector rows (R82). -/
def dynamicByte (ob x : Nat) : Prop :=
  (ob + 32 ≤ x ∧ x < ob + 72) ∨ (∃ j, j < 6 ∧ (x = ob + 72 + 4 * j ∨ x = ob + 73 + 4 * j))

/-- The bytes a switch of kind `k` writes outside the outgoing TSS: the busy bytes of the two descriptors and the incoming link (R80 steps 2, 5
and 6, R83). -/
def linkOrBusyByte (k : DispatchKind) (s : State) (tr v : TaskReg) (x : Nat) : Prop :=
  (clearsOutgoingBusy k = true ∧ x = gdtSlot s tr.sel + 5)
    ∨ (setsIncomingBusy k = true ∧ x = gdtSlot s v.sel + 5)
    ∨ (nests k = true ∧ (x = v.base.toNat ∨ x = v.base.toNat + 1))

/-- The bytes a switch of kind `k` writes, from the task in `tr` to the task in `v` (R80 steps 2 to 6). -/
def switchWrites (k : DispatchKind) (s : State) (tr v : TaskReg) (x : Nat) : Prop :=
  dynamicByte tr.base.toNat x ∨ linkOrBusyByte k s tr v x

/-! ### The invariant of the machine -/

/-- The bytes of a TSS descriptor in the mode (R69, R70). -/
def descSize : Mode → Nat
  | .protectedMode => 8
  | .long64 => 16

/-- The decoded TSS descriptor of a selector in the format of the mode (R46). -/
def modeTssAt (s : State) (sel : Sel) : TssDesc :=
  match s.cfg.mode with
  | .protectedMode => decodeTss32 (s.mem.read8 (gdtSlot s sel))
  | .long64 => decodeTss64 (s.mem.read16 (gdtSlot s sel))

/-- The task register is the copy of a present, busy TSS descriptor that stands in the GDT (R16, R42, R85). -/
structure TrCopy (s : State) (tr : TaskReg) : Prop where
  slot    : InGdt s tr.sel (descSize s.cfg.mode)
  isTss   : drawnAsTss (s.mem.read8 (gdtSlot s tr.sel))
  busy    : (modeTssAt s tr.sel).b = true
  present : (modeTssAt s tr.sel).p = true
  copied  : taskRegOf tr.sel (modeTssAt s tr.sel) = tr

/-- The invariant of the machine: memory in canonical form and within the address width (R28), the CPL that of CS (R19), and a loaded task
register a true copy of its task's busy descriptor (R16, R42). -/
structure Invariant (s : State) : Prop where
  memWf   : s.mem.wf
  memFits : ∀ c ∈ s.mem, c.1 < addrLimit s.cfg.mode
  cplOfCs : s.cpl = cplOf s.segs.cs
  trCopy  : ∀ tr, s.tr = some tr → TrCopy s tr

/-! ### Runs -/

/-- A final state (R113): running, at a stop, with no event offered at this boundary (95_test_vectors.md P6). -/
def Final (s : State) : Prop :=
  s.outcome = .running ∧ s.codeLoc ∈ s.cfg.stops ∧ ∀ e rest, s.offers ≠ some e :: rest

/-- `k` steps of the spec's run (R26, R93, R94). -/
def advanceN : Nat → State → State
  | 0, s => s
  | k + 1, s => advanceN k (advance s)

/-- A run of `k` steps without a fault or a refusal: "a claim about a program holds only of runs that do not fault" (R93). -/
def SafeRun (k : Nat) (s : State) : Prop := (advanceN k s).outcome = .running

/-- What happens at a boundary: nothing, an event, or an instruction (R96, R98, R113). -/
inductive Action where
  | rest
  | event (e : Event)
  | instr (i : Instr)
  deriving DecidableEq, Repr

/-- What a step from a state sets out to do; `rest` at a stop, in a stopped state, and where `code` has nothing. -/
def actionOf (s : State) : Action :=
  match s.outcome with
  | .faulted _ | .refused _ => .rest
  | .running =>
    match s.offers with
    | some e :: _ => .event e
    | _ =>
      if atStop s then .rest
      else
        match fetch s with
        | some e => .instr e.term
        | none => .rest

/-- The kind of the task switch an action makes when it goes on (R72). -/
def Action.kind : Action → Option DispatchKind
  | .rest | .instr (.ltr _) => none
  | .event _ => some .int
  | .instr (.jmp _ _) => some .jmp
  | .instr (.call _ _) => some .call
  | .instr .iret => some .iret

/-- The bytes a step writes: the busy byte of LTR, or those of a task switch (R69, R80).  A step that stops writes none. -/
def stepWrites (s : State) (x : Nat) : Prop :=
  ∃ t, step s = .next t ∧
    ((∃ r, actionOf s = .instr (.ltr r) ∧ x = gdtSlot s (s.gprs.low16 r) + 5) ∨
     (∃ k tr v, (actionOf s).kind = some k ∧ s.tr = some tr ∧ t.tr = some v ∧ switchWrites k s tr v x))

/-! ### Launch premises (R110)

A claim takes its assumptions about a launch `s` and a run of `n` steps from this list.  What a premise says of things the machine has no state
for (the place of code in memory, the processor's checks on segments, its page tables, other writers) is an argument of the definition (log 29). -/

/-- `NoFaultRecorded`. -/
def NoFaultRecorded (s : State) : Prop := s.outcome = .running

/-- `ModeFixed` over a run. -/
def ModeFixed (n : Nat) (s : State) : Prop :=
  ∀ j ≤ n, (advanceN j s).cfg.mode = s.cfg.mode ∧ (advanceN j s).cfg.pagingEnabled = s.cfg.pagingEnabled ∧
    (advanceN j s).cfg.shadowStackEnabled = s.cfg.shadowStackEnabled

/-- `TablesFixed` over a run. -/
def TablesFixed (n : Nat) (s : State) : Prop :=
  ∀ j ≤ n, (advanceN j s).cfg.gdtBase = s.cfg.gdtBase ∧ (advanceN j s).cfg.gdtLimit = s.cfg.gdtLimit ∧
    (advanceN j s).cfg.idtBase = s.cfg.idtBase ∧ (advanceN j s).cfg.idtLimit = s.cfg.idtLimit ∧
    (advanceN j s).cfg.ldtWindows = s.cfg.ldtWindows

/-- `CodeFixed` over a run (R55): `code` does not change, and no step writes a byte under an instruction.
`lin` is where a code location lies in the linear memory; the bases of code segments are in no source. -/
structure CodeFixed (lin : CodeLoc → Nat) (n : Nat) (s : State) : Prop where
  same  : ∀ j ≤ n, (advanceN j s).code = s.code
  apart : ∀ j < n, ∀ c ∈ s.code, ∀ i < c.2.len, ¬ stepWrites (advanceN j s) (lin c.1 + i)

/-- `NoOtherWriters` of a history of the hardware, `h j` being the state at boundary `j`: between two boundaries memory changes
only by what the one processor's step does (R52, R104). -/
def NoOtherWriters (h : Nat → State) (n : Nat) : Prop := ∀ j < n, (h (j + 1)).mem = (advance (h j)).mem

/-- The registers that receive a selector on a task switch (R84). -/
inductive SegName where
  | cs | ss | ds | es | fs | gs | ldtr
  deriving DecidableEq, Repr

/-- The selector a state holds in such a register. -/
def selectorIn (s : State) : SegName → Sel
  | .cs => s.segs.cs | .ss => s.segs.ss | .ds => s.segs.ds | .es => s.segs.es | .fs => s.segs.fs | .gs => s.segs.gs | .ldtr => s.ldtr

/-- `SegsValid` over a run: every selector a task switch loads names a segment the processor accepts at the privilege level of the loaded CS (R84, D29).
`accepts t r sel level` says that in the state `t` after the switch the processor accepts `sel` in the register `r` at that level. -/
def SegsValid (accepts : State → SegName → Sel → BitVec 2 → Prop) (n : Nat) (s : State) : Prop :=
  ∀ j < n, ∀ t, step (advanceN j s) = .next t → (actionOf (advanceN j s)).kind ≠ none →
    ∀ r, accepts t r (selectorIn t r) (cplOf t.segs.cs)

/-- A byte of the structures a step from `s` can touch: the GDT, the IDT, the current LDT, the current TSS, the slot of the current task's
descriptor (which a switch reaches without a look at the GDT limit, R80, log 12), and every TSS that a descriptor in the GDT describes, 104 bytes
each (R33, R35). -/
def structureByte (s : State) (x : Nat) : Prop :=
  (s.cfg.gdtBase.toNat ≤ x ∧ x ≤ s.cfg.gdtBase.toNat + s.cfg.gdtLimit.toNat) ∨
  (s.cfg.idtBase.toNat ≤ x ∧ x ≤ s.cfg.idtBase.toNat + s.cfg.idtLimit.toNat) ∨
  (∃ w, ldtWindowOf s.cfg s.ldtr = some w ∧ w.base.toNat ≤ x ∧ x ≤ w.base.toNat + w.limit) ∨
  (∃ tr, s.tr = some tr ∧ tr.base.toNat ≤ x ∧ x ≤ tr.base.toNat + 103) ∨
  (∃ tr, s.tr = some tr ∧ gdtSlot s tr.sel ≤ x ∧ x ≤ gdtSlot s tr.sel + 7) ∨
  (∃ sel, InGdt s sel 8 ∧ drawnAsTss (s.mem.read8 (gdtSlot s sel)) ∧
    (tssAt s sel).base.toNat ≤ x ∧ x ≤ (tssAt s sel).base.toNat + 103)

/-- `LinearIsPhysical` over a run: either paging is off, or every byte of the structures the run touches is mapped, in every address space of the
run, to the memory address that is its linear address (R58, D5).  `phys c x` is where the page tables at the directory base `c` map the linear
address `x`, if anywhere; the address spaces are those of the CR3 values of the run.
DESIGN CHOICE (log 30): R110 says "mapped at the same linear address in every task's address space" and R58 "identity-mapped in both tasks'
address spaces"; the identity is taken, which meets both, and no other common map is accepted. -/
def LinearIsPhysical (phys : Word → Nat → Option Nat) (n : Nat) (s : State) : Prop :=
  s.cfg.pagingEnabled = false ∨
  ∀ j ≤ n, ∀ x, structureByte (advanceN j s) x → ∀ i ≤ n, phys (advanceN i s).cr3 x = some x

/-- The offer at the boundary `j` of a run: none beyond the end of the list (R96, log 7). -/
def offerAt (s : State) (j : Nat) : Option Event := s.offers.getD j none

/-- `EnvAssumption`: at every boundary, also beyond the end of the list, the offer is one the environment may make there (R96).
`may j o` says that it may offer `o` at the boundary `j`. -/
def EnvAssumption (may : Nat → Option Event → Prop) (s : State) : Prop := ∀ j, may j (offerAt s j)

/-- The environment assumption of a launch without interrupts, "often: none" (R96, R110). -/
def NoEvents (s : State) : Prop := ∀ o ∈ s.offers, o = none

end Sys2Proof.Machine
end

