-- ==== Sys2Proof/Certificates/Slice0/Obligations.lean ====
section
/-! DEFINITION. The statements for the provers.  Rule numbers are those of spec/; "log <n>" is notes/assumptions/<n>.md. -/

open Sys2Proof Sys2Proof.Machine

/-! ### Encodings (30_encoding.md) -/

/-- R63: the bytes the encoder gives an instruction decode to that instruction, whatever follows them. -/
def Obligations.DecodeOfEncodeIsTheInstruction : Prop :=
  ∀ (i : Instr) (rest : List Byte), i.wf = true → decode (encode i ++ rest) = .ok (i, rest)

/-- R66: bytes that decode at all are an encoding of R63 and nothing else, of the length R64 gives; no prefixed and no other form decodes. -/
def Obligations.OnlyEncodingsDecode : Prop :=
  ∀ (bs rest : List Byte) (i : Instr), decode bs = .ok (i, rest) → bs = encode i ++ rest ∧ (encode i).length = i.length

/-- R63: bytes written out from the table of the spec decode to the terms they stand for, and the left-out forms are refused; the names of
the reasons are the model's choice (log 2), the spec having the one name `NoInstruction`. -/
def Obligations.WrittenOutWordsDecode : Prop :=
  decode [0x0F, 0x00, 0xD8] = .ok (.ltr .eax, []) ∧
  decode [0x0F, 0x00, 0xDB] = .ok (.ltr .ebx, []) ∧
  decode [0x0F, 0x00, 0xDF] = .ok (.ltr .edi, []) ∧
  decode [0xEA, 0x78, 0x56, 0x34, 0x12, 0x30, 0x00] = .ok (.jmp 0x0030 0x12345678, []) ∧
  decode [0x9A, 0x00, 0x00, 0x00, 0x00, 0x38, 0x01] = .ok (.call 0x0138 0x00000000, []) ∧
  decode [0xCF, 0x90] = .ok (.iret, [0x90]) ∧
  decode [0x0F, 0x00, 0x18] = .error .ltrMemoryOperand ∧
  decode [0xFF, 0x2D] = .error .indirectFarTransfer ∧
  decode [0xFF, 0x1D] = .error .indirectFarTransfer ∧
  decode [0x66, 0xCF] = .error .operandSizePrefixed

/-! ### The step -/

/-- R60, R66, R96: when `code` has at (CS, EIP) what the decoder reads from some bytes, no event is offered there and the location is no stop,
the step is the meaning of the instruction those bytes decode to, in the state whose offer at this boundary is used up, and its length is that
of the bytes read (R63, R64).  That the decoder stands in a loader is log 1's choice, that the offer is used up log 7's. -/
def Obligations.StepRunsTheDecodedInstruction : Prop :=
  ∀ (s : State) (bs rest : List Byte) (i : Instr),
    s.outcome = .running → (∀ e os, s.offers ≠ some e :: os) → s.codeLoc ∉ s.cfg.stops →
    decode bs = .ok (i, rest) → s.code.lookup s.codeLoc = decodedEntry bs →
    step s = exec i { s with offers := s.offers.tail } ∧ bs.length = s.lenOf i + rest.length

/-- R60, R64, R96: the step runs the term that `code` has at (CS, EIP), with the length `code` gives it, whatever that length and whatever other
terms lie over it.  That the offer at this boundary is used up is log 7's choice. -/
def Obligations.StepRunsTheTermAtEip : Prop :=
  ∀ (s : State) (i : Instr) (len : Nat),
    s.outcome = .running → (∀ e os, s.offers ≠ some e :: os) → s.codeLoc ∉ s.cfg.stops →
    s.code.lookup s.codeLoc = some ⟨i, len⟩ →
    step s = exec i { s with offers := s.offers.tail } ∧ s.lenOf i = len

/-- R60, R66: loading bytes at a location leaves there what the decoder reads from them, with the length its encoding has, or nothing where it
reads no instruction; no other location changes, and the program text keeps its canonical form.  The loader is log 1's choice. -/
def Obligations.LoadingPutsTheDecodedTerm : Prop :=
  ∀ (c : CodeStore) (l : CodeLoc) (bs : List Byte), c.wf →
    (c.load l bs).wf ∧ (∀ l', l' ≠ l → (c.load l bs).lookup l' = c.lookup l') ∧
    (∀ i rest, decode bs = .ok (i, rest) → (c.load l bs).lookup l = some ⟨i, i.length⟩) ∧
    (∀ e, decode bs = .error e → (c.load l bs).lookup l = none)

/-- R60: "A location where `code` is undefined holds no in-scope instruction; reaching it ends the run in `refused(NoInstruction)`". -/
def Obligations.NoInstructionIsRefused : Prop :=
  ∀ (s : State),
    s.outcome = .running → (∀ e os, s.offers ≠ some e :: os) → s.codeLoc ∉ s.cfg.stops →
    s.code.lookup s.codeLoc = none → step s = .refused .noInstruction

/-- R11, R64: an instruction whose length does not leave room for `EIP + len` in 32 bits is refused as `AddressWrap` when its other checks pass,
and never goes on.  That an instruction is refused before its own effect is log 10's reading. -/
def Obligations.EipSumsAreNotWrapped : Prop :=
  (∀ (i : Instr) (s t : State), 2 ^ 32 ≤ s.eip.toNat + s.lenOf i → exec i s ≠ .next t) ∧
  (∀ (s : State) (sel tssSel : Sel) (off : Word), s.cfg.mode = .protectedMode → Reaches s sel tssSel →
    (2 ^ 32 ≤ s.eip.toNat + s.lenOf (.jmp sel off) → exec (.jmp sel off) s = .refused .addressWrap) ∧
    (2 ^ 32 ≤ s.eip.toNat + s.lenOf (.call sel off) → exec (.call sel off) s = .refused .addressWrap)) ∧
  (∀ (s : State) (tr : TaskReg), s.cfg.mode = .protectedMode → s.eflags.getLsbD 14 = true → s.tr = some tr →
    tr.base.toNat + 2 ≤ 2 ^ 32 → 2 ^ 32 ≤ s.eip.toNat + s.lenOf .iret → exec .iret s = .refused .addressWrap)

/-- R26: a faulted or refused state takes no further step, and its mark is never cleared; and, by the `advance` of log 9 (R93, R94), a step that
stops changes nothing but the mark. -/
def Obligations.StoppedRunsStayStopped : Prop :=
  (∀ (s : State) (n : Nat), s.outcome ≠ .running → advanceN n s = s ∧ ∀ t, step s ≠ .next t) ∧
  (∀ (s : State) (f : Fault), step s = .fault f → advance s = { s with outcome := .faulted f }) ∧
  (∀ (s : State) (r : Refusal), step s = .refused r → advance s = { s with outcome := .refused r })

/-- R113, with the two choices of log 8: a final state (running, at a stop, nothing offered) answers itself, for ever;
with an event offered at the stop the event is taken first. -/
def Obligations.FinalStatesStay : Prop :=
  (∀ (s : State) (n : Nat), Final s → step s = .next s ∧ advanceN n s = s) ∧
  (∀ (s t : State), step s = .next t → t.outcome = .running)

/-! ### Memory, selectors and descriptors (20_memory.md) -/

/-- R30: a value of 2, 4, 8 or 16 bytes is the sum of its bytes, the byte at the lowest address the least significant;
and a 2- or 4-byte write puts each byte where the read finds it and changes no other byte. -/
def Obligations.MemoryIsLittleEndian : Prop :=
  ∀ (m : Memory) (a x : Nat) (v : BitVec 16) (w : BitVec 32),
    (m.read2 a).toNat = (m.byte a).toNat + 256 * (m.byte (a + 1)).toNat ∧
    (m.read4 a).toNat = (m.read2 a).toNat + 2 ^ 16 * (m.read2 (a + 2)).toNat ∧
    (m.read8 a).toNat = (m.read4 a).toNat + 2 ^ 32 * (m.read4 (a + 4)).toNat ∧
    (m.read16 a).toNat = (m.read8 a).toNat + 2 ^ 64 * (m.read8 (a + 8)).toNat ∧
    (m.write2 a v).byte x = (if a ≤ x ∧ x < a + 2 then v.extractLsb' (8 * (x - a)) 8 else m.byte x) ∧
    (m.write4 a w).byte x = (if a ≤ x ∧ x < a + 4 then w.extractLsb' (8 * (x - a)) 8 else m.byte x)

/-- R49: a selector is its index, TI and RPL; the null selectors are the values 0 to 3, and they select no descriptor. -/
def Obligations.SelectorFormat : Prop :=
  (∀ sel : Sel, sel.toNat = 8 * selIndex sel + 4 * (selTI sel).toNat + (selRPL sel).toNat ∧ selIndex sel < 2 ^ 13) ∧
  (∀ sel : Sel, (selIndex sel = 0 ∧ selTI sel = false) ↔ sel.toNat ≤ 3) ∧
  (∀ (s : State) (sel : Sel) (n : Nat), sel.toNat ≤ 3 → descAddr s sel n = .error (.raise (.selectorNull sel)))

/-- R50, where no sum wraps (R9): the lookup of a selector in the GDT or the current LDT, and of a vector in the IDT. -/
def Obligations.DescriptorLookup : Prop :=
  (∀ (s : State) (sel : Sel) (n : Nat), (n = 8 ∨ n = 16) →
    s.cfg.gdtBase.toNat + s.cfg.gdtLimit.toNat < addrLimit s.cfg.mode →
    (∀ w, ldtWindowOf s.cfg s.ldtr = some w → w.base.toNat + w.limit < addrLimit s.cfg.mode) →
    descAddr s sel n =
      if selIndex sel = 0 ∧ selTI sel = false then .error (.raise (.selectorNull sel))
      else if selTI sel = false then
        (if 8 * selIndex sel + n - 1 > s.cfg.gdtLimit.toNat then .error (.raise (.selectorOutOfTable sel))
         else .ok (s.cfg.gdtBase.toNat + 8 * selIndex sel))
      else
        match ldtWindowOf s.cfg s.ldtr with
        | none => .error (.raise (.selectorOutOfTable sel))
        | some w =>
          if 8 * selIndex sel + n - 1 > w.limit then .error (.raise (.selectorOutOfTable sel))
          else .ok (w.base.toNat + 8 * selIndex sel)) ∧
  (∀ (s : State) (v : Nat), s.cfg.idtBase.toNat + s.cfg.idtLimit.toNat < addrLimit s.cfg.mode →
    idtAddr s v =
      if 8 * v + 7 > s.cfg.idtLimit.toNat then .error (.raise (.vectorOutOfTable v)) else .ok (s.cfg.idtBase.toNat + 8 * v))

/-- R46: `DecodeTss32` of `EncodeTss32` returns its arguments with S = 0, bits 54 and 53 zero and the type `10B1`;
the encoded value classifies as a TSS descriptor (R51), and stored at `a` it has the attribute byte `P, DPL, 0, 1, 0, B, 1` at `a + 5`. -/
def Obligations.TssDescriptorRoundTrip : Prop :=
  ∀ (base : Word) (limit : BitVec 20) (g avl p : Bool) (dpl : BitVec 2) (b : Bool) (m : Memory) (a : Nat),
    decodeTss32 (encodeTss32 base limit g avl p dpl b) =
      { base := base.setWidth 64, limit := limit, g := g, z54 := false, z53 := false, avl := avl, p := p, dpl := dpl, s := false,
        type := if b then 0b1011 else 0b1001, b := b, zero := 0 } ∧
    classify (encodeTss32 base limit g avl p dpl b) = .tss (decodeTss32 (encodeTss32 base limit g avl p dpl b)) ∧
    (m.read8 a = encodeTss32 base limit g avl p dpl b →
      m.byte (a + 5) = BitVec.ofBool p ++ dpl ++ 0#1 ++ 1#1 ++ 0#1 ++ BitVec.ofBool b ++ 1#1)

/-- R47, R59: `DecodeGate` of `EncodeGate` returns its arguments; two values that differ in reserved bits only decode alike. -/
def Obligations.TaskGateRoundTrip : Prop :=
  (∀ (sel : Sel) (p : Bool) (dpl : BitVec 2),
    decodeGate (encodeGate sel p dpl) = { p := p, dpl := dpl, s := false, type := 0b0101, tssSel := sel } ∧
    classify (encodeGate sel p dpl) = .gate (decodeGate (encodeGate sel p dpl))) ∧
  (∀ x y : BitVec 64, (∀ k, (16 ≤ k ∧ k < 32) ∨ (40 ≤ k ∧ k < 48) → x.getLsbD k = y.getLsbD k) → decodeGate x = decodeGate y)

/-- R43: the effective limit is the limit, or with G set the limit in units of 4096 bytes with the last byte of the last unit. -/
def Obligations.EffectiveLimit : Prop :=
  ∀ t : TssDesc, (effLimit t).toNat = if t.g then t.limit.toNat * 4096 + 4095 else t.limit.toNat

/-! ### LTR (40_ltr.md) -/

/-- R69, where no sum wraps: what LTR does in `Protected`, every fault in the order of the rule, and the whole next state. -/
def Obligations.LtrInProtectedMode : Prop :=
  ∀ (s : State) (r : Reg), s.cfg.mode = .protectedMode →
    s.cfg.gdtBase.toNat + s.cfg.gdtLimit.toNat < 2 ^ 32 → s.eip.toNat + s.lenOf (.ltr r) < 2 ^ 32 →
    let sel : Sel := (s.gprs.get r).extractLsb' 0 16
    let a := s.cfg.gdtBase.toNat + 8 * selIndex sel
    let d := s.mem.read8 a
    exec (.ltr r) s =
      if s.cpl ≠ 0 then .fault (.privilegeViolation none)
      else if selTI sel = true then .fault (.selectorNotGlobal sel)
      else if selIndex sel = 0 then .fault (.selectorNull sel)
      else if 8 * selIndex sel + 7 > s.cfg.gdtLimit.toNat then .fault (.selectorOutOfTable sel)
      else if ¬ (d.getLsbD 44 = false ∧ d.getLsbD 43 = true ∧ d.getLsbD 42 = false ∧ d.getLsbD 40 = true) then .fault (.notATss sel)
      else if d.getLsbD 54 = true ∨ d.getLsbD 53 = true then .refused .reservedBitSet
      else if d.getLsbD 41 = true then .fault (.taskBusy sel)
      else if d.getLsbD 47 = false then .fault (.notPresent (.selector sel))
      else .next { s with
        mem := s.mem.setByte (a + 5) (s.mem.byte (a + 5) ||| 0x02)
        tr := some { sel := sel
                     base := (d.extractLsb' 56 8 ++ d.extractLsb' 32 8 ++ d.extractLsb' 16 16).setWidth 64
                     limit := d.extractLsb' 48 4 ++ d.extractLsb' 0 16
                     attr := { g := d.getLsbD 55, avl := d.getLsbD 52, p := true, dpl := d.extractLsb' 45 2, type := 0b1011 } }
        eip := s.eip + BitVec.ofNat 32 (s.lenOf (.ltr r)) }

/-- R70, where no sum wraps: what LTR does in `Long64`, with the 16-byte descriptor. -/
def Obligations.LtrInLong64Mode : Prop :=
  ∀ (s : State) (r : Reg), s.cfg.mode = .long64 →
    s.cfg.gdtBase.toNat + s.cfg.gdtLimit.toNat < 2 ^ 64 → s.eip.toNat + s.lenOf (.ltr r) < 2 ^ 32 →
    let sel : Sel := (s.gprs.get r).extractLsb' 0 16
    let a := s.cfg.gdtBase.toNat + 8 * selIndex sel
    let d := s.mem.read16 a
    exec (.ltr r) s =
      if s.cpl ≠ 0 then .fault (.privilegeViolation none)
      else if selTI sel = true then .fault (.selectorNotGlobal sel)
      else if selIndex sel = 0 then .fault (.selectorNull sel)
      else if 8 * selIndex sel + 15 > s.cfg.gdtLimit.toNat then .fault (.selectorOutOfTable sel)
      else if ¬ (d.getLsbD 44 = false ∧ d.getLsbD 43 = true ∧ d.getLsbD 42 = false ∧ d.getLsbD 40 = true) then .fault (.notATss sel)
      else if d.getLsbD 54 = true ∨ d.getLsbD 53 = true then .refused .reservedBitSet
      else if d.extractLsb' 104 5 ≠ 0 then .fault (.notATss sel)
      else if d.getLsbD 41 = true then .fault (.taskBusy sel)
      else if d.getLsbD 47 = false then .fault (.notPresent (.selector sel))
      else .next { s with
        mem := s.mem.setByte (a + 5) (s.mem.byte (a + 5) ||| 0x02)
        tr := some { sel := sel
                     base := d.extractLsb' 64 32 ++ d.extractLsb' 56 8 ++ d.extractLsb' 32 8 ++ d.extractLsb' 16 16
                     limit := d.extractLsb' 48 4 ++ d.extractLsb' 0 16
                     attr := { g := d.getLsbD 55, avl := d.getLsbD 52, p := true, dpl := d.extractLsb' 45 2, type := 0b1011 } }
        eip := s.eip + BitVec.ofNat 32 (s.lenOf (.ltr r)) }

/-- R69, R70: when every check passes, LTR answers a next state in either mode; TR names the selector, EIP moves by the length,
the busy flag of the descriptor is set, no byte of memory but that one and no other register changes. -/
def Obligations.LtrCompletes : Prop :=
  ∀ (s : State) (r : Reg), (LtrReady s (s.gprs.low16 r) (s.lenOf (.ltr r)) ∨ LtrReady64 s (s.gprs.low16 r) (s.lenOf (.ltr r))) →
    ∃ t, exec (.ltr r) s = .next t ∧
      t.tr = some (taskRegOf (s.gprs.low16 r) (modeTssAt s (s.gprs.low16 r))) ∧ t.eip = s.eipAfter (.ltr r) ∧
      (t.mem.byte (gdtSlot s (s.gprs.low16 r) + 5)).getLsbD 1 = true ∧
      (∀ a, descAddr s (s.gprs.low16 r) (descSize s.cfg.mode) = .ok a → ∀ x, x ≠ a + 5 → t.mem.byte x = s.mem.byte x) ∧
      t.gprs = s.gprs ∧ t.eflags = s.eflags ∧ t.segs = s.segs ∧ t.cr3 = s.cr3 ∧ t.ldtr = s.ldtr ∧ t.ssp = s.ssp ∧ t.cpl = s.cpl ∧
      t.code = s.code ∧ t.cfg = s.cfg ∧ t.offers = s.offers ∧ t.outcome = s.outcome

/-- R9, R11 in LTR, at the places of log 10: a descriptor whose bytes do not fit the address width, and an EIP + len that does not fit 32 bits
when every other check passes,
are refused. -/
def Obligations.LtrSumsAreNotWrapped : Prop :=
  (∀ (s : State) (r : Reg), s.cpl = 0 → selTI (s.gprs.low16 r) = false → selIndex (s.gprs.low16 r) ≠ 0 →
    8 * selIndex (s.gprs.low16 r) + descSize s.cfg.mode - 1 ≤ s.cfg.gdtLimit.toNat →
    addrLimit s.cfg.mode < gdtSlot s (s.gprs.low16 r) + descSize s.cfg.mode →
    exec (.ltr r) s = .refused .addressWrap) ∧
  (∀ (s : State) (r : Reg),
    (LtrReady { s with eip := 0 } (s.gprs.low16 r) 0 ∨ LtrReady64 { s with eip := 0 } (s.gprs.low16 r) 0) →
    2 ^ 32 ≤ s.eip.toNat + s.lenOf (.ltr r) →
    exec (.ltr r) s = .refused .addressWrap)

/-! ### Reaching a task: JMP, CALL, events (41_task_dispatch.md) -/

/-- R79, where no sum wraps: how a JMP or CALL finds the TSS selector it goes to, with the access check of each kind of descriptor. -/
def Obligations.TargetResolution : Prop :=
  (∀ (s : State) (sel : Sel) (stop : Stop), descAddr s sel 8 = .error stop → resolveTarget s sel = .error stop) ∧
  ∀ (s : State) (sel : Sel) (a : Nat), descAddr s sel 8 = .ok a → a + 8 ≤ addrLimit s.cfg.mode →
    let d := s.mem.read8 a
    let dpl : BitVec 2 := d.extractLsb' 45 2
    resolveTarget s sel =
      if d.getLsbD 44 = false ∧ d.getLsbD 43 = true ∧ d.getLsbD 42 = false ∧ d.getLsbD 40 = true then
        if sel.getLsbD 2 = true then .error (.raise (.selectorNotGlobal sel))
        else if max s.cpl.toNat (selRPL sel).toNat > dpl.toNat then .error (.raise (.privilegeViolation (some sel)))
        else .ok sel
      else if d.getLsbD 44 = false ∧ d.extractLsb' 40 4 = 0b0101 then
        if max s.cpl.toNat (selRPL sel).toNat > dpl.toNat then .error (.raise (.privilegeViolation (some sel)))
        else if d.getLsbD 47 = false then .error (.raise (.notPresent (.selector sel)))
        else .ok (d.extractLsb' 16 16)
      else .error (.refuse .notATaskTransfer)

/-- R33: the ranges of a task switch are apart exactly when the outgoing TSS, the incoming TSS, the GDT, the IDT and the current LDT window, if there is
one, are pairwise disjoint as sets of addresses. -/
def Obligations.SeparatedMeansNoSharedByte : Prop :=
  ∀ (s : State) (ob nb : Nat),
    allApart (switchRanges s ob nb) = true ↔
      ([(ob, ob + 103), (nb, nb + 103), (s.cfg.gdtBase.toNat, s.cfg.gdtBase.toNat + s.cfg.gdtLimit.toNat),
        (s.cfg.idtBase.toNat, s.cfg.idtBase.toNat + s.cfg.idtLimit.toNat)]
        ++ ((ldtWindowOf s.cfg s.ldtr).map fun w => (w.base.toNat, w.base.toNat + w.limit)).toList).Pairwise
        fun r q => ∀ x, r.1 ≤ x → x ≤ r.2 → ¬ (q.1 ≤ x ∧ x ≤ q.2)

/-- R81, where no sum wraps: every check of the incoming task in the order of the rule, and what the checks answer. -/
def Obligations.IncomingTaskIsChecked : Prop :=
  ∀ (k : DispatchKind) (tssSel : Sel) (tr : TaskReg) (s : State), s.cfg.mode = .protectedMode →
    s.cfg.gdtBase.toNat + s.cfg.gdtLimit.toNat < 2 ^ 32 →
    let a := s.cfg.gdtBase.toNat + 8 * selIndex tssSel
    let d := s.mem.read8 a
    let limit := (d.extractLsb' 48 4 ++ d.extractLsb' 0 16).toNat
    let nb := (d.extractLsb' 56 8 ++ d.extractLsb' 32 8 ++ d.extractLsb' 16 16).toNat
    (∀ r ∈ switchRanges s tr.base.toNat nb, r.2 < 2 ^ 32) →
    checkIncoming k tssSel tr s =
      if tssSel.getLsbD 2 = true then .error (.raise (.selectorNotGlobal tssSel))
      else if selIndex tssSel = 0 then .error (.raise (.selectorNull tssSel))
      else if 8 * selIndex tssSel + 7 > s.cfg.gdtLimit.toNat then .error (.raise (.selectorOutOfTable tssSel))
      else if ¬ (d.getLsbD 44 = false ∧ d.getLsbD 43 = true ∧ d.getLsbD 42 = false ∧ d.getLsbD 40 = true) then
        .error (.raise (.notATss tssSel))
      else if d.getLsbD 54 = true ∨ d.getLsbD 53 = true then .error (.refuse .reservedBitSet)
      else if k = .iret ∧ d.getLsbD 41 = false then .error (.raise (.taskNotBusy tssSel))
      else if k ≠ .iret ∧ d.getLsbD 41 = true then .error (.raise (.taskBusy tssSel))
      else if d.getLsbD 47 = false then .error (.raise (.notPresent (.selector tssSel)))
      else if (if d.getLsbD 55 = true then limit * 4096 + 4095 else limit) < 103 then .error (.raise (.tssTooSmall tssSel))
      else if selIndex tssSel = selIndex tr.sel then .error (.refuse .selfSwitch)
      else if allApart (switchRanges s tr.base.toNat nb) = false then .error (.refuse .structuresOverlap)
      else if (s.mem.read2 (nb + 100)).getLsbD 0 = true then .error (.refuse .debugTrapUnmodelled)
      else .ok (a, decodeTss32 d)

/-- R74: a JMP whose target resolves and whose task switch is ready answers a next state in the incoming task. -/
def Obligations.JmpCompletes : Prop :=
  ∀ (s : State) (sel : Sel) (off : Word) (tssSel : Sel) (tr : TaskReg),
    s.cfg.mode = .protectedMode → s.eip.toNat + s.lenOf (.jmp sel off) < 2 ^ 32 → Reaches s sel tssSel → SwitchReady .jmp tssSel tr s →
    ∃ t, exec (.jmp sel off) s = .next t ∧ t.tr = some (taskRegOf tssSel (tssAt s tssSel)) ∧
      t.eip = t.mem.read4 ((tssAt s tssSel).base.toNat + 32) ∧ t.segs.cs = t.mem.read2 ((tssAt s tssSel).base.toNat + 76)

/-- R75: a CALL whose target resolves and whose task switch is ready answers a next state in the incoming task, nested. -/
def Obligations.CallCompletes : Prop :=
  ∀ (s : State) (sel : Sel) (off : Word) (tssSel : Sel) (tr : TaskReg),
    s.cfg.mode = .protectedMode → s.eip.toNat + s.lenOf (.call sel off) < 2 ^ 32 → Reaches s sel tssSel → SwitchReady .call tssSel tr s →
    ∃ t, exec (.call sel off) s = .next t ∧ t.tr = some (taskRegOf tssSel (tssAt s tssSel)) ∧
      t.eip = t.mem.read4 ((tssAt s tssSel).base.toNat + 32) ∧ t.segs.cs = t.mem.read2 ((tssAt s tssSel).base.toNat + 76) ∧
      ntFlag t.eflags = true ∧ t.mem.read2 (tssAt s tssSel).base.toNat = tr.sel

/-- R76: an IRET with NT set whose task switch to the Previous Task Link is ready answers a next state in that task. -/
def Obligations.IretCompletes : Prop :=
  ∀ (s : State) (tr : TaskReg),
    s.cfg.mode = .protectedMode → s.eip.toNat + s.lenOf .iret < 2 ^ 32 → ntFlag s.eflags = true →
    SwitchReady .iret (s.mem.read2 tr.base.toNat) tr s →
    ∃ t, exec .iret s = .next t ∧
      t.tr = some (taskRegOf (s.mem.read2 tr.base.toNat) (tssAt s (s.mem.read2 tr.base.toNat))) ∧
      t.eip = t.mem.read4 ((tssAt s (s.mem.read2 tr.base.toNat)).base.toNat + 32) ∧
      t.segs.cs = t.mem.read2 ((tssAt s (s.mem.read2 tr.base.toNat)).base.toNat + 76)

/-- R77, R78, R98: an event offered at the boundary is taken before the instruction there; through a present task gate in the IDT to a task
whose switch is ready, the step answers a next state in the handler task, nested, whatever the gate's DPL and the CPL.  At a location in `stops`
the event comes first by log 8's choice; that the offer is used up is log 7's. -/
def Obligations.EventsAreTaken : Prop :=
  ∀ (s : State) (e : Event) (os : List (Option Event)) (tssSel : Sel) (tr : TaskReg),
    s.outcome = .running → s.offers = some e :: os → s.cfg.mode = .protectedMode → e.deliverable s.cfg = true →
    GateInIdt s e.vector tssSel → SwitchReady .int tssSel tr s →
    ∃ t, step s = .next t ∧ t.offers = os ∧ t.tr = some (taskRegOf tssSel (tssAt s tssSel)) ∧
      t.eip = t.mem.read4 ((tssAt s tssSel).base.toNat + 32) ∧ ntFlag t.eflags = true ∧
      t.mem.read4 (tr.base.toNat + 32) = s.eip

/-- R77 and R78, where no sum wraps: everything an interrupt or an exception offered at a boundary does up to the task switch of kind INT. -/
def Obligations.EventDispatch : Prop :=
  (∀ (s : State) (v : Nat), s.cfg.idtBase.toNat + s.cfg.idtLimit.toNat < addrLimit s.cfg.mode →
    let d := s.mem.read8 (s.cfg.idtBase.toNat + 8 * v)
    takeEvent (.interrupt v) s =
      if s.cfg.mode = .long64 then .error (.refuse .longModeTransfer)
      else if 8 * v + 7 > s.cfg.idtLimit.toNat then .error (.raise (.vectorOutOfTable v))
      else if d.getLsbD 44 = false ∧ d.extractLsb' 40 4 = 0b0101 then
        if d.getLsbD 47 = false then .error (.raise (.notPresent (.vector v)))
        else taskSwitch .int (d.extractLsb' 16 16) s.eip s
      else if d.getLsbD 44 = false ∧ d.getLsbD 43 = true ∧ d.getLsbD 42 = false ∧ d.getLsbD 40 = true then
        .error (.raise (.invalidIdtEntry v))
      else .error (.refuse .notATaskTransfer)) ∧
  (∀ (s : State) (v : Nat),
    takeEvent (.exception v) s = if v ∈ s.cfg.errorVectors then .error (.refuse .errorCodeUnmodelled) else takeEvent (.interrupt v) s)

/-- R88: a JMP, a CALL or an event that reaches a task whose descriptor is busy raises `TaskBusy`: tasks are not recursive. -/
def Obligations.BusyTasksAreNotReentered : Prop :=
  ∀ (s : State) (tssSel : Sel) (tr : TaskReg),
    s.cfg.mode = .protectedMode → s.tr = some tr → s.cfg.shadowStackEnabled = false → InGdt s tssSel 8 →
    drawnAsTss (s.mem.read8 (gdtSlot s tssSel)) → (tssAt s tssSel).z54 = false → (tssAt s tssSel).z53 = false →
    (tssAt s tssSel).b = true →
    (∀ sel off, Reaches s sel tssSel →
      (s.eip.toNat + s.lenOf (.jmp sel off) < 2 ^ 32 → exec (.jmp sel off) s = .fault (.taskBusy tssSel)) ∧
      (s.eip.toNat + s.lenOf (.call sel off) < 2 ^ 32 → exec (.call sel off) s = .fault (.taskBusy tssSel))) ∧
    (∀ e : Event, e.deliverable s.cfg = true → GateInIdt s e.vector tssSel → takeEvent e s = .error (.raise (.taskBusy tssSel)))

/-- R79: "when a task gate is used, the DPL of the destination TSS descriptor is not used".  A JMP or CALL through a gate that completes still
completes when the DPL bits (46:45, bits 6 and 5 of byte 5) of the destination's TSS descriptor are changed at will. -/
def Obligations.GateHidesTheTssDpl : Prop :=
  ∀ (s : State) (sel : Sel) (off : Word) (a : Nat) (tr : TaskReg) (k : DispatchKind) (b : Byte),
    let tssSel := (s.mem.read8 a).extractLsb' 16 16
    let s' : State := { s with mem := s.mem.setByte (gdtSlot s tssSel + 5) b }
    let i : Instr := if k = .jmp then .jmp sel off else .call sel off
    (k = .jmp ∨ k = .call) →
    (InGdt s sel 8 ∧ a = gdtSlot s sel) ∨ InLdt s sel a → drawnAsGate (s.mem.read8 a) → Reaches s sel tssSel → SwitchReady k tssSel tr s →
    s.cfg.mode = .protectedMode → s.eip.toNat + s.lenOf i < 2 ^ 32 →
    (∀ j, j < 8 → j ≠ 5 → j ≠ 6 → b.getLsbD j = (s.mem.byte (gdtSlot s tssSel + 5)).getLsbD j) →
    ∃ t, exec i s' = .next t

/-- R91: in 64-bit mode JMP, CALL, IRET and interrupts are refused. -/
def Obligations.NoTaskSwitchInLong64 : Prop :=
  ∀ (s : State), s.cfg.mode = .long64 →
    (∀ sel off, exec (.jmp sel off) s = .refused .longModeTransfer ∧ exec (.call sel off) s = .refused .longModeTransfer) ∧
    exec .iret s = .refused .longModeTransfer ∧
    (∀ e : Event, e.deliverable s.cfg = true → takeEvent e s = .error (.refuse .longModeTransfer)) ∧
    (∀ k next t, ¬ SwitchRun k next s t)

/-- R91 as a rule of the whole machine: a step in 64-bit mode that goes on, other than resting at a stop, is LTR, at CPL 0; it leaves the
general registers, EFLAGS, segment registers, CR3, LDTR, SSP and CPL as they were, and of memory it changes at most one byte. -/
def Obligations.Long64StepsAreLtr : Prop :=
  ∀ (s t : State), s.cfg.mode = .long64 → ¬ Final s → step s = .next t →
    (∃ r, actionOf s = .instr (.ltr r) ∧ t.eip = s.eipAfter (.ltr r) ∧ t.tr = some (taskRegOf (s.gprs.low16 r) (modeTssAt s (s.gprs.low16 r))) ∧
      ∀ x, x ≠ gdtSlot s (s.gprs.low16 r) + 5 → t.mem.byte x = s.mem.byte x) ∧
    s.cpl = 0 ∧ t.gprs = s.gprs ∧ t.eflags = s.eflags ∧ t.segs = s.segs ∧ t.cr3 = s.cr3 ∧ t.ldtr = s.ldtr ∧ t.ssp = s.ssp ∧
    t.cpl = s.cpl

/-- R76, R90: the refusals of IRET in `Protected`: NT clear, and with NT set a task register never loaded. -/
def Obligations.IretNeedsNtAndTr : Prop :=
  (∀ s : State, s.cfg.mode = .protectedMode → s.eflags.getLsbD 14 = false → exec .iret s = .refused .iretWithoutNT) ∧
  (∀ s : State, s.cfg.mode = .protectedMode → s.eflags.getLsbD 14 = true → s.tr = none → exec .iret s = .refused .trNotLoaded)

/-- R90: `TrNotLoaded` for "a task switch or IRET with `TR = none`", and `ShadowStackUnmodelled` for "any task switch with `shadowStackEnabled`":
the switch itself, and a JMP, a CALL and an event that reach a task, whatever task that is. -/
def Obligations.SwitchesNeedTrAndNoShadowStack : Prop :=
  ∀ (s : State) (stop : Refusal), (s.tr = none ∧ stop = .trNotLoaded) ∨ (s.tr ≠ none ∧ s.cfg.shadowStackEnabled = true ∧ stop = .shadowStackUnmodelled) →
    (∀ k tssSel next, taskSwitch k tssSel next s = .error (.refuse stop)) ∧
    (s.cfg.mode = .protectedMode →
      (∀ sel off tssSel, Reaches s sel tssSel →
        (s.eip.toNat + s.lenOf (.jmp sel off) < 2 ^ 32 → exec (.jmp sel off) s = .refused stop) ∧
        (s.eip.toNat + s.lenOf (.call sel off) < 2 ^ 32 → exec (.call sel off) s = .refused stop)) ∧
      (∀ (e : Event) tssSel, e.deliverable s.cfg = true → GateInIdt s e.vector tssSel → takeEvent e s = .error (.refuse stop)) ∧
      (s.eflags.getLsbD 14 = true → (∀ tr, s.tr = some tr → tr.base.toNat + 2 ≤ 2 ^ 32) → s.eip.toNat + s.lenOf .iret < 2 ^ 32 →
        exec .iret s = .refused stop))

/-- R81, R83: an IRET to a task that is not busy raises `TaskNotBusy`. -/
def Obligations.IretNeedsABusyTask : Prop :=
  ∀ (s : State) (tr : TaskReg), s.cfg.mode = .protectedMode → s.eip.toNat + s.lenOf .iret < 2 ^ 32 → s.eflags.getLsbD 14 = true → s.tr = some tr →
    tr.base.toNat + 2 ≤ 2 ^ 32 → s.cfg.shadowStackEnabled = false →
    let link := s.mem.read2 tr.base.toNat
    InGdt s link 8 → drawnAsTss (s.mem.read8 (gdtSlot s link)) → (tssAt s link).z54 = false → (tssAt s link).z53 = false →
    (tssAt s link).b = false → exec .iret s = .fault (.taskNotBusy link)

/-! ### The task switch (41_task_dispatch.md) -/

/-- R82: what a switch saves in the outgoing TSS; every other byte of its 104 bytes is left as it was, and so is each byte of the SSP row above them
(offsets 104 to 107, beyond what R33 keeps apart) that is no busy byte and no byte of the incoming link. -/
def Obligations.OutgoingContextIsSaved : Prop :=
  ∀ (k : DispatchKind) (next : Word) (s t : State), Invariant s → SwitchRun k next s t →
    ∃ tr, s.tr = some tr ∧
      let ob := tr.base.toNat
      t.mem.read4 (ob + 32) = next ∧
      t.mem.read4 (ob + 36) = (if k = .iret then s.eflags &&& ~~~0x00004000 else s.eflags) ∧
      t.mem.read4 (ob + 40) = s.gprs.eax ∧ t.mem.read4 (ob + 44) = s.gprs.ecx ∧ t.mem.read4 (ob + 48) = s.gprs.edx ∧
      t.mem.read4 (ob + 52) = s.gprs.ebx ∧ t.mem.read4 (ob + 56) = s.gprs.esp ∧ t.mem.read4 (ob + 60) = s.gprs.ebp ∧
      t.mem.read4 (ob + 64) = s.gprs.esi ∧ t.mem.read4 (ob + 68) = s.gprs.edi ∧
      t.mem.read2 (ob + 72) = s.segs.es ∧ t.mem.read2 (ob + 76) = s.segs.cs ∧ t.mem.read2 (ob + 80) = s.segs.ss ∧
      t.mem.read2 (ob + 84) = s.segs.ds ∧ t.mem.read2 (ob + 88) = s.segs.fs ∧ t.mem.read2 (ob + 92) = s.segs.gs ∧
      (∀ x, ob ≤ x → x ≤ ob + 103 → ¬ dynamicByte ob x → t.mem.byte x = s.mem.byte x) ∧
      (∀ v x, t.tr = some v → ob + 104 ≤ x → x ≤ ob + 107 → ¬ linkOrBusyByte k s tr v x → t.mem.byte x = s.mem.byte x)

/-- R84: what a switch loads, from the incoming TSS as it stands after the writes; and SSP is not loaded. -/
def Obligations.IncomingContextIsLoaded : Prop :=
  ∀ (k : DispatchKind) (next : Word) (s t : State), SwitchRun k next s t →
    ∃ v, t.tr = some v ∧
      let nb := v.base.toNat
      let m := t.mem
      t.cr3 = (if s.cfg.pagingEnabled then m.read4 (nb + 28) else s.cr3) ∧
      t.ldtr = m.read2 (nb + 96) ∧
      t.eflags = (if k = .call ∨ k = .int then m.read4 (nb + 36) ||| 0x00004000 else m.read4 (nb + 36)) ∧
      t.eip = m.read4 (nb + 32) ∧
      t.gprs = { eax := m.read4 (nb + 40), ecx := m.read4 (nb + 44), edx := m.read4 (nb + 48), ebx := m.read4 (nb + 52),
                 esp := m.read4 (nb + 56), ebp := m.read4 (nb + 60), esi := m.read4 (nb + 64), edi := m.read4 (nb + 68) } ∧
      t.segs = { es := m.read2 (nb + 72), cs := m.read2 (nb + 76), ss := m.read2 (nb + 80), ds := m.read2 (nb + 84),
                 fs := m.read2 (nb + 88), gs := m.read2 (nb + 92) } ∧
      t.cpl = t.segs.cs.extractLsb' 0 2 ∧ t.ssp = s.ssp

/-- R83: the table of busy flags, NT and link, by kind. -/
def Obligations.BusyNtAndLinkTable : Prop :=
  ∀ (k : DispatchKind) (next : Word) (s t : State), Invariant s → SwitchRun k next s t →
    ∃ tr v, s.tr = some tr ∧ t.tr = some v ∧
      ((s.mem.read8 (gdtSlot s v.sel)).getLsbD 41 = decide (k = .iret) ∧ (t.mem.read8 (gdtSlot s v.sel)).getLsbD 41 = true) ∧
      (t.mem.read8 (gdtSlot s tr.sel)).getLsbD 41 = decide (k = .call ∨ k = .int) ∧
      (t.eflags.getLsbD 14 = (decide (k = .call ∨ k = .int) || (s.mem.read4 (v.base.toNat + 36)).getLsbD 14)) ∧
      ((t.mem.read4 (tr.base.toNat + 36)).getLsbD 14 = (s.eflags.getLsbD 14 && decide (k ≠ .iret))) ∧
      t.mem.read2 v.base.toNat = (if k = .call ∨ k = .int then tr.sel else s.mem.read2 v.base.toNat) ∧
      t.mem.read2 tr.base.toNat = s.mem.read2 tr.base.toNat

/-- R85: TR after a switch is the selector of the incoming task and its descriptor's base, limit and attributes, with the busy type for every
kind; and TR is never saved: the outgoing TSS receives the dynamic fields of R82 alone. -/
def Obligations.TaskRegisterAfterSwitch : Prop :=
  ∀ (k : DispatchKind) (next : Word) (s t : State), Invariant s → SwitchRun k next s t →
    (∃ v, t.tr = some v ∧
      let d := s.mem.read8 (s.cfg.gdtBase.toNat + 8 * selIndex v.sel)
      v = { sel := v.sel
            base := (d.extractLsb' 56 8 ++ d.extractLsb' 32 8 ++ d.extractLsb' 16 16).setWidth 64
            limit := d.extractLsb' 48 4 ++ d.extractLsb' 0 16
            attr := { g := d.getLsbD 55, avl := d.getLsbD 52, p := true, dpl := d.extractLsb' 45 2, type := 0b1011 } }) ∧
    (∀ sel off, k = .jmp ∨ k = .call → exec (if k = .jmp then .jmp sel off else .call sel off) s = .next t →
      ∃ v, t.tr = some v ∧ Reaches s sel v.sel) ∧
    (∀ tr x, s.tr = some tr → tr.base.toNat ≤ x → x ≤ tr.base.toNat + 103 → ¬ dynamicByte tr.base.toNat x → t.mem.byte x = s.mem.byte x)

/-- R86: CR3 is loaded from the incoming TSS when paging is enabled and left alone when not; it is never saved to the outgoing TSS. -/
def Obligations.Cr3OnSwitch : Prop :=
  ∀ (k : DispatchKind) (next : Word) (s t : State), Invariant s → SwitchRun k next s t →
    ∃ tr v, s.tr = some tr ∧ t.tr = some v ∧
      (s.cfg.pagingEnabled = true → t.cr3 = s.mem.read4 (v.base.toNat + 28)) ∧
      (s.cfg.pagingEnabled = false → t.cr3 = s.cr3) ∧
      t.mem.read4 (tr.base.toNat + 28) = s.mem.read4 (tr.base.toNat + 28)

/-- R80, R89: the frame of every task switch (JMP, CALL, IRET, interrupt, exception).  No byte of memory changes but the outgoing TSS's dynamic
fields, the busy byte of the outgoing descriptor (JMP, IRET), the busy byte of the incoming one (not IRET) and the incoming link (CALL, INT);
SSP, the program text, the parameters, the offers and the outcome mark stay; CR3 stays when paging is off.  The general registers, EIP, EFLAGS,
segment registers, LDTR, CPL and TR are all destinations of a switch. -/
def Obligations.SwitchFrame : Prop :=
  ∀ (k : DispatchKind) (next : Word) (s t : State), SwitchRun k next s t →
    ∃ tr v, s.tr = some tr ∧ t.tr = some v ∧ (∀ x, ¬ switchWrites k s tr v x → t.mem.byte x = s.mem.byte x) ∧
      t.ssp = s.ssp ∧ t.code = s.code ∧ t.cfg = s.cfg ∧ t.offers = s.offers ∧ t.outcome = s.outcome ∧
      (s.cfg.pagingEnabled = false → t.cr3 = s.cr3)

/-- R37, R89: the static fields of a TSS (ESP0 to SS2, CR3, LDT selector, T, I/O map base, SSP) are never written by a switch, neither in the outgoing
nor in the incoming TSS.  The SSP row lies beyond the 104 bytes that R33 keeps apart from the other structures, so for SSP the claim is that
it is unchanged where none of its four bytes is a busy byte or a byte of the incoming link. -/
def Obligations.StaticTssFieldsAreKept : Prop :=
  ∀ (k : DispatchKind) (next : Word) (s t : State), Invariant s → SwitchRun k next s t →
    ∃ tr v, s.tr = some tr ∧ t.tr = some v ∧ ∀ base, base = tr.base.toNat ∨ base = v.base.toNat →
      (∀ f ∈ [Tss32Field.esp0, .ss0, .esp1, .ss1, .esp2, .ss2, .cr3, .ldt, .t, .ioMap],
        readTss32 t.mem base f = readTss32 s.mem base f) ∧
      ((∀ x, base + 104 ≤ x → x ≤ base + 107 → ¬ linkOrBusyByte k s tr v x) → readTss32 t.mem base .ssp = readTss32 s.mem base .ssp)

/-- R87: a task switched out and later switched in finds its general registers, segment selectors and EIP as saved, and EFLAGS but for NT,
provided its TSS is as the switch left it: `u` is any state in which the TSS reads as in `t`, and `w` the state after a switch to that TSS.
That the other bits of EFLAGS are plain data is log 19. -/
def Obligations.ResumedTaskFindsItsContext : Prop :=
  ∀ (k l : DispatchKind) (next next' : Word) (s t u w : State) (tr v : TaskReg),
    SwitchRun k next s t → s.tr = some tr → (∀ x, tr.base.toNat ≤ x → x ≤ tr.base.toNat + 103 → u.mem.byte x = t.mem.byte x) →
    Invariant u → SwitchRun l next' u w → w.tr = some v → v.base = tr.base →
    w.gprs = s.gprs ∧ w.segs = s.segs ∧ w.eip = next ∧ ∀ i, i ≠ 14 → w.eflags.getLsbD i = s.eflags.getLsbD i

/-- R75, R76, R99, R100: a called or interrupt-handler task that returns at once by IRET gives the calling task its registers, selectors, EIP (after the
CALL or at the interrupted boundary), EFLAGS with its own NT, CPL and TR back, SSP being untouched; LDTR and CR3 (with paging) are those of the static
fields of its TSS (R37); the callee's descriptor is available again, its saved NT is clear, and the caller's descriptor is still busy.
That the bits of EFLAGS other than NT are plain data is log 19. -/
def Obligations.NestedDispatchReturns : Prop :=
  ∀ (k : DispatchKind) (next : Word) (s t u : State), (k = .call ∨ k = .int) → Invariant s →
    SwitchRun k next s t → exec .iret t = .next u →
    u.gprs = s.gprs ∧ u.segs = s.segs ∧ u.eip = next ∧ u.eflags = s.eflags ∧ u.cpl = s.cpl ∧ u.tr = s.tr ∧ u.ssp = s.ssp ∧
    ∃ tr v, s.tr = some tr ∧ t.tr = some v ∧
      u.ldtr = s.mem.read2 (tr.base.toNat + 96) ∧
      u.cr3 = (if s.cfg.pagingEnabled then s.mem.read4 (tr.base.toNat + 28) else s.cr3) ∧
      (u.mem.read8 (gdtSlot s v.sel)).getLsbD 41 = false ∧ (u.mem.read8 (gdtSlot s tr.sel)).getLsbD 41 = true ∧
      (u.mem.read4 (v.base.toNat + 36)).getLsbD 14 = false ∧ u.mem.read4 (v.base.toNat + 32) = t.eipAfter .iret

/-- R109: the order of initialisation suffices.  From a state in which LTR of the initial task is ready, and a JMP to a second task would be ready
with that task register, LTR and then JMP complete, and the second task begins at the EIP in its TSS. -/
def Obligations.BootThenFirstSwitch : Prop :=
  ∀ (s : State) (r : Reg) (sel : Sel) (off : Word),
    let tr := taskRegOf (s.gprs.low16 r) (tssAt s (s.gprs.low16 r))
    let s' : State := { s with eip := s.eipAfter (.ltr r) }
    LtrReady s (s.gprs.low16 r) (s.lenOf (.ltr r)) → s'.eip.toNat + s'.lenOf (.jmp sel off) < 2 ^ 32 →
    SwitchReady .jmp sel tr { s with tr := some tr } →
    (selRPL sel).toNat ≤ ((s.mem.read8 (gdtSlot s sel)).extractLsb' 45 2).toNat →
    ∃ t u, exec (.ltr r) s = .next t ∧ exec (.jmp sel off) t = .next u ∧ u.tr = some (taskRegOf sel (tssAt s sel)) ∧
      u.eip = s.mem.read4 ((tssAt s sel).base.toNat + 32) ∧
      u.mem.read4 (tr.base.toNat + 32) = s'.eipAfter (.jmp sel off)

/-! ### Rules of the whole machine -/

/-- R28, R19, R16, R42: every step that goes on keeps the invariant: memory canonical and within the address width, CPL that of CS, and the task
register a true copy of its task's present and busy descriptor. -/
def Obligations.StepKeepsTheInvariant : Prop :=
  ∀ s t : State, Invariant s → step s = .next t → Invariant t

/-- The invariant at `State.reset`, whose values are the model's choice (log 4, log 5, log 6). -/
def Obligations.ResetMeetsTheInvariant : Prop := Invariant State.reset

/-- R25, R24, R110: no instruction and no event changes a parameter or the program text. -/
def Obligations.ParametersNeverChange : Prop :=
  (∀ (i : Instr) (s t : State), exec i s = .next t → t.cfg = s.cfg ∧ t.code = s.code) ∧
  (∀ (s : State) (n : Nat), (advanceN n s).cfg = s.cfg ∧ (advanceN n s).code = s.code)

/-- R110, R55, R69, R80: a step changes no byte but those it writes: the busy byte of LTR, or the bytes of its task switch. -/
def Obligations.StepsWriteOnlyTheirBytes : Prop :=
  ∀ (s t : State) (x : Nat), step s = .next t → ¬ stepWrites s x → t.mem.byte x = s.mem.byte x

/-- R58, R110: what a run touches, of which `LinearIsPhysical` speaks, is the structures.  Every byte a step writes is a byte of a structure of its
state, and no step depends on any other byte: with another memory that reads alike on the structures, it stops as it stopped, or goes on to the
same state but for memory, in which every byte that read alike still does.
That these are the structures is log 29's choice. -/
def Obligations.StepsTouchOnlyStructures : Prop :=
  (∀ (s : State) (x : Nat), stepWrites s x → structureByte s x) ∧
  (∀ (s : State) (m : Memory), (∀ x, structureByte s x → m.byte x = s.mem.byte x) →
    (∀ f, step s = .fault f → step { s with mem := m } = .fault f) ∧
    (∀ r, step s = .refused r → step { s with mem := m } = .refused r) ∧
    (∀ t, step s = .next t → ∃ u, step { s with mem := m } = .next { t with mem := u } ∧
      ∀ x, m.byte x = s.mem.byte x → u.byte x = t.mem.byte x))

/-- R55, R110: under `CodeFixed` the bytes under the program are the same at every boundary of the run, wherever the code lies in memory. -/
def Obligations.CodeFixedKeepsTheProgram : Prop :=
  ∀ (lin : CodeLoc → Nat) (n : Nat) (s : State), CodeFixed lin n s →
    ∀ j ≤ n, (advanceN j s).code = s.code ∧ ∀ c ∈ s.code, ∀ i < c.2.len, (advanceN j s).mem.byte (lin c.1 + i) = s.mem.byte (lin c.1 + i)

/-- R110: of the launch premises, `ModeFixed`, `TablesFixed`, the first half of `CodeFixed` and `NoOtherWriters` hold of every run of the model,
`LinearIsPhysical` holds of every launch with paging off, and the launches with no event are those that meet the environment assumption 'none';
an environment assumption speaks of every boundary, those beyond the end of the list of offers among them (log 7). -/
def Obligations.PremisesTheModelMeets : Prop :=
  ∀ (n : Nat) (s : State), ModeFixed n s ∧ TablesFixed n s ∧ (∀ j ≤ n, (advanceN j s).code = s.code) ∧
    NoOtherWriters (fun j => advanceN j s) n ∧
    (s.cfg.pagingEnabled = false → ∀ phys, LinearIsPhysical phys n s) ∧
    (NoEvents s ↔ EnvAssumption (fun _ o => o = none) s) ∧
    (∀ may, EnvAssumption may s → ∀ j, s.offers.length ≤ j → may j none)

/-- R18: no rule reads or writes SSP: with another SSP every step is the same step, with that SSP; and with shadow stacks enabled no task switch
goes on, a loaded TR being refused as `ShadowStackUnmodelled`. -/
def Obligations.SspIsInert : Prop :=
  (∀ (s : State) (x : Word),
    step { s with ssp := x } = match step s with
      | .next t => .next { t with ssp := x }
      | .fault f => .fault f
      | .refused r => .refused r) ∧
  (∀ s t : State, step s = .next t → t.ssp = s.ssp) ∧
  (∀ (s : State) (k : DispatchKind) (sel : Sel) (next : Word), s.cfg.shadowStackEnabled = true → s.tr ≠ none →
    taskSwitch k sel next s = .error (.refuse .shadowStackUnmodelled))

/-- R101: the CPL changes only by a task switch that loads a CS selector of another level: a step after which the CPL differs is a switch,
and the new CPL is in the CS selector of the incoming TSS. -/
def Obligations.CplChangesOnlyBySwitch : Prop :=
  ∀ s t : State, Invariant s → step s = .next t → t.cpl ≠ s.cpl →
    (∃ k next, SwitchRun k next { s with offers := s.offers.tail } t) ∧
    ∃ v, t.tr = some v ∧ t.cpl = (s.mem.read2 (v.base.toNat + 76)).extractLsb' 0 2

/-- R69, R101 (a): "LTR is a privileged instruction that may be executed only when the CPL is 0", in either mode, on any operand. -/
def Obligations.LtrIsPrivileged : Prop :=
  ∀ (s : State) (r : Reg), s.cpl ≠ 0 → exec (.ltr r) s = .fault (.privilegeViolation none)

/-- R90: a switch to the task's own TSS is reachable only by IRET: in a state that meets the invariant, neither JMP nor CALL nor an event is
refused as `SelfSwitch`. -/
def Obligations.SelfSwitchOnlyByIret : Prop :=
  ∀ s : State, Invariant s →
    (∀ sel off, exec (.jmp sel off) s ≠ .refused .selfSwitch ∧ exec (.call sel off) s ≠ .refused .selfSwitch) ∧
    (∀ e : Event, takeEvent e s ≠ .error (.refuse .selfSwitch))
end

