-- ==== Sys2Proof/Laws/Memory.lean ====
section
/-! SUPPORT. The laws of the linear memory: read after write, what a write leaves alone, and the canonical form (R28, R30, R32). -/

namespace Sys2Proof.Machine

/-! ### One byte -/

theorem Memory.byte_insertByte (m : Memory) (a x : Nat) (b : Byte) :
    (m.insertByte a b).byte x = if x = a then b else m.byte x := by
  induction m with
  | nil => simp [Memory.insertByte, Memory.byte, eq_comm]
  | cons c rest ih =>
    obtain ⟨k, v⟩ := c
    unfold Memory.insertByte
    split
    · simp [Memory.byte, eq_comm]
    · split
      · next h => subst h; by_cases hx : a = x <;> simp [Memory.byte, hx, eq_comm]
      · next hne =>
        simp only [Memory.byte, ih]
        by_cases hk : k = x
        · subst hk; simp [Ne.symm hne]
        · simp [hk]

theorem Memory.byte_erase (m : Memory) (a x : Nat) :
    Memory.byte (m.filter (fun c => c.1 ≠ a)) x = if x = a then 0 else m.byte x := by
  induction m with
  | nil => simp [Memory.byte]
  | cons c rest ih =>
    obtain ⟨k, v⟩ := c
    by_cases hk : k = a
    · subst hk
      rw [List.filter_cons_of_neg (by simp), ih]
      by_cases hx : x = k
      · simp [hx]
      · simp [Memory.byte, hx, Ne.symm hx]
    · rw [List.filter_cons_of_pos (by simpa using hk)]
      simp only [Memory.byte, ih]
      by_cases hx : k = x <;> simp_all

/-- A byte read after a 1-byte write: the byte written, and every other byte as before. -/
theorem Memory.byte_setByte (m : Memory) (a x : Nat) (b : Byte) :
    (m.setByte a b).byte x = if x = a then b else m.byte x := by
  unfold Memory.setByte
  split
  · next h => rw [Memory.byte_erase, h]
  · rw [Memory.byte_insertByte]

@[simp] theorem Memory.byte_setByte_same (m : Memory) (a : Nat) (b : Byte) : (m.setByte a b).byte a = b := by
  simp [Memory.byte_setByte]

theorem Memory.byte_setByte_other (m : Memory) {a x : Nat} (b : Byte) (h : x ≠ a) : (m.setByte a b).byte x = m.byte x := by
  simp [Memory.byte_setByte, h]

/-! ### The canonical form -/

theorem Memory.keys_insertByte {m : Memory} {a : Nat} {b : Byte} {c : Host.Cell} (h : c ∈ m.insertByte a b) :
    c = (a, b) ∨ c ∈ m := by
  induction m with
  | nil => simpa [Memory.insertByte] using h
  | cons d rest ih =>
    obtain ⟨k, v⟩ := d
    unfold Memory.insertByte at h
    split at h
    · simpa using h
    · split at h
      · next hk =>
        rcases List.mem_cons.1 h with h | h
        · exact .inl h
        · exact .inr (List.mem_cons_of_mem _ h)
      · rcases List.mem_cons.1 h with h | h
        · exact .inr (by simp [h])
        · exact (ih h).imp id (List.mem_cons_of_mem _)

theorem Memory.pairwise_insertByte {m : Memory} (h : m.Pairwise fun x y => x.1 < y.1) (a : Nat) (b : Byte) :
    (m.insertByte a b).Pairwise fun x y => x.1 < y.1 := by
  induction m with
  | nil => simp [Memory.insertByte]
  | cons d rest ih =>
    obtain ⟨k, v⟩ := d
    obtain ⟨h1, h2⟩ := List.pairwise_cons.1 h
    unfold Memory.insertByte
    split
    · next hk =>
      refine List.pairwise_cons.2 ⟨fun c hc => ?_, h⟩
      rcases List.mem_cons.1 hc with rfl | hc
      · exact hk
      · exact lt_trans hk (h1 c hc)
    · split
      · next hk => subst hk; exact List.pairwise_cons.2 ⟨h1, h2⟩
      · next hlt hne =>
        refine List.pairwise_cons.2 ⟨fun c hc => ?_, ih h2⟩
        rcases Memory.keys_insertByte hc with rfl | hc
        · show k < a; omega
        · exact h1 c hc

/-- A 1-byte write keeps the canonical form. -/
theorem Memory.wf_setByte {m : Memory} (h : m.wf) (a : Nat) (b : Byte) : (m.setByte a b).wf := by
  unfold Memory.setByte
  split
  · exact ⟨h.1.filter _, fun c hc => h.2 c (List.mem_of_mem_filter hc)⟩
  · next hb =>
    refine ⟨Memory.pairwise_insertByte h.1 a b, fun c hc => ?_⟩
    rcases Memory.keys_insertByte hc with rfl | hc
    · exact hb
    · exact h.2 c hc

theorem Memory.wf_write2 {m : Memory} (h : m.wf) (a : Nat) (v : BitVec 16) : (m.write2 a v).wf :=
  Memory.wf_setByte (Memory.wf_setByte h _ _) _ _

theorem Memory.wf_write4 {m : Memory} (h : m.wf) (a : Nat) (v : BitVec 32) : (m.write4 a v).wf :=
  Memory.wf_write2 (Memory.wf_write2 h _ _) _ _

/-- The listed addresses lie below a bound. -/
abbrev Memory.below (m : Memory) (n : Nat) : Prop := ∀ c ∈ m, c.1 < n

theorem Memory.below_setByte {m : Memory} {n : Nat} (h : m.below n) {a : Nat} (ha : a < n) (b : Byte) :
    (m.setByte a b).below n := by
  unfold Memory.setByte
  split
  · exact fun c hc => h c (List.mem_of_mem_filter hc)
  · intro c hc
    rcases Memory.keys_insertByte hc with rfl | hc
    · exact ha
    · exact h c hc

theorem Memory.below_write2 {m : Memory} {n : Nat} (h : m.below n) {a : Nat} (ha : a + 1 < n) (v : BitVec 16) :
    (m.write2 a v).below n :=
  Memory.below_setByte (Memory.below_setByte h (by omega) _) ha _

theorem Memory.below_write4 {m : Memory} {n : Nat} (h : m.below n) {a : Nat} (ha : a + 3 < n) (v : BitVec 32) :
    (m.write4 a v).below n :=
  Memory.below_write2 (Memory.below_write2 h (by omega) _) (by omega) _

/-- The byte of a listed address in a canonical memory is the listed byte. -/
theorem Memory.byte_of_mem {m : Memory} (h : m.wf) {c : Host.Cell} (hc : c ∈ m) : m.byte c.1 = c.2 := by
  induction m with
  | nil => simp at hc
  | cons d rest ih =>
    obtain ⟨k, v⟩ := d
    obtain ⟨h1, h2⟩ := List.pairwise_cons.1 h.1
    rcases List.mem_cons.1 hc with rfl | hc'
    · simp [Memory.byte]
    · have : k ≠ c.1 := Nat.ne_of_lt (h1 c hc')
      simp only [Memory.byte, this, if_false]
      exact ih ⟨h2, fun d hd => h.2 d (List.mem_cons_of_mem _ hd)⟩ hc'

/-- An address that is not listed reads as 0. -/
theorem Memory.byte_of_not_listed {m : Memory} {a : Nat} (h : ∀ c ∈ m, c.1 ≠ a) : m.byte a = 0 := by
  induction m with
  | nil => rfl
  | cons d rest ih =>
    obtain ⟨k, v⟩ := d
    have hk : k ≠ a := h _ List.mem_cons_self
    simp only [Memory.byte, hk, if_false]
    exact ih fun c hc => h c (List.mem_cons_of_mem _ hc)

/-- In a canonical memory the listed addresses are those that read as another byte than 0. -/
theorem Memory.mem_iff {m : Memory} (h : m.wf) (c : Host.Cell) : c ∈ m ↔ m.byte c.1 = c.2 ∧ c.2 ≠ 0 := by
  constructor
  · exact fun hc => ⟨Memory.byte_of_mem h hc, h.2 c hc⟩
  · rintro ⟨hb, hne⟩
    by_contra hc
    by_cases hl : ∃ d ∈ m, d.1 = c.1
    · obtain ⟨d, hd, hdc⟩ := hl
      have hdb := Memory.byte_of_mem h hd
      rw [hdc, hb] at hdb
      exact hc ((Prod.ext hdc hdb.symm : d = c) ▸ hd)
    · rw [Memory.byte_of_not_listed (fun d hd he => hl ⟨d, hd, he⟩)] at hb
      exact hne hb.symm

/-- Equal memories are equal data: two canonical memories that read alike are one list. -/
theorem Memory.eq_of_byte {m m' : Memory} (h : m.wf) (h' : m'.wf) (hb : ∀ a, m.byte a = m'.byte a) : m = m' := by
  have hmem : ∀ c, c ∈ m ↔ c ∈ m' := fun c => by rw [Memory.mem_iff h, Memory.mem_iff h', hb]
  have nd : ∀ {l : Memory}, l.wf → l.Nodup := fun hl => hl.1.imp fun {a b} hab he => by subst he; exact Nat.lt_irrefl _ hab
  exact List.Perm.eq_of_pairwise (fun a b _ _ h1 h2 => absurd h1 (Nat.lt_asymm h2)) h.1 h'.1
    ((List.perm_ext_iff_of_nodup (nd h) (nd h')).2 hmem)

/-! ### Wider accesses -/

theorem Memory.byte_write2 (m : Memory) (a x : Nat) (v : BitVec 16) :
    (m.write2 a v).byte x = if x = a + 1 then v.extractLsb' 8 8 else if x = a then v.extractLsb' 0 8 else m.byte x := by
  simp [Memory.write2, Memory.byte_setByte]

theorem Memory.byte_write2_other (m : Memory) {a x : Nat} (v : BitVec 16) (h : x < a ∨ a + 2 ≤ x) :
    (m.write2 a v).byte x = m.byte x := by
  rw [Memory.byte_write2, if_neg (by omega), if_neg (by omega)]

theorem Memory.byte_write4_other (m : Memory) {a x : Nat} (v : BitVec 32) (h : x < a ∨ a + 4 ≤ x) :
    (m.write4 a v).byte x = m.byte x := by
  rw [Memory.write4, Memory.byte_write2_other _ _ (by omega), Memory.byte_write2_other _ _ (by omega)]

/-- Reads of `n` bytes at `a` are the same in both memories. -/
abbrev Memory.agree (m m' : Memory) (a n : Nat) : Prop := ∀ x, a ≤ x → x < a + n → m.byte x = m'.byte x

theorem Memory.read2_congr {m m' : Memory} {a : Nat} (h : m.agree m' a 2) : m.read2 a = m'.read2 a := by
  simp [Memory.read2, h a (by omega) (by omega), h (a + 1) (by omega) (by omega)]

theorem Memory.read4_congr {m m' : Memory} {a : Nat} (h : m.agree m' a 4) : m.read4 a = m'.read4 a := by
  unfold Memory.read4
  rw [Memory.read2_congr (m := m) (m' := m') (a := a) fun x h1 h2 => h x (by omega) (by omega),
    Memory.read2_congr (m := m) (m' := m') (a := a + 2) fun x h1 h2 => h x (by omega) (by omega)]

theorem Memory.read8_congr {m m' : Memory} {a : Nat} (h : m.agree m' a 8) : m.read8 a = m'.read8 a := by
  unfold Memory.read8
  rw [Memory.read4_congr (m := m) (m' := m') (a := a) fun x h1 h2 => h x (by omega) (by omega),
    Memory.read4_congr (m := m) (m' := m') (a := a + 4) fun x h1 h2 => h x (by omega) (by omega)]

theorem Memory.read16_congr {m m' : Memory} {a : Nat} (h : m.agree m' a 16) : m.read16 a = m'.read16 a := by
  unfold Memory.read16
  rw [Memory.read8_congr (m := m) (m' := m') (a := a) fun x h1 h2 => h x (by omega) (by omega),
    Memory.read8_congr (m := m) (m' := m') (a := a + 8) fun x h1 h2 => h x (by omega) (by omega)]

@[simp] theorem Memory.read2_write2_same (m : Memory) (a : Nat) (v : BitVec 16) : (m.write2 a v).read2 a = v := by
  simp only [Memory.read2, Memory.byte_write2]
  apply BitVec.eq_of_getLsbD_eq
  intro i hi
  simp only [BitVec.getLsbD_append, Nat.left_eq_add, if_true, if_false, Nat.one_ne_zero]
  by_cases h : i < 8
  · simp [h]
  · simp [h, show i - 8 < 8 by omega, show 8 + (i - 8) = i by omega]

theorem Memory.read2_write2_other (m : Memory) {a b : Nat} (v : BitVec 16) (h : b + 2 ≤ a ∨ a + 2 ≤ b) :
    (m.write2 a v).read2 b = m.read2 b :=
  Memory.read2_congr fun x h1 h2 => Memory.byte_write2_other _ _ (by omega)

theorem Memory.read4_write2_other (m : Memory) {a b : Nat} (v : BitVec 16) (h : b + 4 ≤ a ∨ a + 2 ≤ b) :
    (m.write2 a v).read4 b = m.read4 b :=
  Memory.read4_congr fun x h1 h2 => Memory.byte_write2_other _ _ (by omega)

theorem Memory.read2_write4_other (m : Memory) {a b : Nat} (v : BitVec 32) (h : b + 2 ≤ a ∨ a + 4 ≤ b) :
    (m.write4 a v).read2 b = m.read2 b :=
  Memory.read2_congr fun x h1 h2 => Memory.byte_write4_other _ _ (by omega)

theorem Memory.read4_write4_other (m : Memory) {a b : Nat} (v : BitVec 32) (h : b + 4 ≤ a ∨ a + 4 ≤ b) :
    (m.write4 a v).read4 b = m.read4 b :=
  Memory.read4_congr fun x h1 h2 => Memory.byte_write4_other _ _ (by omega)

@[simp] theorem Memory.read4_write4_same (m : Memory) (a : Nat) (v : BitVec 32) : (m.write4 a v).read4 a = v := by
  have h1 : (m.write4 a v).read2 (a + 2) = v.extractLsb' 16 16 := by simp [Memory.write4]
  have h2 : (m.write4 a v).read2 a = v.extractLsb' 0 16 := by
    rw [Memory.write4, Memory.read2_write2_other _ _ (by omega), Memory.read2_write2_same]
  rw [Memory.read4, h1, h2]
  apply BitVec.eq_of_getLsbD_eq
  intro i hi
  simp only [BitVec.getLsbD_append]
  by_cases h : i < 16
  · simp [h]
  · simp [h, show i - 16 < 16 by omega, show 16 + (i - 16) = i by omega]

/-- Bit `k` of a value read is bit `k mod 8` of the byte `k div 8` above its address (R30). -/
theorem Memory.getLsbD_read2 (m : Memory) (a : Nat) {k : Nat} (h : k < 16) :
    (m.read2 a).getLsbD k = (m.byte (a + k / 8)).getLsbD (k % 8) := by
  rw [Memory.read2, BitVec.getLsbD_append]
  by_cases hk : k < 8
  · simp [hk, Nat.div_eq_of_lt hk, Nat.mod_eq_of_lt hk]
  · simp [hk, show k / 8 = 1 by omega, show k % 8 = k - 8 by omega]

theorem Memory.getLsbD_read4 (m : Memory) (a : Nat) {k : Nat} (h : k < 32) :
    (m.read4 a).getLsbD k = (m.byte (a + k / 8)).getLsbD (k % 8) := by
  rw [Memory.read4, BitVec.getLsbD_append]
  by_cases hk : k < 16
  · rw [if_pos hk, Memory.getLsbD_read2 m a hk]
  · rw [if_neg hk]
    rw [Memory.getLsbD_read2 m (a + 2) (by omega), show a + 2 + (k - 16) / 8 = a + k / 8 by omega,
      show (k - 16) % 8 = k % 8 by omega]

theorem Memory.getLsbD_read8 (m : Memory) (a : Nat) {k : Nat} (h : k < 64) :
    (m.read8 a).getLsbD k = (m.byte (a + k / 8)).getLsbD (k % 8) := by
  rw [Memory.read8, BitVec.getLsbD_append]
  by_cases hk : k < 32
  · rw [if_pos hk, Memory.getLsbD_read4 m a hk]
  · rw [if_neg hk]
    rw [Memory.getLsbD_read4 m (a + 4) (by omega), show a + 4 + (k - 32) / 8 = a + k / 8 by omega,
      show (k - 32) % 8 = k % 8 by omega]

theorem Memory.getLsbD_read16 (m : Memory) (a : Nat) {k : Nat} (h : k < 128) :
    (m.read16 a).getLsbD k = (m.byte (a + k / 8)).getLsbD (k % 8) := by
  rw [Memory.read16, BitVec.getLsbD_append]
  by_cases hk : k < 64
  · rw [if_pos hk, Memory.getLsbD_read8 m a hk]
  · rw [if_neg hk]
    rw [Memory.getLsbD_read8 m (a + 8) (by omega), show a + 8 + (k - 64) / 8 = a + k / 8 by omega,
      show (k - 64) % 8 = k % 8 by omega]

/-- The low half of a 16-byte value is the 8-byte value at the same address. -/
@[simp] theorem Memory.low64_read16 (m : Memory) (a : Nat) : (m.read16 a).extractLsb' 0 64 = m.read8 a := by
  apply BitVec.eq_of_getLsbD_eq
  intro i hi
  rw [BitVec.getLsbD_extractLsb', Nat.zero_add, Memory.getLsbD_read16 m a (by omega), Memory.getLsbD_read8 m a hi]
  simp only [hi, decide_true, Bool.true_and]

end Sys2Proof.Machine
end

