-- ==== Sys2Proof/Laws/State.lean ====
section
/-! SUPPORT. One lemma per field and update of State, so that no later proof unfolds a record update. -/

namespace Sys2Proof.Machine

@[simp] theorem State.withMem_gprs (s : State) (m : Memory) : (s.withMem m).gprs = s.gprs := rfl
@[simp] theorem State.withMem_eip (s : State) (m : Memory) : (s.withMem m).eip = s.eip := rfl
@[simp] theorem State.withMem_eflags (s : State) (m : Memory) : (s.withMem m).eflags = s.eflags := rfl
@[simp] theorem State.withMem_segs (s : State) (m : Memory) : (s.withMem m).segs = s.segs := rfl
@[simp] theorem State.withMem_cr3 (s : State) (m : Memory) : (s.withMem m).cr3 = s.cr3 := rfl
@[simp] theorem State.withMem_tr (s : State) (m : Memory) : (s.withMem m).tr = s.tr := rfl
@[simp] theorem State.withMem_ldtr (s : State) (m : Memory) : (s.withMem m).ldtr = s.ldtr := rfl
@[simp] theorem State.withMem_ssp (s : State) (m : Memory) : (s.withMem m).ssp = s.ssp := rfl
@[simp] theorem State.withMem_cpl (s : State) (m : Memory) : (s.withMem m).cpl = s.cpl := rfl
@[simp] theorem State.withMem_mem (s : State) (m : Memory) : (s.withMem m).mem = m := rfl
@[simp] theorem State.withMem_code (s : State) (m : Memory) : (s.withMem m).code = s.code := rfl
@[simp] theorem State.withMem_cfg (s : State) (m : Memory) : (s.withMem m).cfg = s.cfg := rfl
@[simp] theorem State.withMem_offers (s : State) (m : Memory) : (s.withMem m).offers = s.offers := rfl
@[simp] theorem State.withMem_outcome (s : State) (m : Memory) : (s.withMem m).outcome = s.outcome := rfl

@[simp] theorem State.withTr_gprs (s : State) (t : TaskReg) : (s.withTr t).gprs = s.gprs := rfl
@[simp] theorem State.withTr_eip (s : State) (t : TaskReg) : (s.withTr t).eip = s.eip := rfl
@[simp] theorem State.withTr_eflags (s : State) (t : TaskReg) : (s.withTr t).eflags = s.eflags := rfl
@[simp] theorem State.withTr_segs (s : State) (t : TaskReg) : (s.withTr t).segs = s.segs := rfl
@[simp] theorem State.withTr_cr3 (s : State) (t : TaskReg) : (s.withTr t).cr3 = s.cr3 := rfl
@[simp] theorem State.withTr_tr (s : State) (t : TaskReg) : (s.withTr t).tr = some t := rfl
@[simp] theorem State.withTr_ldtr (s : State) (t : TaskReg) : (s.withTr t).ldtr = s.ldtr := rfl
@[simp] theorem State.withTr_ssp (s : State) (t : TaskReg) : (s.withTr t).ssp = s.ssp := rfl
@[simp] theorem State.withTr_cpl (s : State) (t : TaskReg) : (s.withTr t).cpl = s.cpl := rfl
@[simp] theorem State.withTr_mem (s : State) (t : TaskReg) : (s.withTr t).mem = s.mem := rfl
@[simp] theorem State.withTr_code (s : State) (t : TaskReg) : (s.withTr t).code = s.code := rfl
@[simp] theorem State.withTr_cfg (s : State) (t : TaskReg) : (s.withTr t).cfg = s.cfg := rfl
@[simp] theorem State.withTr_offers (s : State) (t : TaskReg) : (s.withTr t).offers = s.offers := rfl
@[simp] theorem State.withTr_outcome (s : State) (t : TaskReg) : (s.withTr t).outcome = s.outcome := rfl

@[simp] theorem State.withEip_gprs (s : State) (e : Word) : (s.withEip e).gprs = s.gprs := rfl
@[simp] theorem State.withEip_eip (s : State) (e : Word) : (s.withEip e).eip = e := rfl
@[simp] theorem State.withEip_eflags (s : State) (e : Word) : (s.withEip e).eflags = s.eflags := rfl
@[simp] theorem State.withEip_segs (s : State) (e : Word) : (s.withEip e).segs = s.segs := rfl
@[simp] theorem State.withEip_cr3 (s : State) (e : Word) : (s.withEip e).cr3 = s.cr3 := rfl
@[simp] theorem State.withEip_tr (s : State) (e : Word) : (s.withEip e).tr = s.tr := rfl
@[simp] theorem State.withEip_ldtr (s : State) (e : Word) : (s.withEip e).ldtr = s.ldtr := rfl
@[simp] theorem State.withEip_ssp (s : State) (e : Word) : (s.withEip e).ssp = s.ssp := rfl
@[simp] theorem State.withEip_cpl (s : State) (e : Word) : (s.withEip e).cpl = s.cpl := rfl
@[simp] theorem State.withEip_mem (s : State) (e : Word) : (s.withEip e).mem = s.mem := rfl
@[simp] theorem State.withEip_code (s : State) (e : Word) : (s.withEip e).code = s.code := rfl
@[simp] theorem State.withEip_cfg (s : State) (e : Word) : (s.withEip e).cfg = s.cfg := rfl
@[simp] theorem State.withEip_offers (s : State) (e : Word) : (s.withEip e).offers = s.offers := rfl
@[simp] theorem State.withEip_outcome (s : State) (e : Word) : (s.withEip e).outcome = s.outcome := rfl

@[simp] theorem State.withOffers_gprs (s : State) (os : List (Option Event)) : (s.withOffers os).gprs = s.gprs := rfl
@[simp] theorem State.withOffers_eip (s : State) (os : List (Option Event)) : (s.withOffers os).eip = s.eip := rfl
@[simp] theorem State.withOffers_eflags (s : State) (os : List (Option Event)) : (s.withOffers os).eflags = s.eflags := rfl
@[simp] theorem State.withOffers_segs (s : State) (os : List (Option Event)) : (s.withOffers os).segs = s.segs := rfl
@[simp] theorem State.withOffers_cr3 (s : State) (os : List (Option Event)) : (s.withOffers os).cr3 = s.cr3 := rfl
@[simp] theorem State.withOffers_tr (s : State) (os : List (Option Event)) : (s.withOffers os).tr = s.tr := rfl
@[simp] theorem State.withOffers_ldtr (s : State) (os : List (Option Event)) : (s.withOffers os).ldtr = s.ldtr := rfl
@[simp] theorem State.withOffers_ssp (s : State) (os : List (Option Event)) : (s.withOffers os).ssp = s.ssp := rfl
@[simp] theorem State.withOffers_cpl (s : State) (os : List (Option Event)) : (s.withOffers os).cpl = s.cpl := rfl
@[simp] theorem State.withOffers_mem (s : State) (os : List (Option Event)) : (s.withOffers os).mem = s.mem := rfl
@[simp] theorem State.withOffers_code (s : State) (os : List (Option Event)) : (s.withOffers os).code = s.code := rfl
@[simp] theorem State.withOffers_cfg (s : State) (os : List (Option Event)) : (s.withOffers os).cfg = s.cfg := rfl
@[simp] theorem State.withOffers_offers (s : State) (os : List (Option Event)) : (s.withOffers os).offers = os := rfl
@[simp] theorem State.withOffers_outcome (s : State) (os : List (Option Event)) : (s.withOffers os).outcome = s.outcome := rfl

@[simp] theorem State.withOutcome_gprs (s : State) (o : RunMark) : (s.withOutcome o).gprs = s.gprs := rfl
@[simp] theorem State.withOutcome_eip (s : State) (o : RunMark) : (s.withOutcome o).eip = s.eip := rfl
@[simp] theorem State.withOutcome_eflags (s : State) (o : RunMark) : (s.withOutcome o).eflags = s.eflags := rfl
@[simp] theorem State.withOutcome_segs (s : State) (o : RunMark) : (s.withOutcome o).segs = s.segs := rfl
@[simp] theorem State.withOutcome_cr3 (s : State) (o : RunMark) : (s.withOutcome o).cr3 = s.cr3 := rfl
@[simp] theorem State.withOutcome_tr (s : State) (o : RunMark) : (s.withOutcome o).tr = s.tr := rfl
@[simp] theorem State.withOutcome_ldtr (s : State) (o : RunMark) : (s.withOutcome o).ldtr = s.ldtr := rfl
@[simp] theorem State.withOutcome_ssp (s : State) (o : RunMark) : (s.withOutcome o).ssp = s.ssp := rfl
@[simp] theorem State.withOutcome_cpl (s : State) (o : RunMark) : (s.withOutcome o).cpl = s.cpl := rfl
@[simp] theorem State.withOutcome_mem (s : State) (o : RunMark) : (s.withOutcome o).mem = s.mem := rfl
@[simp] theorem State.withOutcome_code (s : State) (o : RunMark) : (s.withOutcome o).code = s.code := rfl
@[simp] theorem State.withOutcome_cfg (s : State) (o : RunMark) : (s.withOutcome o).cfg = s.cfg := rfl
@[simp] theorem State.withOutcome_offers (s : State) (o : RunMark) : (s.withOutcome o).offers = s.offers := rfl
@[simp] theorem State.withOutcome_outcome (s : State) (o : RunMark) : (s.withOutcome o).outcome = o := rfl

@[simp] theorem State.withCode_gprs (s : State) (c : CodeStore) : (s.withCode c).gprs = s.gprs := rfl
@[simp] theorem State.withCode_eip (s : State) (c : CodeStore) : (s.withCode c).eip = s.eip := rfl
@[simp] theorem State.withCode_eflags (s : State) (c : CodeStore) : (s.withCode c).eflags = s.eflags := rfl
@[simp] theorem State.withCode_segs (s : State) (c : CodeStore) : (s.withCode c).segs = s.segs := rfl
@[simp] theorem State.withCode_cr3 (s : State) (c : CodeStore) : (s.withCode c).cr3 = s.cr3 := rfl
@[simp] theorem State.withCode_tr (s : State) (c : CodeStore) : (s.withCode c).tr = s.tr := rfl
@[simp] theorem State.withCode_ldtr (s : State) (c : CodeStore) : (s.withCode c).ldtr = s.ldtr := rfl
@[simp] theorem State.withCode_ssp (s : State) (c : CodeStore) : (s.withCode c).ssp = s.ssp := rfl
@[simp] theorem State.withCode_cpl (s : State) (c : CodeStore) : (s.withCode c).cpl = s.cpl := rfl
@[simp] theorem State.withCode_mem (s : State) (c : CodeStore) : (s.withCode c).mem = s.mem := rfl
@[simp] theorem State.withCode_code (s : State) (c : CodeStore) : (s.withCode c).code = c := rfl
@[simp] theorem State.withCode_cfg (s : State) (c : CodeStore) : (s.withCode c).cfg = s.cfg := rfl
@[simp] theorem State.withCode_offers (s : State) (c : CodeStore) : (s.withCode c).offers = s.offers := rfl
@[simp] theorem State.withCode_outcome (s : State) (c : CodeStore) : (s.withCode c).outcome = s.outcome := rfl

@[simp] theorem State.withCfg_gprs (s : State) (c : Config) : (s.withCfg c).gprs = s.gprs := rfl
@[simp] theorem State.withCfg_eip (s : State) (c : Config) : (s.withCfg c).eip = s.eip := rfl
@[simp] theorem State.withCfg_eflags (s : State) (c : Config) : (s.withCfg c).eflags = s.eflags := rfl
@[simp] theorem State.withCfg_segs (s : State) (c : Config) : (s.withCfg c).segs = s.segs := rfl
@[simp] theorem State.withCfg_cr3 (s : State) (c : Config) : (s.withCfg c).cr3 = s.cr3 := rfl
@[simp] theorem State.withCfg_tr (s : State) (c : Config) : (s.withCfg c).tr = s.tr := rfl
@[simp] theorem State.withCfg_ldtr (s : State) (c : Config) : (s.withCfg c).ldtr = s.ldtr := rfl
@[simp] theorem State.withCfg_ssp (s : State) (c : Config) : (s.withCfg c).ssp = s.ssp := rfl
@[simp] theorem State.withCfg_cpl (s : State) (c : Config) : (s.withCfg c).cpl = s.cpl := rfl
@[simp] theorem State.withCfg_mem (s : State) (c : Config) : (s.withCfg c).mem = s.mem := rfl
@[simp] theorem State.withCfg_code (s : State) (c : Config) : (s.withCfg c).code = s.code := rfl
@[simp] theorem State.withCfg_cfg (s : State) (c : Config) : (s.withCfg c).cfg = c := rfl
@[simp] theorem State.withCfg_offers (s : State) (c : Config) : (s.withCfg c).offers = s.offers := rfl
@[simp] theorem State.withCfg_outcome (s : State) (c : Config) : (s.withCfg c).outcome = s.outcome := rfl

@[simp] theorem loadContext_gprs (s : State) (nb : Nat) (k : DispatchKind) : (loadContext s nb k).gprs = loadGprs s.mem nb := rfl
@[simp] theorem loadContext_eip (s : State) (nb : Nat) (k : DispatchKind) : (loadContext s nb k).eip = s.mem.read4 (nb + tss32Offset .eip) := rfl
@[simp] theorem loadContext_eflags (s : State) (nb : Nat) (k : DispatchKind) : (loadContext s nb k).eflags = loadedEflags k (s.mem.read4 (nb + tss32Offset .eflags)) := rfl
@[simp] theorem loadContext_segs (s : State) (nb : Nat) (k : DispatchKind) : (loadContext s nb k).segs = loadSegs s.mem nb := rfl
@[simp] theorem loadContext_cr3 (s : State) (nb : Nat) (k : DispatchKind) : (loadContext s nb k).cr3 = if s.cfg.pagingEnabled then s.mem.read4 (nb + tss32Offset .cr3) else s.cr3 := rfl
@[simp] theorem loadContext_tr (s : State) (nb : Nat) (k : DispatchKind) : (loadContext s nb k).tr = s.tr := rfl
@[simp] theorem loadContext_ldtr (s : State) (nb : Nat) (k : DispatchKind) : (loadContext s nb k).ldtr = s.mem.read2 (nb + tss32Offset .ldt) := rfl
@[simp] theorem loadContext_ssp (s : State) (nb : Nat) (k : DispatchKind) : (loadContext s nb k).ssp = s.ssp := rfl
@[simp] theorem loadContext_cpl (s : State) (nb : Nat) (k : DispatchKind) : (loadContext s nb k).cpl = cplOf (s.mem.read2 (nb + tss32Offset .cs)) := rfl
@[simp] theorem loadContext_mem (s : State) (nb : Nat) (k : DispatchKind) : (loadContext s nb k).mem = s.mem := rfl
@[simp] theorem loadContext_code (s : State) (nb : Nat) (k : DispatchKind) : (loadContext s nb k).code = s.code := rfl
@[simp] theorem loadContext_cfg (s : State) (nb : Nat) (k : DispatchKind) : (loadContext s nb k).cfg = s.cfg := rfl
@[simp] theorem loadContext_offers (s : State) (nb : Nat) (k : DispatchKind) : (loadContext s nb k).offers = s.offers := rfl
@[simp] theorem loadContext_outcome (s : State) (nb : Nat) (k : DispatchKind) : (loadContext s nb k).outcome = s.outcome := rfl

end Sys2Proof.Machine
end

