-- ==== Sys2Proof/Laws/Ops.lean ====
section
/-! SUPPORT. One lemma for each shared operation that says once everything it can do when it goes on. -/

namespace Sys2Proof.Machine

/-! ### Pseudocode -/

theorem Chk.bind_eq_ok {α β : Type} {x : Chk α} {f : α → Chk β} {b : β} :
    (x >>= f) = .ok b ↔ ∃ a, x = .ok a ∧ f a = .ok b := by
  cases x with
  | ok a => exact ⟨fun h => ⟨a, rfl, h⟩, fun ⟨_, h, h'⟩ => by cases h; exact h'⟩
  | error e => exact ⟨fun h => (by cases h), fun ⟨_, h, _⟩ => (by cases h)⟩

theorem Chk.ok_bind {α β : Type} (a : α) (f : α → Chk β) : ((.ok a : Chk α) >>= f) = f a := rfl

theorem Chk.error_bind {α β : Type} (e : Stop) (f : α → Chk β) : ((.error e : Chk α) >>= f) = .error e := rfl

theorem raiseIf_eq_ok {c : Prop} [Decidable c] {f : Fault} {u : Unit} : raiseIf c f = .ok u ↔ ¬c := by
  unfold raiseIf; split <;> simp_all

theorem refuseIf_eq_ok {c : Prop} [Decidable c] {r : Refusal} {u : Unit} : refuseIf c r = .ok u ↔ ¬c := by
  unfold refuseIf; split <;> simp_all

theorem raiseIf_pos {c : Prop} [Decidable c] (h : c) (f : Fault) : raiseIf c f = .error (.raise f) := if_pos h

theorem refuseIf_pos {c : Prop} [Decidable c] (h : c) (r : Refusal) : refuseIf c r = .error (.refuse r) := if_pos h

theorem raiseIf_neg {c : Prop} [Decidable c] (h : ¬c) (f : Fault) : raiseIf c f = .ok () := if_neg h

theorem refuseIf_neg {c : Prop} [Decidable c] (h : ¬c) (r : Refusal) : refuseIf c r = .ok () := if_neg h

/-- A rule answers a next state exactly when its pseudocode reaches its end. -/
theorem toOutcome_eq_next {c : Chk State} {t : State} : toOutcome c = .next t ↔ c = .ok t := by
  rcases c with (f | r) | t <;> simp [toOutcome]

theorem toOutcome_eq_fault {c : Chk State} {f : Fault} : toOutcome c = .fault f ↔ c = .error (.raise f) := by
  rcases c with (g | r) | t <;> simp [toOutcome]

theorem toOutcome_eq_refused {c : Chk State} {r : Refusal} : toOutcome c = .refused r ↔ c = .error (.refuse r) := by
  rcases c with (g | r) | t <;> simp [toOutcome]

/-! ### Sums and accesses -/

/-- A refusal checked before a value. -/
theorem refuseIf_then_ok {α : Type} {c : Prop} [Decidable c] {r : Refusal} {x y : α} :
    (refuseIf c r >>= fun _ => (.ok x : Chk α)) = .ok y ↔ ¬c ∧ y = x := by
  rw [Chk.bind_eq_ok]
  exact ⟨fun ⟨_, h, e⟩ => ⟨refuseIf_eq_ok.1 h, (Except.ok.inj e).symm⟩, fun ⟨h, e⟩ => ⟨(), refuseIf_eq_ok.2 h, e ▸ rfl⟩⟩

theorem addrSum_eq_ok {s : State} {b o a : Nat} : addrSum s b o = .ok a ↔ b + o < addrLimit s.cfg.mode ∧ a = b + o := by
  rw [addrSum, refuseIf_then_ok, Nat.not_le]

theorem accessFits_eq_ok {s : State} {a n : Nat} {u : Unit} : accessFits s a n = .ok u ↔ a + n ≤ addrLimit s.cfg.mode := by
  rw [accessFits, refuseIf_eq_ok, Nat.not_lt]

theorem memRead2_eq_ok {s : State} {a : Nat} {v : BitVec 16} :
    memRead2 s a = .ok v ↔ a + 2 ≤ addrLimit s.cfg.mode ∧ v = s.mem.read2 a := by
  rw [memRead2, accessFits, refuseIf_then_ok, Nat.not_lt]

theorem memRead8_eq_ok {s : State} {a : Nat} {v : BitVec 64} :
    memRead8 s a = .ok v ↔ a + 8 ≤ addrLimit s.cfg.mode ∧ v = s.mem.read8 a := by
  rw [memRead8, accessFits, refuseIf_then_ok, Nat.not_lt]

theorem memRead16_eq_ok {s : State} {a : Nat} {v : BitVec 128} :
    memRead16 s a = .ok v ↔ a + 16 ≤ addrLimit s.cfg.mode ∧ v = s.mem.read16 a := by
  rw [memRead16, accessFits, refuseIf_then_ok, Nat.not_lt]

theorem nextEip_eq_ok {s : State} {i : Instr} {e : Word} :
    nextEip s i = .ok e ↔ s.eip.toNat + s.lenOf i < 2 ^ 32 ∧ e = s.eipAfter i := by
  rw [nextEip, refuseIf_then_ok, Nat.not_le]

/-! ### Classification -/

theorem classify_of_tss {d : BitVec 64} (h : drawnAsTss d) : classify d = .tss (decodeTss32 d) := if_pos h

/-- The two figures do not overlap: bit 43 is 1 in the one and 0 in the other. -/
theorem not_tss_of_gate {d : BitVec 64} (h : drawnAsGate d) : ¬ drawnAsTss d := by
  rintro ⟨_, h43, _, _⟩
  have := congrArg (fun v : BitVec 4 => v.getLsbD 3) h.2
  simp only [BitVec.getLsbD_extractLsb'] at this
  rw [show 40 + 3 = 43 from rfl, h43] at this
  exact absurd this (by decide)

theorem classify_of_gate {d : BitVec 64} (h : drawnAsGate d) : classify d = .gate (decodeGate d) :=
  (if_neg (not_tss_of_gate h)).trans (if_pos h)

theorem classify_of_other {d : BitVec 64} (h1 : ¬ drawnAsTss d) (h2 : ¬ drawnAsGate d) : classify d = .other :=
  (if_neg h1).trans (if_neg h2)

theorem classify_eq_tss {d : BitVec 64} {t : TssDesc} : classify d = .tss t ↔ drawnAsTss d ∧ t = decodeTss32 d := by
  constructor
  · intro h
    by_cases h1 : drawnAsTss d
    · rw [classify_of_tss h1] at h; cases h; exact ⟨h1, rfl⟩
    · by_cases h2 : drawnAsGate d
      · rw [classify_of_gate h2] at h; cases h
      · rw [classify_of_other h1 h2] at h; cases h
  · rintro ⟨h, rfl⟩; exact classify_of_tss h

theorem classify_eq_gate {d : BitVec 64} {g : GateDesc} : classify d = .gate g ↔ drawnAsGate d ∧ g = decodeGate d := by
  constructor
  · intro h
    by_cases h1 : drawnAsTss d
    · rw [classify_of_tss h1] at h; cases h
    · by_cases h2 : drawnAsGate d
      · rw [classify_of_gate h2] at h; cases h; exact ⟨h2, rfl⟩
      · rw [classify_of_other h1 h2] at h; cases h
  · rintro ⟨h, rfl⟩; exact classify_of_gate h

/-! ### Lookup -/

/-- A lookup goes on with the slot in the GDT or in the current LDT (R50). -/
theorem descAddr_eq_ok {s : State} {sel : Sel} {n a : Nat} :
    descAddr s sel n = .ok a ↔
      a < addrLimit s.cfg.mode ∧
      ((selTI sel = false ∧ selIndex sel ≠ 0 ∧ 8 * selIndex sel + n - 1 ≤ s.cfg.gdtLimit.toNat ∧ a = gdtSlot s sel) ∨
       (selTI sel = true ∧ ∃ w, ldtWindowOf s.cfg s.ldtr = some w ∧ 8 * selIndex sel + n - 1 ≤ w.limit ∧
          a = w.base.toNat + 8 * selIndex sel)) := by
  simp only [descAddr, Chk.bind_eq_ok, raiseIf_eq_ok, addrSum_eq_ok, tableOf, gdtSlot]
  cases hti : selTI sel
  · constructor
    · rintro ⟨_, hn, tbl, ht, _, hlim, hlt, rfl⟩
      cases ht
      exact ⟨hlt, .inl ⟨rfl, fun h => hn ⟨h, rfl⟩, by simpa using hlim, rfl⟩⟩
    · rintro ⟨hlt, ⟨_, hn, hlim, rfl⟩ | ⟨h, _⟩⟩
      · exact ⟨(), fun h => hn h.1, _, rfl, (), by simpa using hlim, hlt, rfl⟩
      · cases h
  · cases hw : ldtWindowOf s.cfg s.ldtr with
    | none =>
      constructor
      · rintro ⟨_, _, tbl, ht, _⟩; cases ht
      · rintro ⟨_, ⟨h, _⟩ | ⟨_, w, h, _⟩⟩ <;> cases h
    | some w =>
      constructor
      · rintro ⟨_, _, tbl, ht, _, hlim, hlt, rfl⟩
        cases ht
        exact ⟨hlt, .inr ⟨rfl, w, rfl, by simpa using hlim, rfl⟩⟩
      · rintro ⟨hlt, ⟨h, _⟩ | ⟨_, w', hw', hlim, rfl⟩⟩
        · cases h
        · cases hw'
          exact ⟨(), fun h => (by cases h.2), _, rfl, (), by simpa using hlim, hlt, rfl⟩

theorem descAddr_of_inGdt {s : State} {sel : Sel} {n : Nat} (hn : 0 < n) (h : InGdt s sel n) : descAddr s sel n = .ok (gdtSlot s sel) :=
  descAddr_eq_ok.2 ⟨by have := h.fits; omega, .inl ⟨h.global, h.notNull, h.inTable, rfl⟩⟩

theorem descAddr_of_inLdt {s : State} {sel : Sel} {a : Nat} (h : InLdt s sel a) : descAddr s sel 8 = .ok a := by
  obtain ⟨w, hw, hl, ha⟩ := h.window
  exact descAddr_eq_ok.2 ⟨by have := h.fits; omega, .inr ⟨h.localTable, w, hw, by omega, ha⟩⟩

theorem idtAddr_eq_ok {s : State} {v a : Nat} :
    idtAddr s v = .ok a ↔ 8 * v + 7 ≤ s.cfg.idtLimit.toNat ∧ s.cfg.idtBase.toNat + 8 * v < addrLimit s.cfg.mode ∧
      a = s.cfg.idtBase.toNat + 8 * v := by
  simp [idtAddr, Chk.bind_eq_ok, raiseIf_eq_ok, addrSum_eq_ok]

theorem privilegeAllows_iff {c r d : BitVec 2} : privilegeAllows c r d = true ↔ max c.toNat r.toNat ≤ d.toNat := by
  simp [privilegeAllows]

/-- A JMP or CALL target resolves to exactly the TSS selectors it reaches (R79). -/
theorem resolveTarget_eq_ok {s : State} {sel tssSel : Sel} : resolveTarget s sel = .ok tssSel ↔ Reaches s sel tssSel := by
  constructor
  · intro h
    simp only [resolveTarget, Chk.bind_eq_ok, memRead8_eq_ok] at h
    obtain ⟨a, ha, d, ⟨hfit, rfl⟩, h⟩ := h
    obtain ⟨hlt, hslot⟩ := descAddr_eq_ok.1 ha
    cases hc : classify (s.mem.read8 a) with
    | other => simp only [hc] at h; cases h
    | tss t =>
      obtain ⟨hd, rfl⟩ := classify_eq_tss.1 hc
      simp only [hc, Chk.bind_eq_ok, raiseIf_eq_ok, Except.ok.injEq] at h
      obtain ⟨_, hti, _, hp, rfl⟩ := h
      rcases hslot with ⟨h1, h2, h3, rfl⟩ | ⟨h1, _⟩
      · exact .direct ⟨h1, h2, h3, hfit⟩ hd (privilegeAllows_iff.1 (Bool.not_eq_false _ ▸ hp))
      · exact absurd h1 hti
    | gate g =>
      obtain ⟨hd, rfl⟩ := classify_eq_gate.1 hc
      simp only [hc, Chk.bind_eq_ok, raiseIf_eq_ok, Except.ok.injEq] at h
      obtain ⟨_, hp, _, hP, rfl⟩ := h
      refine .gate a ?_ hd (privilegeAllows_iff.1 (Bool.not_eq_false _ ▸ hp)) (Bool.not_eq_false _ ▸ hP)
      rcases hslot with ⟨h1, h2, h3, rfl⟩ | ⟨h1, w, h2, h3, h4⟩
      · exact .inl ⟨⟨h1, h2, h3, hfit⟩, rfl⟩
      · exact .inr ⟨h1, ⟨w, h2, by omega, h4⟩, hfit⟩
  · rintro (⟨hs, hd, hp⟩ | ⟨a, hs, hd, hp, hP⟩)
    · have hp' : privilegeAllows s.cpl (selRPL sel) (decodeTss32 (s.mem.read8 (gdtSlot s sel))).dpl = true :=
        privilegeAllows_iff.2 hp
      simp only [resolveTarget, descAddr_of_inGdt (by decide) hs, Chk.ok_bind, memRead8_eq_ok.2 ⟨hs.fits, rfl⟩, classify_of_tss hd,
        raiseIf, hs.global, hp', Bool.false_eq_true, if_false, Bool.true_eq_false]
    · have hp' : privilegeAllows s.cpl (selRPL sel) (decodeGate (s.mem.read8 a)).dpl = true := privilegeAllows_iff.2 hp
      have hP' : (decodeGate (s.mem.read8 a)).p = true := hP
      have ha : descAddr s sel 8 = .ok a ∧ a + 8 ≤ addrLimit s.cfg.mode := by
        rcases hs with ⟨hs, rfl⟩ | hs
        · exact ⟨descAddr_of_inGdt (by decide) hs, hs.fits⟩
        · exact ⟨descAddr_of_inLdt hs, hs.fits⟩
      simp only [resolveTarget, ha.1, Chk.ok_bind, memRead8_eq_ok.2 ⟨ha.2, rfl⟩, classify_of_gate hd, raiseIf, hp', hP',
        if_false, Bool.true_eq_false]
      rfl

/-! ### The task switch -/

theorem checkIncomingBusy_eq_ok {k : DispatchKind} {sel : Sel} {t : TssDesc} {u : Unit} :
    checkIncomingBusy k sel t = .ok u ↔ t.b = decide (k = .iret) := by
  cases k <;> simp [checkIncomingBusy, raiseIf_eq_ok]

theorem checkSeparated_eq_ok {s : State} {ob nb : Nat} {u : Unit} :
    checkSeparated s ob nb = .ok u ↔ (∀ r ∈ switchRanges s ob nb, r.2 < addrLimit s.cfg.mode) ∧ allApart (switchRanges s ob nb) = true := by
  simp [checkSeparated, Chk.bind_eq_ok, refuseIf_eq_ok]

theorem switchRanges_incoming_fits {s : State} {ob nb : Nat} (h : ∀ r ∈ switchRanges s ob nb, r.2 < addrLimit s.cfg.mode) :
    nb + 103 < addrLimit s.cfg.mode := h (nb, nb + 103) (by simp [switchRanges, tss32Size])

theorem switchRanges_outgoing_fits {s : State} {ob nb : Nat} (h : ∀ r ∈ switchRanges s ob nb, r.2 < addrLimit s.cfg.mode) :
    ob + 103 < addrLimit s.cfg.mode := h (ob, ob + 103) (by simp [switchRanges, tss32Size])

/-- What the separation of R33 says of the outgoing TSS, the incoming TSS and the GDT. -/
theorem allApart_switchRanges {s : State} {ob nb : Nat} (h : allApart (switchRanges s ob nb) = true) :
    (ob + 103 < nb ∨ nb + 103 < ob) ∧
    (ob + 103 < s.cfg.gdtBase.toNat ∨ s.cfg.gdtBase.toNat + s.cfg.gdtLimit.toNat < ob) ∧
    (nb + 103 < s.cfg.gdtBase.toNat ∨ s.cfg.gdtBase.toNat + s.cfg.gdtLimit.toNat < nb) := by
  simp only [switchRanges, allApart, tss32Size, List.all_cons, Bool.and_eq_true, rangesApart, Bool.or_eq_true, decide_eq_true_eq] at h
  exact ⟨h.1.1, h.1.2.1, h.2.1.1⟩

/-- The checks of R81 pass exactly on the conditions of `SwitchReady` that concern the incoming task. -/
theorem checkIncoming_eq_ok {k : DispatchKind} {sel : Sel} {tr : TaskReg} {s : State} {x : Nat × TssDesc} :
    checkIncoming k sel tr s = .ok x ↔
      x = (gdtSlot s sel, tssAt s sel) ∧ InGdt s sel 8 ∧ drawnAsTss (s.mem.read8 (gdtSlot s sel)) ∧
      ((tssAt s sel).z54 = false ∧ (tssAt s sel).z53 = false) ∧ (tssAt s sel).b = decide (k = .iret) ∧ (tssAt s sel).p = true ∧
      minTssLimit ≤ effLimit (tssAt s sel) ∧ selIndex sel ≠ selIndex tr.sel ∧
      (∀ r ∈ switchRanges s tr.base.toNat (tssAt s sel).base.toNat, r.2 < addrLimit s.cfg.mode) ∧
      allApart (switchRanges s tr.base.toNat (tssAt s sel).base.toNat) = true ∧
      (s.mem.read2 ((tssAt s sel).base.toNat + 100)).getLsbD 0 = false := by
  constructor
  · intro h
    simp only [checkIncoming, Chk.bind_eq_ok, raiseIf_eq_ok, memRead8_eq_ok] at h
    obtain ⟨_, hti, a, ha, d, ⟨hfit, rfl⟩, h⟩ := h
    obtain ⟨hlt, ⟨h1, h2, h3, rfl⟩ | ⟨h1, _⟩⟩ := descAddr_eq_ok.1 ha
    · cases hc : classify (s.mem.read8 (gdtSlot s sel)) with
      | other => simp only [hc] at h; cases h
      | gate g => simp only [hc] at h; cases h
      | tss t =>
        obtain ⟨hd, rfl⟩ := classify_eq_tss.1 hc
        simp only [hc, Chk.bind_eq_ok, raiseIf_eq_ok, refuseIf_eq_ok, checkIncomingBusy_eq_ok, checkSeparated_eq_ok, memRead2_eq_ok,
          Except.ok.injEq, not_or, Bool.not_eq_true, Bool.not_eq_false, BitVec.not_lt] at h
        obtain ⟨_, hz, _, hb, _, hp, _, hl, _, ho, _, hs, r, ⟨_, rfl⟩, _, ht, rfl⟩ := h
        exact ⟨rfl, ⟨h1, h2, h3, hfit⟩, hd, hz, hb, hp, hl, ho, hs.1, hs.2, ht⟩
    · exact absurd h1 hti
  · rintro ⟨rfl, hs, hd, hz, hb, hp, hl, ho, hf, hap, ht⟩
    have hb' : checkIncomingBusy k sel (decodeTss32 (s.mem.read8 (gdtSlot s sel))) = .ok () := checkIncomingBusy_eq_ok.2 hb
    have hsep := (checkSeparated_eq_ok (u := ())).2 ⟨hf, hap⟩
    have hrow : memRead2 s ((tssAt s sel).base.toNat + tss32Offset .t) = .ok _ :=
      memRead2_eq_ok.2 ⟨by have := switchRanges_incoming_fits hf; simp only [tss32Offset]; omega, rfl⟩
    simp only [tssAt] at hsep hrow hz hp hl ht ⊢
    simp only [checkIncoming, raiseIf, refuseIf, hs.global, descAddr_of_inGdt (by decide) hs, Chk.ok_bind, memRead8_eq_ok.2 ⟨hs.fits, rfl⟩,
      classify_of_tss hd, hz.1, hz.2, hb', hp, ho, hsep, hrow, BitVec.not_lt.2 hl, Bool.false_eq_true, Bool.true_eq_false, or_self, if_false]
    simp only [tss32Offset, ht, Bool.false_eq_true, if_false, Chk.ok_bind]

/-- A task switch goes on exactly when it is ready, and then with the committed state of R80. -/
theorem taskSwitch_eq_ok {k : DispatchKind} {sel : Sel} {next : Word} {s t : State} :
    taskSwitch k sel next s = .ok t ↔
      ∃ tr, SwitchReady k sel tr s ∧ t = commitSwitch k sel tr next (gdtSlot s tr.sel) (gdtSlot s sel) (tssAt s sel) s := by
  unfold taskSwitch
  cases htr : s.tr with
  | none =>
    constructor
    · intro h; cases h
    · rintro ⟨tr, h, _⟩; have := h.loaded; rw [htr] at this; cases this
  | some tr =>
    simp only [Chk.bind_eq_ok, refuseIf_eq_ok, addrSum_eq_ok, checkIncoming_eq_ok, Except.ok.injEq, Bool.not_eq_true, not_and, not_le]
    constructor
    · rintro ⟨_, hsh, x, ⟨rfl, h1, h2, h3, h4, h5, h6, h7, h8, h9, h10⟩, o, ⟨ho, rfl⟩, _, hw, rfl⟩
      exact ⟨tr, ⟨htr, hsh, h1, h2, h3, h4, h5, h6, h7, h8, h9, h10, ho, hw⟩, rfl⟩
    · rintro ⟨tr', h, rfl⟩
      obtain rfl : tr = tr' := by have := h.loaded; rw [htr] at this; exact Option.some.inj this
      exact ⟨(), h.noShadow, _, ⟨rfl, h.slot, h.isTss, h.zeros, h.busy, h.present, h.bigEnough, h.other, h.fit, h.apart, h.noTrap⟩,
        _, ⟨h.outSlot, rfl⟩, (), h.outBusy, rfl⟩

/-- An event goes on through a present task gate in the IDT, by a ready switch of kind INT that saves the boundary EIP (R77, R78). -/
theorem takeEvent_eq_ok {e : Event} {s t : State} :
    takeEvent e s = .ok t ↔
      s.cfg.mode = .protectedMode ∧ e.deliverable s.cfg = true ∧
      ∃ tssSel, GateInIdt s e.vector tssSel ∧ taskSwitch .int tssSel s.eip s = .ok t := by
  have hmode : ¬ s.cfg.mode = .long64 ↔ s.cfg.mode = .protectedMode := by cases s.cfg.mode <;> simp
  have key : ∀ v, dispatchVector v s = .ok t ↔ s.cfg.mode = .protectedMode ∧
      ∃ tssSel, GateInIdt s v tssSel ∧ taskSwitch .int tssSel s.eip s = .ok t := by
    intro v
    constructor
    · intro h
      simp only [dispatchVector, Chk.bind_eq_ok, refuseIf_eq_ok, idtAddr_eq_ok, memRead8_eq_ok] at h
      obtain ⟨_, hm, a, ⟨h1, h2, rfl⟩, d, ⟨hf, rfl⟩, h⟩ := h
      cases hc : classify (s.mem.read8 (s.cfg.idtBase.toNat + 8 * v)) with
      | other => simp only [hc] at h; cases h
      | tss g => simp only [hc] at h; cases h
      | gate g =>
        obtain ⟨hd, rfl⟩ := classify_eq_gate.1 hc
        simp only [hc, Chk.bind_eq_ok, raiseIf_eq_ok] at h
        obtain ⟨_, hp, h⟩ := h
        exact ⟨hmode.1 hm, _, ⟨h1, hf, hd, Bool.not_eq_false _ ▸ hp, rfl⟩, h⟩
    · rintro ⟨hm, tssSel, hg, h⟩
      have hf := hg.fits
      have ha : idtAddr s v = .ok (s.cfg.idtBase.toNat + 8 * v) := idtAddr_eq_ok.2 ⟨hg.inTable, by omega, rfl⟩
      have hp : (decodeGate (s.mem.read8 (s.cfg.idtBase.toNat + 8 * v))).p = true := hg.present
      have hn : (decodeGate (s.mem.read8 (s.cfg.idtBase.toNat + 8 * v))).tssSel = tssSel := hg.names
      simp only [dispatchVector, refuseIf_neg (hmode.2 hm), ha, memRead8_eq_ok.2 ⟨hf, rfl⟩, Chk.ok_bind, classify_of_gate hg.isGate, raiseIf,
        hp, hn, Bool.true_eq_false, if_false, h]
  cases e with
  | interrupt v => simp [takeEvent, key, Event.deliverable, Event.vector]
  | exception v =>
    simp only [takeEvent, Chk.bind_eq_ok, refuseIf_eq_ok, key, Event.deliverable, Event.vector, Bool.not_eq_true, Bool.not_eq_true']
    constructor
    · rintro ⟨_, h, hm, hr⟩; exact ⟨hm, h, hr⟩
    · rintro ⟨hm, h, hr⟩; exact ⟨(), h, hm, hr⟩

/-! ### The instructions -/

theorem mode_ne_long64 {m : Mode} : m ≠ .long64 ↔ m = .protectedMode := by cases m <;> simp

/-- JMP goes on by a ready switch of kind JMP (R74). -/
theorem execJmp_eq_next {sel : Sel} {off : Word} {s t : State} :
    execJmp sel off s = .next t ↔ s.cfg.mode = .protectedMode ∧ s.eip.toNat + s.lenOf (.jmp sel off) < 2 ^ 32 ∧
      ∃ tssSel, Reaches s sel tssSel ∧ taskSwitch .jmp tssSel (s.eipAfter (.jmp sel off)) s = .ok t := by
  simp only [execJmp, toOutcome_eq_next, Chk.bind_eq_ok, refuseIf_eq_ok, resolveTarget_eq_ok, nextEip_eq_ok]
  constructor
  · rintro ⟨_, hm, x, hr, e, ⟨he, rfl⟩, h⟩; exact ⟨mode_ne_long64.1 hm, he, x, hr, h⟩
  · rintro ⟨hm, he, x, hr, h⟩; exact ⟨(), mode_ne_long64.2 hm, x, hr, _, ⟨he, rfl⟩, h⟩

/-- CALL goes on by a ready switch of kind CALL (R75). -/
theorem execCall_eq_next {sel : Sel} {off : Word} {s t : State} :
    execCall sel off s = .next t ↔ s.cfg.mode = .protectedMode ∧ s.eip.toNat + s.lenOf (.call sel off) < 2 ^ 32 ∧
      ∃ tssSel, Reaches s sel tssSel ∧ taskSwitch .call tssSel (s.eipAfter (.call sel off)) s = .ok t := by
  simp only [execCall, toOutcome_eq_next, Chk.bind_eq_ok, refuseIf_eq_ok, resolveTarget_eq_ok, nextEip_eq_ok]
  constructor
  · rintro ⟨_, hm, x, hr, e, ⟨he, rfl⟩, h⟩; exact ⟨mode_ne_long64.1 hm, he, x, hr, h⟩
  · rintro ⟨hm, he, x, hr, h⟩; exact ⟨(), mode_ne_long64.2 hm, x, hr, _, ⟨he, rfl⟩, h⟩

/-- IRET goes on, with NT set, by a ready switch of kind IRET to the Previous Task Link (R76). -/
theorem execIret_eq_next {s t : State} :
    execIret s = .next t ↔ s.cfg.mode = .protectedMode ∧ s.eip.toNat + s.lenOf .iret < 2 ^ 32 ∧ ntFlag s.eflags = true ∧
      ∃ tr, s.tr = some tr ∧ taskSwitch .iret (s.mem.read2 tr.base.toNat) (s.eipAfter .iret) s = .ok t := by
  simp only [execIret, toOutcome_eq_next, Chk.bind_eq_ok, refuseIf_eq_ok]
  cases htr : s.tr with
  | none =>
    constructor
    · rintro ⟨_, _, _, _, h⟩; cases h
    · rintro ⟨_, _, _, _, h, _⟩; cases h
  | some tr =>
    simp only [previousLink, Chk.bind_eq_ok, memRead2_eq_ok, nextEip_eq_ok, tss32Offset, Nat.add_zero, Option.some.injEq]
    constructor
    · rintro ⟨_, hm, _, hn, l, ⟨hl, rfl⟩, e, ⟨he, rfl⟩, h⟩
      exact ⟨mode_ne_long64.1 hm, he, by simpa using hn, tr, rfl, h⟩
    · rintro ⟨hm, he, hn, tr', rfl, h⟩
      obtain ⟨tr', hr, _⟩ := taskSwitch_eq_ok.1 h
      obtain rfl : tr = tr' := by have := hr.loaded; rw [htr] at this; exact Option.some.inj this
      have := switchRanges_outgoing_fits hr.fit
      exact ⟨(), mode_ne_long64.2 hm, (), by simpa using hn, _, ⟨by omega, rfl⟩, _, ⟨he, rfl⟩, h⟩

/-- Every task switch of an instruction or an event is a ready switch in `Protected` mode, committed (R74 to R80). -/
theorem SwitchRun.cases {k : DispatchKind} {next : Word} {s t : State} (h : SwitchRun k next s t) :
    s.cfg.mode = .protectedMode ∧ ∃ tssSel tr, SwitchReady k tssSel tr s ∧
      t = commitSwitch k tssSel tr next (gdtSlot s tr.sel) (gdtSlot s tssSel) (tssAt s tssSel) s := by
  cases k with
  | jmp =>
    obtain ⟨sel, off, h, rfl⟩ := h
    obtain ⟨hm, _, tssSel, _, h⟩ := execJmp_eq_next.1 h
    obtain ⟨tr, hr, ht⟩ := taskSwitch_eq_ok.1 h
    exact ⟨hm, tssSel, tr, hr, ht⟩
  | call =>
    obtain ⟨sel, off, h, rfl⟩ := h
    obtain ⟨hm, _, tssSel, _, h⟩ := execCall_eq_next.1 h
    obtain ⟨tr, hr, ht⟩ := taskSwitch_eq_ok.1 h
    exact ⟨hm, tssSel, tr, hr, ht⟩
  | iret =>
    obtain ⟨h, rfl⟩ := h
    obtain ⟨hm, _, _, _, _, h⟩ := execIret_eq_next.1 h
    obtain ⟨tr, hr, ht⟩ := taskSwitch_eq_ok.1 h
    exact ⟨hm, _, tr, hr, ht⟩
  | int =>
    obtain ⟨⟨e, h⟩, rfl⟩ := h
    obtain ⟨hm, _, tssSel, _, h⟩ := takeEvent_eq_ok.1 (toOutcome_eq_next.1 h)
    obtain ⟨tr, hr, ht⟩ := taskSwitch_eq_ok.1 h
    exact ⟨hm, tssSel, tr, hr, ht⟩

/-- What LTR can do when it goes on (R69, R70): the checks have passed, one byte, TR and EIP change. -/
theorem execLtr_eq_next {r : Reg} {s t : State} :
    execLtr r s = .next t ↔ (LtrReady s (s.gprs.low16 r) (s.lenOf (.ltr r)) ∨ LtrReady64 s (s.gprs.low16 r) (s.lenOf (.ltr r))) ∧
      t = ((s.withMem (setBusy s.mem (gdtSlot s (s.gprs.low16 r)))).withTr
        (taskRegOf (s.gprs.low16 r) (modeTssAt s (s.gprs.low16 r)))).withEip (s.eipAfter (.ltr r)) := by
  generalize hsel : s.gprs.low16 r = sel
  have hlow := Memory.low64_read16 s.mem
  simp only [execLtr, hsel, toOutcome_eq_next, Chk.bind_eq_ok, checkLtr, raiseIf_eq_ok, refuseIf_eq_ok, nextEip_eq_ok,
    Except.ok.injEq, not_or, Bool.not_eq_true, Bool.not_eq_false, ne_eq, not_not]
  constructor
  · rintro ⟨x, ⟨_, hcpl, _, hti, a, ha, d, hd, _, hz, _, hz0, _, hb, _, hp, e, ⟨he, rfl⟩, rfl⟩, rfl⟩
    obtain ⟨hlt, ⟨h1, h2, h3, rfl⟩ | ⟨h1, _⟩⟩ := descAddr_eq_ok.1 ha
    · cases hm : s.cfg.mode with
      | protectedMode =>
        simp only [readLtrDesc, hm, Chk.bind_eq_ok, memRead8_eq_ok] at hd
        obtain ⟨_, ⟨hf, rfl⟩, hd⟩ := hd
        cases hc : classify (s.mem.read8 (gdtSlot s sel)) with
        | other => simp only [hc] at hd; cases hd
        | gate g => simp only [hc] at hd; cases hd
        | tss t =>
          obtain ⟨hcd, rfl⟩ := classify_eq_tss.1 hc
          simp only [hc, Except.ok.injEq] at hd
          subst hd
          rw [hm] at h3
          exact ⟨.inl ⟨hm, hcpl, ⟨h1, h2, h3, hm.symm ▸ hf⟩, hcd, hz, hb, hp, he⟩, by simp [modeTssAt, hm]⟩
      | long64 =>
        simp only [readLtrDesc, hm, Chk.bind_eq_ok, memRead16_eq_ok] at hd
        obtain ⟨_, ⟨hf, rfl⟩, hd⟩ := hd
        rw [hlow] at hd
        cases hc : classify (s.mem.read8 (gdtSlot s sel)) with
        | other => simp only [hc] at hd; cases hd
        | gate g => simp only [hc] at hd; cases hd
        | tss t =>
          obtain ⟨hcd, rfl⟩ := classify_eq_tss.1 hc
          simp only [hc, Except.ok.injEq] at hd
          subst hd
          rw [hm] at h3
          simp only [decodeTss64, hlow] at hz hb hp hz0
          exact ⟨.inr ⟨hm, hcpl, ⟨h1, h2, h3, hm.symm ▸ hf⟩, hcd, hz, hz0, hb, hp, he⟩, by simp [modeTssAt, hm]⟩
    · rw [hti] at h1; cases h1
  · rintro ⟨h | h, rfl⟩
    · refine ⟨(gdtSlot s sel, decodeTss32 (s.mem.read8 (gdtSlot s sel)), _), ⟨(), h.cpl, (), h.slot.global, gdtSlot s sel, ?_, _, ?_, (), h.zeros, (), rfl, (),
        h.notBusy, (), h.present, _, ⟨h.nextFits, rfl⟩, rfl⟩, by simp [modeTssAt, h.mode]⟩
      · rw [h.mode]; exact descAddr_of_inGdt (by decide) h.slot
      · simp only [readLtrDesc, h.mode, memRead8_eq_ok.2 ⟨h.slot.fits, rfl⟩, Chk.ok_bind, classify_of_tss h.isTss]
    · refine ⟨(gdtSlot s sel, decodeTss64 (s.mem.read16 (gdtSlot s sel)), _), ⟨(), h.cpl, (), h.slot.global, gdtSlot s sel, ?_, _, ?_, (), ?_, (), h.zero, (),
        ?_, (), ?_, _, ⟨h.nextFits, rfl⟩, rfl⟩, by simp [modeTssAt, h.mode]⟩
      · rw [h.mode]; exact descAddr_of_inGdt (by decide) h.slot
      · simp only [readLtrDesc, h.mode, memRead16_eq_ok.2 ⟨h.slot.fits, rfl⟩, Chk.ok_bind, hlow, classify_of_tss h.isTss]
      · simp only [decodeTss64, hlow]; exact h.zeros
      · simp only [decodeTss64, hlow]; exact h.notBusy
      · simp only [decodeTss64, hlow]; exact h.present

/-! ### The step -/

/-- What a step can do when it goes on: stay at a stop, take the event offered, or run the instruction at the location (R77, R96, R113). -/
theorem step_eq_next {s t : State} :
    step s = .next t ↔ s.outcome = .running ∧
      ((∃ e rest, s.offers = some e :: rest ∧ takeEvent e (s.withOffers rest) = .ok t) ∨
       (Final s ∧ t = s) ∨
       ((∀ e rest, s.offers ≠ some e :: rest) ∧ atStop s = false ∧
          ∃ e, fetch s = some e ∧ exec e.term (s.withOffers s.offers.tail) = .next t)) := by
  have hstop : atStop s = true ↔ s.codeLoc ∈ s.cfg.stops := by simp [atStop]
  have plain : (∀ e rest, s.offers ≠ some e :: rest) → s.outcome = .running →
      (step s = .next t ↔ (atStop s = true ∧ t = s) ∨ (atStop s = false ∧
          ∃ e, fetch s = some e ∧ exec e.term (s.withOffers s.offers.tail) = .next t)) := by
    intro ho hr
    have hs : step s = if atStop s then .next s else
        match fetch s with
        | some e => exec e.term (s.withOffers s.offers.tail)
        | none => .refused .noInstruction := by
      unfold step
      rw [hr]
      dsimp only
      split
      · next e rest he => exact absurd he (ho e rest)
      · rfl
    rw [hs]
    cases atStop s
    · cases hf : fetch s <;> simp
    · simp [eq_comm]
  cases hr : s.outcome with
  | faulted f => simp [step, hr]
  | refused r => simp [step, hr]
  | running =>
    by_cases ho : ∃ e rest, s.offers = some e :: rest
    · obtain ⟨e, rest, he⟩ := ho
      have hs : step s = toOutcome (takeEvent e (s.withOffers rest)) := by simp [step, hr, he]
      rw [hs, toOutcome_eq_next]
      constructor
      · exact fun h => ⟨rfl, .inl ⟨e, rest, he, h⟩⟩
      · rintro ⟨_, ⟨e', rest', he', h⟩ | ⟨hf, _⟩ | ⟨hn, _⟩⟩
        · rw [he] at he'; cases he'; exact h
        · exact absurd he (hf.2.2 e rest)
        · exact absurd he (hn e rest)
    · have ho' : ∀ e rest, s.offers ≠ some e :: rest := fun e rest he => ho ⟨e, rest, he⟩
      rw [plain ho' hr]
      constructor
      · rintro (⟨h1, h2⟩ | h)
        · exact ⟨rfl, .inr (.inl ⟨⟨hr, hstop.1 h1, ho'⟩, h2⟩)⟩
        · exact ⟨rfl, .inr (.inr ⟨ho', h⟩)⟩
      · rintro ⟨_, ⟨e, rest, he, _⟩ | ⟨hf, h2⟩ | ⟨_, h⟩⟩
        · exact absurd he (ho' e rest)
        · exact .inl ⟨hstop.2 hf.2.1, h2⟩
        · exact .inr h

end Sys2Proof.Machine
end

