-- ==== Sys2Proof/Laws/PerInstr.lean ====
section
/-! SUPPORT. Statements for every instruction term, one lemma for each constructor. -/

/-- R63, R64: the encoding has the length of the instruction, which is positive and at most that of the longest term. -/
def Sys2Proof.Laws.EncodeLength.Statement (i : Sys2Proof.Instr) : Prop :=
  (Sys2Proof.encode i).length = i.length ∧ 0 < i.length ∧ i.length ≤ Sys2Proof.maxInstrLength

namespace Sys2Proof.Laws.EncodeLength

theorem ltr (r : Reg) : Statement (.ltr r) := ⟨rfl, by simp [Instr.length], by simp [Instr.length, maxInstrLength]⟩

theorem jmp (sel : Sel) (off : Word) : Statement (.jmp sel off) := ⟨rfl, by simp [Instr.length], by simp [Instr.length, maxInstrLength]⟩

theorem call (sel : Sel) (off : Word) : Statement (.call sel off) := ⟨rfl, by simp [Instr.length], by simp [Instr.length, maxInstrLength]⟩

theorem iret : Statement .iret := ⟨rfl, by decide, by decide⟩

end Sys2Proof.Laws.EncodeLength
end

