-- ==== Sys2Proof/Laws/Program.lean ====
section
/-! SUPPORT. The program text: what stands at a location after a term is placed, removed or loaded, the canonical form, and `len`. -/

namespace Sys2Proof.Machine

/-- The place of a location is its own: selectors have 16 bits and EIP 32. -/
theorem codePlace_inj {l k : CodeLoc} (h : codePlace l = codePlace k) : l = k := by
  obtain ⟨a, b⟩ := l
  obtain ⟨c, d⟩ := k
  simp only [codePlace] at h
  have hb := b.isLt
  have hd := d.isLt
  have h1 : a = c := BitVec.eq_of_toNat_eq (by omega)
  have h2 : b = d := BitVec.eq_of_toNat_eq (by omega)
  rw [h1, h2]

@[simp] theorem CodeStore.lookup_place_same (c : CodeStore) (l : CodeLoc) (e : CodeEntry) : (c.place l e).lookup l = some e := by
  induction c with
  | nil => simp [CodeStore.place, CodeStore.lookup]
  | cons x rest ih =>
    obtain ⟨k, v⟩ := x
    rw [CodeStore.place]
    split
    · simp [CodeStore.lookup]
    · split
      · simp [CodeStore.lookup]
      · next h => rw [CodeStore.lookup, if_neg (fun hk => h hk.symm), ih]

theorem CodeStore.lookup_place_other (c : CodeStore) {l l' : CodeLoc} (e : CodeEntry) (h : l' ≠ l) : (c.place l e).lookup l' = c.lookup l' := by
  induction c with
  | nil => simp [CodeStore.place, CodeStore.lookup, h.symm]
  | cons x rest ih =>
    obtain ⟨k, v⟩ := x
    rw [CodeStore.place]
    split
    · rw [CodeStore.lookup, if_neg h.symm]
    · split
      · next hk => subst hk; rw [CodeStore.lookup, CodeStore.lookup, if_neg h.symm, if_neg h.symm]
      · rw [CodeStore.lookup, CodeStore.lookup, ih]

@[simp] theorem CodeStore.lookup_remove_same (c : CodeStore) (l : CodeLoc) : (c.remove l).lookup l = none := by
  induction c with
  | nil => rfl
  | cons x rest ih =>
    obtain ⟨k, v⟩ := x
    by_cases h : k = l
    · simpa [CodeStore.remove, h] using ih
    · have : CodeStore.remove ((k, v) :: rest) l = (k, v) :: CodeStore.remove rest l := by simp [CodeStore.remove, h]
      rw [this, CodeStore.lookup, if_neg h, ih]

theorem CodeStore.lookup_remove_other (c : CodeStore) {l l' : CodeLoc} (h : l' ≠ l) : (c.remove l).lookup l' = c.lookup l' := by
  induction c with
  | nil => rfl
  | cons x rest ih =>
    obtain ⟨k, v⟩ := x
    by_cases hk : k = l
    · have : CodeStore.remove ((k, v) :: rest) l = CodeStore.remove rest l := by simp [CodeStore.remove, hk]
      rw [this, ih, CodeStore.lookup, if_neg (by rw [hk]; exact h.symm)]
    · have : CodeStore.remove ((k, v) :: rest) l = (k, v) :: CodeStore.remove rest l := by simp [CodeStore.remove, hk]
      rw [this, CodeStore.lookup, CodeStore.lookup, ih]

theorem CodeStore.mem_place {c : CodeStore} {l : CodeLoc} {e : CodeEntry} {x : CodeLoc × CodeEntry} (h : x ∈ c.place l e) : x = (l, e) ∨ x ∈ c := by
  induction c with
  | nil => exact .inl (by simpa [CodeStore.place] using h)
  | cons y rest ih =>
    obtain ⟨k, v⟩ := y
    rw [CodeStore.place] at h
    split at h
    · rcases List.mem_cons.1 h with h | h
      · exact .inl h
      · exact .inr h
    · split at h
      · rcases List.mem_cons.1 h with h | h
        · exact .inl h
        · exact .inr (List.mem_cons_of_mem _ h)
      · rcases List.mem_cons.1 h with h | h
        · exact .inr (h ▸ List.mem_cons_self)
        · exact (ih h).imp id (List.mem_cons_of_mem _)

/-- Placing a term with a positive length keeps the canonical form. -/
theorem CodeStore.wf_place {c : CodeStore} (h : c.wf) (l : CodeLoc) {e : CodeEntry} (he : 0 < e.len) : (c.place l e).wf := by
  refine ⟨?_, fun x hx => (CodeStore.mem_place hx).elim (fun h => h ▸ he) (h.2 x)⟩
  have key := h.1
  clear h
  induction c with
  | nil => simp [CodeStore.place]
  | cons y rest ih =>
    obtain ⟨k, v⟩ := y
    obtain ⟨h1, h2⟩ := List.pairwise_cons.1 key
    rw [CodeStore.place]
    split
    · next hlt =>
      refine List.pairwise_cons.2 ⟨fun x hx => ?_, key⟩
      rcases List.mem_cons.1 hx with rfl | hx
      · exact hlt
      · exact Nat.lt_trans hlt (h1 x hx)
    · split
      · next hk => subst hk; exact List.pairwise_cons.2 ⟨h1, h2⟩
      · next hge hne =>
        refine List.pairwise_cons.2 ⟨fun x hx => ?_, ih h2⟩
        rcases CodeStore.mem_place hx with rfl | hx
        · have : codePlace l ≠ codePlace k := fun h => hne (codePlace_inj h)
          show codePlace k < codePlace l
          omega
        · exact h1 x hx

theorem CodeStore.wf_remove {c : CodeStore} (h : c.wf) (l : CodeLoc) : (c.remove l).wf :=
  ⟨h.1.sublist List.filter_sublist, fun x hx => h.2 x (List.mem_of_mem_filter hx)⟩

/-! ### `len` (R64) -/

/-- The length of the term at the current location is the one `code` gives it. -/
theorem State.lenOf_of_fetch {s : State} {e : CodeEntry} (h : fetch s = some e) : s.lenOf e.term = e.len := by
  rw [State.lenOf, h]; exact if_pos rfl

/-- Where `code` has nothing, the length is that of R63. -/
theorem State.lenOf_of_no_fetch {s : State} {i : Instr} (h : fetch s = none) : s.lenOf i = i.length := by
  rw [State.lenOf, h]

/-! The length and the next EIP do not depend on memory, TR or the offers. -/

@[simp] theorem State.withOffers_lenOf (s : State) (os : List (Option Event)) (i : Instr) : (s.withOffers os).lenOf i = s.lenOf i := rfl
@[simp] theorem State.withMem_lenOf (s : State) (m : Memory) (i : Instr) : (s.withMem m).lenOf i = s.lenOf i := rfl
@[simp] theorem State.withTr_lenOf (s : State) (r : TaskReg) (i : Instr) : (s.withTr r).lenOf i = s.lenOf i := rfl
@[simp] theorem State.withOffers_eipAfter (s : State) (os : List (Option Event)) (i : Instr) : (s.withOffers os).eipAfter i = s.eipAfter i := rfl
@[simp] theorem State.withMem_eipAfter (s : State) (m : Memory) (i : Instr) : (s.withMem m).eipAfter i = s.eipAfter i := rfl
@[simp] theorem State.withTr_eipAfter (s : State) (r : TaskReg) (i : Instr) : (s.withTr r).eipAfter i = s.eipAfter i := rfl

end Sys2Proof.Machine
end

