-- ==== Sys2Proof/Laws/Switch.lean ====
section
/-! SUPPORT. What the task switch does to memory: the saved context reads back, everything else is left alone, the canonical form is kept. -/

namespace Sys2Proof.Machine

/-! ### The saved context (R82) -/

/-- Nothing but the dynamic fields is written. -/
theorem byte_saveContext_other (m : Memory) {ob x : Nat} (next img : Word) (g : Gprs) (r : SegRegs) (h : ¬ dynamicByte ob x) :
    (saveContext m ob next img g r).byte x = m.byte x := by
  have h1 : x < ob + 32 ∨ ob + 72 ≤ x := by
    by_contra hc; exact h (.inl (by omega))
  have h2 : ∀ j, j < 6 → x ≠ ob + 72 + 4 * j ∧ x ≠ ob + 73 + 4 * j := fun j hj =>
    ⟨fun e => h (.inr ⟨j, hj, .inl e⟩), fun e => h (.inr ⟨j, hj, .inr e⟩)⟩
  have j0 := h2 0 (by decide)
  have j1 := h2 1 (by decide)
  have j2 := h2 2 (by decide)
  have j3 := h2 3 (by decide)
  have j4 := h2 4 (by decide)
  have j5 := h2 5 (by decide)
  simp only [saveContext, tss32Offset]
  rw [Memory.byte_write2_other _ _ (by omega), Memory.byte_write2_other _ _ (by omega), Memory.byte_write2_other _ _ (by omega),
    Memory.byte_write2_other _ _ (by omega), Memory.byte_write2_other _ _ (by omega), Memory.byte_write2_other _ _ (by omega),
    Memory.byte_write4_other _ _ (by omega), Memory.byte_write4_other _ _ (by omega), Memory.byte_write4_other _ _ (by omega),
    Memory.byte_write4_other _ _ (by omega), Memory.byte_write4_other _ _ (by omega), Memory.byte_write4_other _ _ (by omega),
    Memory.byte_write4_other _ _ (by omega), Memory.byte_write4_other _ _ (by omega), Memory.byte_write4_other _ _ (by omega),
    Memory.byte_write4_other _ _ (by omega)]

/-- A dynamic byte lies in the rows 32 to 93 of its TSS. -/
theorem dynamicByte_range {ob x : Nat} (h : dynamicByte ob x) : ob + 32 ≤ x ∧ x < ob + 94 := by
  rcases h with h | ⟨j, hj, h | h⟩ <;> omega

section
variable (m : Memory) (ob : Nat) (next img : Word) (g : Gprs) (r : SegRegs)

@[simp] theorem read_saved_eip : (saveContext m ob next img g r).read4 (ob + 32) = next := by
  simp only [saveContext, tss32Offset]
  rw [Memory.read4_write2_other _ _ (by omega), Memory.read4_write2_other _ _ (by omega), Memory.read4_write2_other _ _ (by omega), Memory.read4_write2_other _ _ (by omega), Memory.read4_write2_other _ _ (by omega), Memory.read4_write2_other _ _ (by omega), Memory.read4_write4_other _ _ (by omega), Memory.read4_write4_other _ _ (by omega), Memory.read4_write4_other _ _ (by omega), Memory.read4_write4_other _ _ (by omega), Memory.read4_write4_other _ _ (by omega), Memory.read4_write4_other _ _ (by omega), Memory.read4_write4_other _ _ (by omega), Memory.read4_write4_other _ _ (by omega), Memory.read4_write4_other _ _ (by omega), Memory.read4_write4_same]
@[simp] theorem read_saved_eflags : (saveContext m ob next img g r).read4 (ob + 36) = img := by
  simp only [saveContext, tss32Offset]
  rw [Memory.read4_write2_other _ _ (by omega), Memory.read4_write2_other _ _ (by omega), Memory.read4_write2_other _ _ (by omega), Memory.read4_write2_other _ _ (by omega), Memory.read4_write2_other _ _ (by omega), Memory.read4_write2_other _ _ (by omega), Memory.read4_write4_other _ _ (by omega), Memory.read4_write4_other _ _ (by omega), Memory.read4_write4_other _ _ (by omega), Memory.read4_write4_other _ _ (by omega), Memory.read4_write4_other _ _ (by omega), Memory.read4_write4_other _ _ (by omega), Memory.read4_write4_other _ _ (by omega), Memory.read4_write4_other _ _ (by omega), Memory.read4_write4_same]
@[simp] theorem read_saved_eax : (saveContext m ob next img g r).read4 (ob + 40) = g.eax := by
  simp only [saveContext, tss32Offset]
  rw [Memory.read4_write2_other _ _ (by omega), Memory.read4_write2_other _ _ (by omega), Memory.read4_write2_other _ _ (by omega), Memory.read4_write2_other _ _ (by omega), Memory.read4_write2_other _ _ (by omega), Memory.read4_write2_other _ _ (by omega), Memory.read4_write4_other _ _ (by omega), Memory.read4_write4_other _ _ (by omega), Memory.read4_write4_other _ _ (by omega), Memory.read4_write4_other _ _ (by omega), Memory.read4_write4_other _ _ (by omega), Memory.read4_write4_other _ _ (by omega), Memory.read4_write4_other _ _ (by omega), Memory.read4_write4_same]
@[simp] theorem read_saved_ecx : (saveContext m ob next img g r).read4 (ob + 44) = g.ecx := by
  simp only [saveContext, tss32Offset]
  rw [Memory.read4_write2_other _ _ (by omega), Memory.read4_write2_other _ _ (by omega), Memory.read4_write2_other _ _ (by omega), Memory.read4_write2_other _ _ (by omega), Memory.read4_write2_other _ _ (by omega), Memory.read4_write2_other _ _ (by omega), Memory.read4_write4_other _ _ (by omega), Memory.read4_write4_other _ _ (by omega), Memory.read4_write4_other _ _ (by omega), Memory.read4_write4_other _ _ (by omega), Memory.read4_write4_other _ _ (by omega), Memory.read4_write4_other _ _ (by omega), Memory.read4_write4_same]
@[simp] theorem read_saved_edx : (saveContext m ob next img g r).read4 (ob + 48) = g.edx := by
  simp only [saveContext, tss32Offset]
  rw [Memory.read4_write2_other _ _ (by omega), Memory.read4_write2_other _ _ (by omega), Memory.read4_write2_other _ _ (by omega), Memory.read4_write2_other _ _ (by omega), Memory.read4_write2_other _ _ (by omega), Memory.read4_write2_other _ _ (by omega), Memory.read4_write4_other _ _ (by omega), Memory.read4_write4_other _ _ (by omega), Memory.read4_write4_other _ _ (by omega), Memory.read4_write4_other _ _ (by omega), Memory.read4_write4_other _ _ (by omega), Memory.read4_write4_same]
@[simp] theorem read_saved_ebx : (saveContext m ob next img g r).read4 (ob + 52) = g.ebx := by
  simp only [saveContext, tss32Offset]
  rw [Memory.read4_write2_other _ _ (by omega), Memory.read4_write2_other _ _ (by omega), Memory.read4_write2_other _ _ (by omega), Memory.read4_write2_other _ _ (by omega), Memory.read4_write2_other _ _ (by omega), Memory.read4_write2_other _ _ (by omega), Memory.read4_write4_other _ _ (by omega), Memory.read4_write4_other _ _ (by omega), Memory.read4_write4_other _ _ (by omega), Memory.read4_write4_other _ _ (by omega), Memory.read4_write4_same]
@[simp] theorem read_saved_esp : (saveContext m ob next img g r).read4 (ob + 56) = g.esp := by
  simp only [saveContext, tss32Offset]
  rw [Memory.read4_write2_other _ _ (by omega), Memory.read4_write2_other _ _ (by omega), Memory.read4_write2_other _ _ (by omega), Memory.read4_write2_other _ _ (by omega), Memory.read4_write2_other _ _ (by omega), Memory.read4_write2_other _ _ (by omega), Memory.read4_write4_other _ _ (by omega), Memory.read4_write4_other _ _ (by omega), Memory.read4_write4_other _ _ (by omega), Memory.read4_write4_same]
@[simp] theorem read_saved_ebp : (saveContext m ob next img g r).read4 (ob + 60) = g.ebp := by
  simp only [saveContext, tss32Offset]
  rw [Memory.read4_write2_other _ _ (by omega), Memory.read4_write2_other _ _ (by omega), Memory.read4_write2_other _ _ (by omega), Memory.read4_write2_other _ _ (by omega), Memory.read4_write2_other _ _ (by omega), Memory.read4_write2_other _ _ (by omega), Memory.read4_write4_other _ _ (by omega), Memory.read4_write4_other _ _ (by omega), Memory.read4_write4_same]
@[simp] theorem read_saved_esi : (saveContext m ob next img g r).read4 (ob + 64) = g.esi := by
  simp only [saveContext, tss32Offset]
  rw [Memory.read4_write2_other _ _ (by omega), Memory.read4_write2_other _ _ (by omega), Memory.read4_write2_other _ _ (by omega), Memory.read4_write2_other _ _ (by omega), Memory.read4_write2_other _ _ (by omega), Memory.read4_write2_other _ _ (by omega), Memory.read4_write4_other _ _ (by omega), Memory.read4_write4_same]
@[simp] theorem read_saved_edi : (saveContext m ob next img g r).read4 (ob + 68) = g.edi := by
  simp only [saveContext, tss32Offset]
  rw [Memory.read4_write2_other _ _ (by omega), Memory.read4_write2_other _ _ (by omega), Memory.read4_write2_other _ _ (by omega), Memory.read4_write2_other _ _ (by omega), Memory.read4_write2_other _ _ (by omega), Memory.read4_write2_other _ _ (by omega), Memory.read4_write4_same]
@[simp] theorem read_saved_es : (saveContext m ob next img g r).read2 (ob + 72) = r.es := by
  simp only [saveContext, tss32Offset]
  rw [Memory.read2_write2_other _ _ (by omega), Memory.read2_write2_other _ _ (by omega), Memory.read2_write2_other _ _ (by omega), Memory.read2_write2_other _ _ (by omega), Memory.read2_write2_other _ _ (by omega), Memory.read2_write2_same]
@[simp] theorem read_saved_cs : (saveContext m ob next img g r).read2 (ob + 76) = r.cs := by
  simp only [saveContext, tss32Offset]
  rw [Memory.read2_write2_other _ _ (by omega), Memory.read2_write2_other _ _ (by omega), Memory.read2_write2_other _ _ (by omega), Memory.read2_write2_other _ _ (by omega), Memory.read2_write2_same]
@[simp] theorem read_saved_ss : (saveContext m ob next img g r).read2 (ob + 80) = r.ss := by
  simp only [saveContext, tss32Offset]
  rw [Memory.read2_write2_other _ _ (by omega), Memory.read2_write2_other _ _ (by omega), Memory.read2_write2_other _ _ (by omega), Memory.read2_write2_same]
@[simp] theorem read_saved_ds : (saveContext m ob next img g r).read2 (ob + 84) = r.ds := by
  simp only [saveContext, tss32Offset]
  rw [Memory.read2_write2_other _ _ (by omega), Memory.read2_write2_other _ _ (by omega), Memory.read2_write2_same]
@[simp] theorem read_saved_fs : (saveContext m ob next img g r).read2 (ob + 88) = r.fs := by
  simp only [saveContext, tss32Offset]
  rw [Memory.read2_write2_other _ _ (by omega), Memory.read2_write2_same]
@[simp] theorem read_saved_gs : (saveContext m ob next img g r).read2 (ob + 92) = r.gs := by
  simp only [saveContext, tss32Offset]
  rw [Memory.read2_write2_same]

/-- Loading the registers from a saved context gives them back (R87). -/
theorem loadGprs_saveContext : loadGprs (saveContext m ob next img g r) ob = g := by
  simp [loadGprs, tss32Offset]

theorem loadSegs_saveContext : loadSegs (saveContext m ob next img g r) ob = r := by
  simp [loadSegs, tss32Offset]

end

theorem loadGprs_congr {m m' : Memory} {a : Nat} (h : m.agree m' (a + 40) 32) : loadGprs m a = loadGprs m' a := by
  have e : ∀ o, 40 ≤ o → o ≤ 68 → m.read4 (a + o) = m'.read4 (a + o) := fun o h1 h2 =>
    Memory.read4_congr fun x h3 h4 => h x (by omega) (by omega)
  simp only [loadGprs, tss32Offset, e 40 (by omega) (by omega), e 44 (by omega) (by omega), e 48 (by omega) (by omega),
    e 52 (by omega) (by omega), e 56 (by omega) (by omega), e 60 (by omega) (by omega), e 64 (by omega) (by omega),
    e 68 (by omega) (by omega)]

theorem loadSegs_congr {m m' : Memory} {a : Nat} (h : m.agree m' (a + 72) 22) : loadSegs m a = loadSegs m' a := by
  have e : ∀ o, 72 ≤ o → o ≤ 92 → m.read2 (a + o) = m'.read2 (a + o) := fun o h1 h2 =>
    Memory.read2_congr fun x h3 h4 => h x (by omega) (by omega)
  simp only [loadSegs, tss32Offset, e 72 (by omega) (by omega), e 76 (by omega) (by omega), e 80 (by omega) (by omega),
    e 84 (by omega) (by omega), e 88 (by omega) (by omega), e 92 (by omega) (by omega)]

theorem wf_saveContext {m : Memory} (h : m.wf) (ob : Nat) (next img : Word) (g : Gprs) (r : SegRegs) :
    (saveContext m ob next img g r).wf := by
  simp only [saveContext]
  exact Memory.wf_write2 (Memory.wf_write2 (Memory.wf_write2 (Memory.wf_write2 (Memory.wf_write2 (Memory.wf_write2 (Memory.wf_write4 (Memory.wf_write4 (Memory.wf_write4 (Memory.wf_write4 (Memory.wf_write4 (Memory.wf_write4 (Memory.wf_write4 (Memory.wf_write4 (Memory.wf_write4 (Memory.wf_write4 h _ _) _ _) _ _) _ _) _ _) _ _) _ _) _ _) _ _) _ _) _ _) _ _) _ _) _ _) _ _) _ _

theorem below_saveContext {m : Memory} {n : Nat} (h : m.below n) {ob : Nat} (hob : ob + 103 < n) (next img : Word) (g : Gprs)
    (r : SegRegs) : (saveContext m ob next img g r).below n := by
  simp only [saveContext, tss32Offset]
  exact Memory.below_write2 (Memory.below_write2 (Memory.below_write2 (Memory.below_write2 (Memory.below_write2 (Memory.below_write2 (Memory.below_write4 (Memory.below_write4 (Memory.below_write4 (Memory.below_write4 (Memory.below_write4 (Memory.below_write4 (Memory.below_write4 (Memory.below_write4 (Memory.below_write4 (Memory.below_write4 h (by omega) _) (by omega) _) (by omega) _) (by omega) _) (by omega) _) (by omega) _) (by omega) _) (by omega) _) (by omega) _) (by omega) _) (by omega) _) (by omega) _) (by omega) _) (by omega) _) (by omega) _) (by omega) _

/-! ### The busy flag (R42, R83) -/

theorem byte_setBusy_other (m : Memory) {d x : Nat} (h : x ≠ d + 5) : (setBusy m d).byte x = m.byte x :=
  Memory.byte_setByte_other _ _ h

theorem byte_clearBusy_other (m : Memory) {d x : Nat} (h : x ≠ d + 5) : (clearBusy m d).byte x = m.byte x :=
  Memory.byte_setByte_other _ _ h

@[simp] theorem byte_setBusy_same (m : Memory) (d : Nat) : (setBusy m d).byte (d + 5) = m.byte (d + 5) ||| 0x02 :=
  Memory.byte_setByte_same _ _ _

@[simp] theorem byte_clearBusy_same (m : Memory) (d : Nat) : (clearBusy m d).byte (d + 5) = m.byte (d + 5) &&& 0xFD :=
  Memory.byte_setByte_same _ _ _

/-- The bits of the byte 0x02: bit 1 and no other. -/
theorem getLsbD_busyMask : ∀ k < 8, (0x02 : Byte).getLsbD k = decide (k = 1) := by decide

/-- The bits of the byte 0xFD: all but bit 1. -/
theorem getLsbD_busyMask_not : ∀ k < 8, (0xFD : Byte).getLsbD k = decide (k ≠ 1) := by decide

/-- Setting the busy flag sets bit 41 of the descriptor and leaves every other bit. -/
theorem getLsbD_read8_setBusy (m : Memory) (d : Nat) {k : Nat} (hk : k < 64) :
    ((setBusy m d).read8 d).getLsbD k = ((m.read8 d).getLsbD k || decide (k = 41)) := by
  rw [Memory.getLsbD_read8 _ _ hk, Memory.getLsbD_read8 _ _ hk]
  by_cases h : k / 8 = 5
  · rw [h, byte_setBusy_same, BitVec.getLsbD_or, getLsbD_busyMask _ (by omega)]
    congr 1; simp only [decide_eq_decide]; omega
  · rw [byte_setBusy_other _ (by omega)]
    simp [show k ≠ 41 by omega]

theorem getLsbD_read16_setBusy (m : Memory) (d : Nat) {k : Nat} (hk : k < 128) :
    ((setBusy m d).read16 d).getLsbD k = ((m.read16 d).getLsbD k || decide (k = 41)) := by
  rw [Memory.getLsbD_read16 _ _ hk, Memory.getLsbD_read16 _ _ hk]
  by_cases h : k / 8 = 5
  · rw [h, byte_setBusy_same, BitVec.getLsbD_or, getLsbD_busyMask _ (by omega)]
    congr 1; simp only [decide_eq_decide]; omega
  · rw [byte_setBusy_other _ (by omega)]
    simp [show k ≠ 41 by omega]

/-- Clearing the busy flag clears bit 41 of the descriptor and leaves every other bit. -/
theorem getLsbD_read8_clearBusy (m : Memory) (d : Nat) {k : Nat} (hk : k < 64) :
    ((clearBusy m d).read8 d).getLsbD k = ((m.read8 d).getLsbD k && decide (k ≠ 41)) := by
  rw [Memory.getLsbD_read8 _ _ hk, Memory.getLsbD_read8 _ _ hk]
  by_cases h : k / 8 = 5
  · rw [h, byte_clearBusy_same, BitVec.getLsbD_and, getLsbD_busyMask_not _ (by omega)]
    congr 1; simp only [decide_eq_decide]; omega
  · rw [byte_clearBusy_other _ (by omega)]
    simp [show k ≠ 41 by omega]

/-- A field of a value that does not contain bit `b` is the same in two values that differ in that bit only. -/
theorem extractLsb'_congr {w : Nat} {x y : BitVec w} {lo n : Nat} (h : ∀ k, lo ≤ k → k < lo + n → k < w → x.getLsbD k = y.getLsbD k) :
    x.extractLsb' lo n = y.extractLsb' lo n := by
  apply BitVec.eq_of_getLsbD_eq
  intro i hi
  rw [BitVec.getLsbD_extractLsb', BitVec.getLsbD_extractLsb']
  by_cases hw : lo + i < w
  · rw [h (lo + i) (by omega) (by omega) hw]
  · rw [BitVec.getLsbD_of_ge _ _ (by omega), BitVec.getLsbD_of_ge _ _ (by omega)]

/-- Two 32-bit-format descriptors that agree in every bit but 41 decode alike but for the type and the busy flag. -/
theorem decodeTss32_of_agree {x y : BitVec 64} (h : ∀ k, k < 64 → k ≠ 41 → x.getLsbD k = y.getLsbD k) :
    decodeTss32 x = { decodeTss32 y with type := (decodeTss32 x).type, b := (decodeTss32 x).b } := by
  have e : ∀ lo n, (lo + n ≤ 41 ∨ 42 ≤ lo) → x.extractLsb' lo n = y.extractLsb' lo n := fun lo n hln =>
    extractLsb'_congr fun k h1 h2 h3 => h k h3 (by omega)
  simp only [decodeTss32, e 56 8 (by omega), e 32 8 (by omega), e 16 16 (by omega), e 48 4 (by omega), e 0 16 (by omega), e 45 2 (by omega),
    h 55 (by omega) (by omega), h 54 (by omega) (by omega), h 53 (by omega) (by omega), h 52 (by omega) (by omega),
    h 47 (by omega) (by omega), h 44 (by omega) (by omega)]

/-- The same of the 64-bit format. -/
theorem decodeTss64_of_agree {x y : BitVec 128} (h : ∀ k, k < 128 → k ≠ 41 → x.getLsbD k = y.getLsbD k) :
    decodeTss64 x = { decodeTss64 y with type := (decodeTss64 x).type, b := (decodeTss64 x).b } := by
  have e : ∀ lo n, (lo + n ≤ 41 ∨ 42 ≤ lo) → x.extractLsb' lo n = y.extractLsb' lo n := fun lo n hln =>
    extractLsb'_congr fun k h1 h2 h3 => h k h3 (by omega)
  have hlow := decodeTss32_of_agree (x := x.extractLsb' 0 64) (y := y.extractLsb' 0 64) fun k hk hne => by
    rw [BitVec.getLsbD_extractLsb', BitVec.getLsbD_extractLsb', h (0 + k) (by omega) (by omega)]
  simp only [decodeTss64, e 64 32 (by omega), e 56 8 (by omega), e 32 8 (by omega), e 16 16 (by omega), e 104 5 (by omega)]
  rw [hlow]

theorem drawnAsTss_of_agree {x y : BitVec 64} (h : ∀ k, k < 64 → k ≠ 41 → x.getLsbD k = y.getLsbD k) : drawnAsTss x ↔ drawnAsTss y := by
  unfold drawnAsTss
  rw [h 44 (by omega) (by omega), h 43 (by omega) (by omega), h 42 (by omega) (by omega), h 40 (by omega) (by omega)]

theorem taskRegOf_congr {sel : Sel} {t u : TssDesc} (h : t = { u with type := t.type, b := t.b }) : taskRegOf sel t = taskRegOf sel u := by
  rw [h]; rfl

/-! ### The memory of a committed switch (R80 steps 2 to 6) -/

/-- A switch writes no byte but those of `switchWrites`. -/
theorem byte_switchMemory_other {k : DispatchKind} {tr : TaskReg} {next : Word} {o i nb x : Nat} {s : State}
    (h1 : ¬ dynamicByte tr.base.toNat x) (h2 : clearsOutgoingBusy k = true → x ≠ o + 5) (h3 : setsIncomingBusy k = true → x ≠ i + 5)
    (h4 : nests k = true → x ≠ nb ∧ x ≠ nb + 1) : (switchMemory k tr next o i nb s).byte x = s.mem.byte x := by
  cases k <;>
    simp only [switchMemory, clearsOutgoingBusy, setsIncomingBusy, nests, if_true, if_false, Bool.false_eq_true, forall_const, false_implies,
      tss32Offset, Nat.add_zero] at h2 h3 h4 ⊢
  · rw [byte_setBusy_other _ h3, byte_saveContext_other _ _ _ _ _ h1, byte_clearBusy_other _ h2]
  · rw [Memory.byte_write2_other _ _ (by omega), byte_setBusy_other _ h3, byte_saveContext_other _ _ _ _ _ h1]
  · rw [Memory.byte_write2_other _ _ (by omega), byte_setBusy_other _ h3, byte_saveContext_other _ _ _ _ _ h1]
  · rw [byte_saveContext_other _ _ _ _ _ h1, byte_clearBusy_other _ h2]

/-! A byte after a write depends on that byte before it alone. -/

theorem byte_setBusy_congr {m m' : Memory} {x : Nat} (h : m.byte x = m'.byte x) (d : Nat) : (setBusy m d).byte x = (setBusy m' d).byte x := by
  by_cases hx : x = d + 5
  · subst hx; rw [byte_setBusy_same, byte_setBusy_same, h]
  · rw [byte_setBusy_other _ hx, byte_setBusy_other _ hx, h]

theorem byte_clearBusy_congr {m m' : Memory} {x : Nat} (h : m.byte x = m'.byte x) (d : Nat) : (clearBusy m d).byte x = (clearBusy m' d).byte x := by
  by_cases hx : x = d + 5
  · subst hx; rw [byte_clearBusy_same, byte_clearBusy_same, h]
  · rw [byte_clearBusy_other _ hx, byte_clearBusy_other _ hx, h]

theorem byte_saveContext_congr {m m' : Memory} {x : Nat} (h : m.byte x = m'.byte x) (ob : Nat) (next img : Word) (g : Gprs) (r : SegRegs) :
    (saveContext m ob next img g r).byte x = (saveContext m' ob next img g r).byte x := by
  simp only [saveContext, Memory.write4, Memory.byte_write2, h]

/-- The memory of a switch, byte by byte, in states that differ in memory alone. -/
theorem byte_switchMemory_congr {k : DispatchKind} {tr : TaskReg} {next : Word} {o i nb x : Nat} {s : State} {m : Memory} (h : m.byte x = s.mem.byte x) :
    (switchMemory k tr next o i nb (s.withMem m)).byte x = (switchMemory k tr next o i nb s).byte x := by
  have hm : (s.withMem m).mem.byte x = s.mem.byte x := h
  cases k <;> simp only [switchMemory, clearsOutgoingBusy, setsIncomingBusy, nests, if_true, if_false, Bool.false_eq_true]
  · exact byte_setBusy_congr (byte_saveContext_congr (byte_clearBusy_congr hm _) _ _ _ _ _) _
  · rw [Memory.byte_write2, Memory.byte_write2, byte_setBusy_congr (byte_saveContext_congr hm _ _ _ _ _)]; rfl
  · rw [Memory.byte_write2, Memory.byte_write2, byte_setBusy_congr (byte_saveContext_congr hm _ _ _ _ _)]; rfl
  · exact byte_saveContext_congr (byte_clearBusy_congr hm _) _ _ _ _ _

/-- On the outgoing TSS the memory of a switch is the saved context. -/
theorem byte_switchMemory_outgoing {k : DispatchKind} {tr : TaskReg} {next : Word} {o i nb x : Nat} {s : State}
    (h3 : x ≠ i + 5) (h4 : x ≠ nb ∧ x ≠ nb + 1) :
    (switchMemory k tr next o i nb s).byte x =
      (saveContext (if clearsOutgoingBusy k then clearBusy s.mem o else s.mem) tr.base.toNat next (savedEflags k s.eflags) s.gprs s.segs).byte x := by
  cases k <;>
    simp only [switchMemory, clearsOutgoingBusy, setsIncomingBusy, nests, if_true, if_false, Bool.false_eq_true, tss32Offset, Nat.add_zero]
  · rw [byte_setBusy_other _ h3]
  · rw [Memory.byte_write2_other _ _ (by omega), byte_setBusy_other _ h3]
  · rw [Memory.byte_write2_other _ _ (by omega), byte_setBusy_other _ h3]

theorem wf_switchMemory {k : DispatchKind} {tr : TaskReg} {next : Word} {o i nb : Nat} {s : State} (h : s.mem.wf) :
    (switchMemory k tr next o i nb s).wf := by
  cases k <;>
    simp only [switchMemory, clearsOutgoingBusy, setsIncomingBusy, nests, if_true, if_false, Bool.false_eq_true, setBusy, clearBusy]
  · exact Memory.wf_setByte (wf_saveContext (Memory.wf_setByte h _ _) _ _ _ _ _) _ _
  · exact Memory.wf_write2 (Memory.wf_setByte (wf_saveContext h _ _ _ _ _) _ _) _ _
  · exact Memory.wf_write2 (Memory.wf_setByte (wf_saveContext h _ _ _ _ _) _ _) _ _
  · exact wf_saveContext (Memory.wf_setByte h _ _) _ _ _ _ _

theorem below_switchMemory {k : DispatchKind} {tr : TaskReg} {next : Word} {o i nb n : Nat} {s : State} (h : s.mem.below n)
    (h1 : tr.base.toNat + 103 < n) (h2 : clearsOutgoingBusy k = true → o + 5 < n) (h3 : i + 5 < n) (h4 : nb + 1 < n) :
    (switchMemory k tr next o i nb s).below n := by
  cases k <;>
    simp only [switchMemory, clearsOutgoingBusy, setsIncomingBusy, nests, if_true, if_false, Bool.false_eq_true, setBusy, clearBusy,
      busyByteOffset, tss32Offset, Nat.add_zero, forall_const, false_implies] at h2 ⊢
  · exact Memory.below_setByte (below_saveContext (Memory.below_setByte h h2 _) h1 _ _ _ _) h3 _
  · exact Memory.below_write2 (Memory.below_setByte (below_saveContext h h1 _ _ _ _) h3 _) h4 _
  · exact Memory.below_write2 (Memory.below_setByte (below_saveContext h h1 _ _ _ _) h3 _) h4 _
  · exact below_saveContext (Memory.below_setByte h h2 _) h1 _ _ _ _

/-! ### The committed state, field by field -/

section
variable (k : DispatchKind) (sel : Sel) (tr : TaskReg) (next : Word) (o i : Nat) (d : TssDesc) (s : State)

@[simp] theorem commitSwitch_mem : (commitSwitch k sel tr next o i d s).mem = switchMemory k tr next o i d.base.toNat s := rfl
@[simp] theorem commitSwitch_tr : (commitSwitch k sel tr next o i d s).tr = some (taskRegOf sel d) := rfl
@[simp] theorem commitSwitch_cfg : (commitSwitch k sel tr next o i d s).cfg = s.cfg := rfl
@[simp] theorem commitSwitch_code : (commitSwitch k sel tr next o i d s).code = s.code := rfl
@[simp] theorem commitSwitch_ssp : (commitSwitch k sel tr next o i d s).ssp = s.ssp := rfl
@[simp] theorem commitSwitch_offers : (commitSwitch k sel tr next o i d s).offers = s.offers := rfl
@[simp] theorem commitSwitch_outcome : (commitSwitch k sel tr next o i d s).outcome = s.outcome := rfl
@[simp] theorem commitSwitch_gprs :
    (commitSwitch k sel tr next o i d s).gprs = loadGprs (switchMemory k tr next o i d.base.toNat s) d.base.toNat := rfl
@[simp] theorem commitSwitch_segs :
    (commitSwitch k sel tr next o i d s).segs = loadSegs (switchMemory k tr next o i d.base.toNat s) d.base.toNat := rfl
@[simp] theorem commitSwitch_eip :
    (commitSwitch k sel tr next o i d s).eip = (switchMemory k tr next o i d.base.toNat s).read4 (d.base.toNat + 32) := rfl
@[simp] theorem commitSwitch_eflags : (commitSwitch k sel tr next o i d s).eflags =
    loadedEflags k ((switchMemory k tr next o i d.base.toNat s).read4 (d.base.toNat + 36)) := rfl
@[simp] theorem commitSwitch_ldtr :
    (commitSwitch k sel tr next o i d s).ldtr = (switchMemory k tr next o i d.base.toNat s).read2 (d.base.toNat + 96) := rfl
@[simp] theorem commitSwitch_cpl : (commitSwitch k sel tr next o i d s).cpl =
    cplOf ((switchMemory k tr next o i d.base.toNat s).read2 (d.base.toNat + 76)) := rfl
@[simp] theorem commitSwitch_cr3 : (commitSwitch k sel tr next o i d s).cr3 =
    if s.cfg.pagingEnabled then (switchMemory k tr next o i d.base.toNat s).read4 (d.base.toNat + 28) else s.cr3 := rfl

end

/-! ### Geometry of a ready switch -/

section
variable {k : DispatchKind} {sel : Sel} {tr : TaskReg} {s : State}

/-- The incoming descriptor lies in the GDT, apart from both TSSs, and at least 8 bytes from any other slot. -/
theorem SwitchReady.geometry (h : SwitchReady k sel tr s) :
    let ob := tr.base.toNat
    let nb := (tssAt s sel).base.toNat
    (ob + 103 < nb ∨ nb + 103 < ob) ∧
    (ob + 103 < gdtSlot s sel ∨ gdtSlot s sel + 7 < ob) ∧
    (nb + 103 < gdtSlot s sel ∨ gdtSlot s sel + 7 < nb) ∧
    (gdtSlot s sel + 8 ≤ gdtSlot s tr.sel ∨ gdtSlot s tr.sel + 8 ≤ gdtSlot s sel) := by
  obtain ⟨h1, h2, h3⟩ := allApart_switchRanges h.apart
  have h4 := h.slot.inTable
  have h5 := h.other
  simp only [gdtSlot]
  refine ⟨h1, by omega, by omega, by omega⟩

/-- Reads of the incoming TSS from offset 2 on see the memory before the switch, but for the outgoing descriptor's busy byte. -/
theorem SwitchReady.byte_incoming (h : SwitchReady k sel tr s) {next : Word} {x : Nat} (h1 : (tssAt s sel).base.toNat + 2 ≤ x)
    (h2 : x ≤ (tssAt s sel).base.toNat + 103) (hx : clearsOutgoingBusy k = true → x ≠ gdtSlot s tr.sel + 5) :
    (switchMemory k tr next (gdtSlot s tr.sel) (gdtSlot s sel) (tssAt s sel).base.toNat s).byte x = s.mem.byte x := by
  obtain ⟨g1, g2, g3, g4⟩ := h.geometry
  refine byte_switchMemory_other (fun hd => ?_) hx (fun _ => by omega) (fun _ => by omega)
  have := dynamicByte_range hd
  omega

end

end Sys2Proof.Machine
end

