-- ==== Sys2Proof/Laws/Step.lean ====
section
/-! SUPPORT. What a step is, case by case, and where a ready task switch leaves the bytes of the two TSSs and of the two descriptors alone. -/

namespace Sys2Proof.Machine

/-- A check of pseudocode before the rest of it. -/
theorem raiseIf_bind {α} {c : Prop} [Decidable c] {f : Fault} {g : Unit → Chk α} : (raiseIf c f >>= g) = if c then .error (.raise f) else g () := by
  unfold raiseIf; split <;> rfl

theorem refuseIf_bind {α} {c : Prop} [Decidable c] {f : Refusal} {g : Unit → Chk α} : (refuseIf c f >>= g) = if c then .error (.refuse f) else g () := by
  unfold refuseIf; split <;> rfl

/-- The lookup of a global selector in the GDT, where no sum wraps (R50). -/
theorem descAddr_global {s : State} {sel : Sel} {n : Nat} (ht : selTI sel = false) (h1 : s.cfg.gdtBase.toNat + s.cfg.gdtLimit.toNat < addrLimit s.cfg.mode) (hn : 0 < n := by decide) :
    descAddr s sel n = if selIndex sel = 0 then .error (.raise (.selectorNull sel))
      else (if 8 * selIndex sel + n - 1 > s.cfg.gdtLimit.toNat then .error (.raise (.selectorOutOfTable sel))
         else .ok (s.cfg.gdtBase.toNat + 8 * selIndex sel)) := by
  by_cases hz : selIndex sel = 0
  · simp only [descAddr, raiseIf_pos (show selIndex sel = 0 ∧ selTI sel = false from ⟨hz, ht⟩), Chk.error_bind, if_pos hz]
  · simp only [descAddr, raiseIf_neg (show ¬ (selIndex sel = 0 ∧ selTI sel = false) from fun h => hz h.1), if_neg hz, Chk.ok_bind, tableOf]
    simp only [ht, if_false, Bool.false_eq_true, Chk.ok_bind]
    by_cases hl : s.cfg.gdtLimit.toNat < 8 * selIndex sel + n - 1
    · simp only [raiseIf_pos hl, Chk.error_bind]; rw [if_pos hl]
    · simp only [raiseIf_neg hl, Chk.ok_bind, addrSum]; rw [if_neg (show ¬ (_ > _) from hl), refuseIf_neg (by omega)]; rfl

/-- The outgoing task's descriptor lies apart from both TSSs when the task register is a true copy. -/
theorem SwitchReady.outgoing_slot_apart {k : DispatchKind} {sel : Sel} {tr : TaskReg} {s : State} (hr : SwitchReady k sel tr s) (hi : Invariant s)
   (hm : s.cfg.mode = .protectedMode) :
   (tr.base.toNat + 103 < gdtSlot s tr.sel ∨ gdtSlot s tr.sel + 7 < tr.base.toNat) ∧
   ((tssAt s sel).base.toNat + 103 < gdtSlot s tr.sel ∨ gdtSlot s tr.sel + 7 < (tssAt s sel).base.toNat) := by
  have hs := (hi.trCopy tr hr.loaded).slot
  have ap := allApart_switchRanges hr.apart
  have := hs.inTable
  simp only [hm, descSize] at this
  simp only [gdtSlot]; omega

/-- The incoming TSS, but for the link that CALL and INT write, is as before a switch. -/
theorem SwitchReady.byte_incoming_tss {k : DispatchKind} {sel : Sel} {tr : TaskReg} {s : State} (hr : SwitchReady k sel tr s) (hi : Invariant s)
   (hm : s.cfg.mode = .protectedMode) {next x} (h1 : (tssAt s sel).base.toNat ≤ x)
    (h2 : x ≤ (tssAt s sel).base.toNat + 103) (h3 : nests k = true → (tssAt s sel).base.toNat + 2 ≤ x) :
    (switchMemory k tr next (gdtSlot s tr.sel) (gdtSlot s sel) (tssAt s sel).base.toNat s).byte x = s.mem.byte x := by
  obtain ⟨g1, g2, g3, g4⟩ := hr.geometry
  obtain ⟨q1, q2⟩ := SwitchReady.outgoing_slot_apart hr hi hm
  refine byte_switchMemory_other (fun hd => ?_) (fun _ => by omega) (fun _ => by omega) (fun hn => by have := h3 hn; omega)
  have := dynamicByte_range hd
  omega

/-- The outgoing TSS, but for its dynamic bytes, is as before a switch. -/
theorem SwitchReady.byte_outgoing_tss {k : DispatchKind} {sel : Sel} {tr : TaskReg} {s : State} (hr : SwitchReady k sel tr s) (hi : Invariant s)
   (hm : s.cfg.mode = .protectedMode) {next x} (h1 : tr.base.toNat ≤ x)
    (h2 : x ≤ tr.base.toNat + 103) (h3 : ¬ dynamicByte tr.base.toNat x) :
    (switchMemory k tr next (gdtSlot s tr.sel) (gdtSlot s sel) (tssAt s sel).base.toNat s).byte x = s.mem.byte x := by
  obtain ⟨g1, g2, g3, g4⟩ := hr.geometry
  obtain ⟨q1, q2⟩ := SwitchReady.outgoing_slot_apart hr hi hm
  exact byte_switchMemory_other h3 (fun _ => by omega) (fun _ => by omega) (fun hn => by omega)

/-- Offsets outside the rows 32 to 93 are no dynamic bytes. -/
theorem not_dynamicByte {ob x : Nat} (h : x < ob + 32 ∨ ob + 94 ≤ x) : ¬ dynamicByte ob x := fun hd => by have := dynamicByte_range hd; omega

/-- After a switch the incoming descriptor differs at most in its busy flag, which is set (R83). -/
theorem SwitchReady.bit_incoming_desc {k : DispatchKind} {sel : Sel} {tr : TaskReg} {s : State} (hr : SwitchReady k sel tr s) {next} {i : Nat} (hi : i < 64) :
    ((switchMemory k tr next (gdtSlot s tr.sel) (gdtSlot s sel) (tssAt s sel).base.toNat s).read8 (gdtSlot s sel)).getLsbD i
     = ((s.mem.read8 (gdtSlot s sel)).getLsbD i || decide (i = 41)) := by
  obtain ⟨g1, g2, g3, g4⟩ := hr.geometry
  have hb := hr.busy
  rw [Memory.getLsbD_read8 _ _ hi, Memory.getLsbD_read8 _ _ hi]
  have nd : ∀ x, gdtSlot s sel ≤ x → x ≤ gdtSlot s sel + 7 → ¬ dynamicByte tr.base.toNat x := fun x h1 h2 h => by
    have := dynamicByte_range h; omega
  by_cases h5 : i / 8 = 5
  · rw [h5]
    cases k <;>
      simp only [switchMemory, clearsOutgoingBusy, setsIncomingBusy, nests, if_true, if_false, Bool.false_eq_true, tss32Offset, Nat.add_zero]
    · rw [byte_setBusy_same, BitVec.getLsbD_or, getLsbD_busyMask _ (by omega), byte_saveContext_other _ _ _ _ _ (nd _ (by omega) (by omega)), byte_clearBusy_other _ (by omega)]
      congr 1; simp only [decide_eq_decide]; omega
    · rw [Memory.byte_write2_other _ _ (by omega), byte_setBusy_same, BitVec.getLsbD_or, getLsbD_busyMask _ (by omega), byte_saveContext_other _ _ _ _ _ (nd _ (by omega) (by omega))]
      congr 1; simp only [decide_eq_decide]; omega
    · rw [Memory.byte_write2_other _ _ (by omega), byte_setBusy_same, BitVec.getLsbD_or, getLsbD_busyMask _ (by omega), byte_saveContext_other _ _ _ _ _ (nd _ (by omega) (by omega))]
      congr 1; simp only [decide_eq_decide]; omega
    · rw [byte_saveContext_other _ _ _ _ _ (nd _ (by omega) (by omega)), byte_clearBusy_other _ (by omega)]
      by_cases h : i = 41
      · subst h
        have h2 : (s.mem.read8 (gdtSlot s sel)).getLsbD 41 = true := hb
        rw [Memory.getLsbD_read8 _ _ (by omega)] at h2
        simp only [show (41:Nat)/8 = 5 from rfl] at h2
        rw [h2]; rfl
      · simp [h]
  · rw [byte_switchMemory_other (nd _ (by omega) (by omega)) (fun _ => by omega) (fun _ => by omega) (fun _ => by omega)]
    simp [show i ≠ 41 by omega]

/-- After a switch the outgoing descriptor differs at most in its busy flag, which is kept by CALL and INT only (R83). -/
theorem SwitchReady.bit_outgoing_desc {k : DispatchKind} {sel : Sel} {tr : TaskReg} {s : State} (hr : SwitchReady k sel tr s) (hI : Invariant s)
   (hm : s.cfg.mode = .protectedMode) {next} {i : Nat} (hi : i < 64) :
    ((switchMemory k tr next (gdtSlot s tr.sel) (gdtSlot s sel) (tssAt s sel).base.toNat s).read8 (gdtSlot s tr.sel)).getLsbD i
     = ((s.mem.read8 (gdtSlot s tr.sel)).getLsbD i && (decide (i ≠ 41) || nests k)) := by
  obtain ⟨g1, g2, g3, g4⟩ := hr.geometry
  obtain ⟨q1, q2⟩ := SwitchReady.outgoing_slot_apart hr hI hm
  rw [Memory.getLsbD_read8 _ _ hi, Memory.getLsbD_read8 _ _ hi]
  have nd : ∀ x, gdtSlot s tr.sel ≤ x → x ≤ gdtSlot s tr.sel + 7 → ¬ dynamicByte tr.base.toNat x := fun x h1 h2 h => by
    have := dynamicByte_range h; omega
  by_cases h5 : i / 8 = 5
  · rw [h5]
    cases k <;>
      simp only [switchMemory, clearsOutgoingBusy, setsIncomingBusy, nests, if_true, if_false, Bool.false_eq_true, tss32Offset, Nat.add_zero]
    · rw [byte_setBusy_other _ (by omega), byte_saveContext_other _ _ _ _ _ (nd _ (by omega) (by omega)), byte_clearBusy_same, BitVec.getLsbD_and, getLsbD_busyMask_not _ (by omega)]
      rw [Bool.or_false]; congr 1; simp only [decide_eq_decide]; omega
    · rw [Memory.byte_write2_other _ _ (by omega), byte_setBusy_other _ (by omega), byte_saveContext_other _ _ _ _ _ (nd _ (by omega) (by omega))]
      simp
    · rw [Memory.byte_write2_other _ _ (by omega), byte_setBusy_other _ (by omega), byte_saveContext_other _ _ _ _ _ (nd _ (by omega) (by omega))]
      simp
    · rw [byte_saveContext_other _ _ _ _ _ (nd _ (by omega) (by omega)), byte_clearBusy_same, BitVec.getLsbD_and, getLsbD_busyMask_not _ (by omega)]
      rw [Bool.or_false]; congr 1; simp only [decide_eq_decide]; omega
  · rw [byte_switchMemory_other (nd _ (by omega) (by omega)) (fun _ => by omega) (fun _ => by omega) (fun _ => by omega)]
    simp [show i ≠ 41 by omega]

/-- A task register that is a true copy names a busy descriptor. -/
theorem TrCopy.bit41 {s : State} {tr : TaskReg} (h : TrCopy s tr) (hm : s.cfg.mode = .protectedMode) : (s.mem.read8 (gdtSlot s tr.sel)).getLsbD 41 = true := by
  have := h.busy; simp only [modeTssAt, hm] at this; exact this

/-- What is loaded from a TSS depends on its bytes 2 to 103 only. -/
theorem loads_congr {m m' : Memory} {b : Nat} (h : ∀ x, b + 2 ≤ x → x ≤ b + 103 → m.byte x = m'.byte x) :
   loadGprs m b = loadGprs m' b ∧ loadSegs m b = loadSegs m' b ∧ m.read4 (b+32) = m'.read4 (b+32) ∧ m.read4 (b+36) = m'.read4 (b+36) ∧ m.read2 (b + 76) = m'.read2 (b+76) :=
  ⟨loadGprs_congr fun x h1 h2 => h x (by omega) (by omega), loadSegs_congr fun x h1 h2 => h x (by omega) (by omega),
   Memory.read4_congr fun x h1 h2 => h x (by omega) (by omega), Memory.read4_congr fun x h1 h2 => h x (by omega) (by omega), Memory.read2_congr fun x h1 h2 => h x (by omega) (by omega)⟩

/-- After a switch the outgoing TSS loads what was saved (R82, R87). -/
theorem SwitchRun.saved_loads {k next s t} (h : SwitchRun k next s t) {tr} (htr : s.tr = some tr) :
   loadGprs t.mem tr.base.toNat = s.gprs ∧ loadSegs t.mem tr.base.toNat = s.segs ∧ t.mem.read4 (tr.base.toNat + 32) = next ∧
   t.mem.read4 (tr.base.toNat + 36) = savedEflags k s.eflags ∧ t.mem.read2 (tr.base.toNat + 76) = s.segs.cs := by
  obtain ⟨hm, sel, tr', hr, rfl⟩ := h.cases
  obtain rfl : tr = tr' := by have := hr.loaded; rw [htr] at this; exact (Option.some.inj this)
  obtain ⟨g1, g2, g3, g4⟩ := hr.geometry
  obtain ⟨h1, h2, h3, h4, h5⟩ := loads_congr (b := tr.base.toNat) (fun x h1 h2 =>
    byte_switchMemory_outgoing (k := k) (tr := tr) (next := next) (o := gdtSlot s tr.sel) (i := gdtSlot s sel) (nb := (tssAt s sel).base.toNat)
     (x := x) (s := s) (by omega) (by omega))
  simp only [commitSwitch_mem]
  rw [h1, h2, h3, h4, h5]
  simp [loadGprs_saveContext, loadSegs_saveContext]

/-- NT apart, EFLAGS is loaded as it is in the TSS (R83). -/
theorem getLsbD_loadedEflags {k : DispatchKind} {e : Word} {i} (hi : i ≠ 14) : (loadedEflags k e).getLsbD i = e.getLsbD i := by
  have : ∀ i < 32, i ≠ 14 → (0x4000 : Word).getLsbD i = false := by decide
  by_cases h : i < 32
  · cases k <;> simp only [loadedEflags, nests, setNT, ntMask, if_true, if_false, Bool.false_eq_true, BitVec.getLsbD_or, this i h hi, Bool.or_false]
  · rw [BitVec.getLsbD_of_ge _ _ (by omega), BitVec.getLsbD_of_ge _ _ (by omega)]

/-- NT apart, EFLAGS is saved as it is (R83). -/
theorem getLsbD_savedEflags {k : DispatchKind} {e : Word} {i} (hi : i ≠ 14) : (savedEflags k e).getLsbD i = e.getLsbD i := by
  have : ∀ i < 32, i ≠ 14 → (~~~(0x4000 : Word)).getLsbD i = true := by decide
  by_cases h : i < 32
  · cases k <;> simp only [savedEflags, clearNT, ntMask, BitVec.getLsbD_and, this i h hi, Bool.and_true]
  · rw [BitVec.getLsbD_of_ge _ _ (by omega), BitVec.getLsbD_of_ge _ _ (by omega)]

/-- A task register loaded from a present TSS descriptor is a true copy of it once the busy flag is set there (R16, R42). -/
theorem TrCopy.of_busy_set {s s' : State} {sel : Sel} {tr : TaskReg} (hcfg : s'.cfg = s.cfg) (htr : tr = taskRegOf sel (modeTssAt s sel))
   (hslot : InGdt s sel (descSize s.cfg.mode)) (hd : drawnAsTss (s.mem.read8 (gdtSlot s sel))) (hp : (modeTssAt s sel).p = true)
   (h8 : ∀ i < 64, (s'.mem.read8 (gdtSlot s sel)).getLsbD i = ((s.mem.read8 (gdtSlot s sel)).getLsbD i || decide (i = 41)))
   (h16 : s.cfg.mode = .long64 → ∀ i < 128, (s'.mem.read16 (gdtSlot s sel)).getLsbD i = ((s.mem.read16 (gdtSlot s sel)).getLsbD i || decide (i = 41))) :
   TrCopy s' tr := by
  have hg : ∀ x, gdtSlot s' x = gdtSlot s x := fun x => by simp [gdtSlot, hcfg]
  have hsel : tr.sel = sel := by rw [htr]; rfl
  have hag : ∀ k, k < 64 → k ≠ 41 → (s'.mem.read8 (gdtSlot s sel)).getLsbD k = (s.mem.read8 (gdtSlot s sel)).getLsbD k := fun k h1 h2 => by
    rw [h8 k h1]; simp [h2]
  have h41 : (s'.mem.read8 (gdtSlot s sel)).getLsbD 41 = true := by rw [h8 41 (by omega)]; simp
  refine ⟨?_, ?_, ?_, ?_, ?_⟩
  · rw [hsel, hcfg]; exact ⟨hslot.global, hslot.notNull, by rw [hcfg]; exact hslot.inTable, by rw [hg, hcfg]; exact hslot.fits⟩
  · rw [hsel, hg]; exact (drawnAsTss_of_agree hag).2 hd
  · rw [hsel]
    cases hm : s.cfg.mode
    · simp only [modeTssAt, hcfg, hm, hg]; exact h41
    · simp only [modeTssAt, hcfg, hm, hg, decodeTss64, Memory.low64_read16]; exact h41
  · rw [hsel]
    cases hm : s.cfg.mode
    · simp only [modeTssAt, hcfg, hm, hg] at hp ⊢; rw [decodeTss32_of_agree hag]; exact hp
    · simp only [modeTssAt, hcfg, hm, hg, decodeTss64, Memory.low64_read16] at hp ⊢; rw [decodeTss32_of_agree hag]; exact hp
  · rw [hsel, htr]
    apply taskRegOf_congr
    cases hm : s.cfg.mode
    · simp only [modeTssAt, hcfg, hm, hg]; exact decodeTss32_of_agree hag
    · simp only [modeTssAt, hcfg, hm, hg]; exact decodeTss64_of_agree fun k h1 h2 => by rw [h16 hm k h1]; simp [h2]

/-- The invariant does not speak of the offers. -/
theorem invariant_withOffers {s : State} {os} : Invariant (s.withOffers os) ↔ Invariant s :=
  ⟨fun h => ⟨h.memWf, h.memFits, h.cplOfCs, fun tr ht => ⟨⟨(h.trCopy tr ht).slot.1, (h.trCopy tr ht).slot.2, (h.trCopy tr ht).slot.3, (h.trCopy tr ht).slot.4⟩, (h.trCopy tr ht).isTss, (h.trCopy tr ht).busy, (h.trCopy tr ht).present, (h.trCopy tr ht).copied⟩⟩,
   fun h => ⟨h.memWf, h.memFits, h.cplOfCs, fun tr ht => ⟨⟨(h.trCopy tr ht).slot.1, (h.trCopy tr ht).slot.2, (h.trCopy tr ht).slot.3, (h.trCopy tr ht).slot.4⟩, (h.trCopy tr ht).isTss, (h.trCopy tr ht).busy, (h.trCopy tr ht).present, (h.trCopy tr ht).copied⟩⟩⟩

/-- An instruction that goes on is LTR or a task switch of its kind. -/
theorem exec_cases {i : Instr} {s t : State} (h : exec i s = .next t) :
    (∃ r, i = .ltr r ∧ execLtr r s = .next t) ∨ ∃ k next, (Action.instr i).kind = some k ∧ SwitchRun k next s t := by
  cases i with
  | ltr r => exact .inl ⟨r, rfl, h⟩
  | jmp a b => exact .inr ⟨.jmp, _, rfl, _, _, h, rfl⟩
  | call a b => exact .inr ⟨.call, _, rfl, _, _, h, rfl⟩
  | iret => exact .inr ⟨.iret, _, rfl, h, rfl⟩

theorem atStop_eq_false {s : State} : atStop s = false ↔ s.codeLoc ∉ s.cfg.stops := by simp [atStop]

/-- What a running state without an event at its boundary sets out to do. -/
theorem actionOf_of_no_event {s : State} (hr : s.outcome = .running) (ho : ∀ e os, s.offers ≠ some e :: os) :
    actionOf s = if atStop s then .rest else match fetch s with
      | some e => .instr e.term
      | none => .rest := by
  unfold actionOf
  rw [hr]
  dsimp only
  split
  · next e rest he => exact absurd he (ho e rest)
  · rfl

/-- A step that goes on rests at a stop, runs LTR, or makes the task switch of its action. -/
theorem step_cases {s t : State} (h : step s = .next t) :
    (actionOf s = .rest ∧ t = s) ∨ (∃ r, actionOf s = .instr (.ltr r) ∧ execLtr r (s.withOffers s.offers.tail) = .next t) ∨
    ∃ k next, (actionOf s).kind = some k ∧ SwitchRun k next (s.withOffers s.offers.tail) t := by
  obtain ⟨hr, ⟨e, os, ho, h⟩ | ⟨hf, rfl⟩ | ⟨hn, ha, i, hf, h⟩⟩ := step_eq_next.1 h
  · exact .inr (.inr ⟨.int, _, by simp [actionOf, hr, ho, Action.kind], ⟨e, by rw [ho]; exact toOutcome_eq_next.2 h⟩, rfl⟩)
  · exact .inl ⟨by rw [actionOf_of_no_event hr hf.2.2, if_pos (by simpa [atStop] using hf.2.1)], rfl⟩
  · have hact : actionOf s = .instr i.term := by rw [actionOf_of_no_event hr hn, ha, hf]; rfl
    rw [hact]
    rcases exec_cases h with ⟨r, hi, h⟩ | h
    · exact .inr (.inl ⟨r, by rw [hi], h⟩)
    · exact .inr (.inr h)

/-- A step at a boundary without an event and without a stop. -/
theorem step_of_no_event {s : State} (hr : s.outcome = .running) (ho : ∀ e os, s.offers ≠ some e :: os) (hs : s.codeLoc ∉ s.cfg.stops) :
    step s = match fetch s with
      | some e => exec e.term (s.withOffers s.offers.tail)
      | none => .refused .noInstruction := by
  unfold step
  rw [hr]
  dsimp only
  split
  · next e rest he => exact absurd he (ho e rest)
  · rw [atStop_eq_false.2 hs]; rfl

/-! ### The structures (R58, R110) -/

theorem inGdt_withOffers {s : State} {os : List (Option Event)} {sel : Sel} {n : Nat} : InGdt (s.withOffers os) sel n ↔ InGdt s sel n :=
  ⟨fun h => ⟨h.1, h.2, h.3, h.4⟩, fun h => ⟨h.1, h.2, h.3, h.4⟩⟩

/-- The structures do not depend on the offers. -/
theorem structureByte_withOffers {s : State} {os : List (Option Event)} {x : Nat} : structureByte (s.withOffers os) x ↔ structureByte s x := by
  simp only [structureByte, inGdt_withOffers]; exact Iff.rfl

/-- The bytes of a slot within the GDT limit. -/
theorem structureByte_of_slot {s : State} {sel : Sel} {n x : Nat} (h : 8 * selIndex sel + n - 1 ≤ s.cfg.gdtLimit.toNat) (h1 : gdtSlot s sel ≤ x)
    (h2 : x < gdtSlot s sel + n) : structureByte s x := by
  simp only [gdtSlot] at h1 h2
  exact .inl ⟨by omega, by omega⟩

/-- The bytes of a descriptor that a lookup finds. -/
theorem structureByte_of_descAddr {s : State} {sel : Sel} {n a x : Nat} (h : descAddr s sel n = .ok a) (h1 : a ≤ x) (h2 : x < a + n) :
    structureByte s x := by
  obtain ⟨_, ⟨_, _, h3, rfl⟩ | ⟨_, w, hw, h3, rfl⟩⟩ := descAddr_eq_ok.1 h
  · exact structureByte_of_slot h3 h1 h2
  · exact .inr (.inr (.inl ⟨w, hw, by omega, by omega⟩))

/-- Beyond the end of the list nothing is offered (log 7). -/
theorem offerAt_of_length_le {s : State} {j : Nat} (h : s.offers.length ≤ j) : offerAt s j = none := by
  rw [offerAt, List.getD_eq_getElem?_getD, List.getElem?_eq_none h]; rfl

/-! ### Runs -/

/-- The last step of a run. -/
theorem advanceN_succ (n : Nat) (s : State) : advanceN (n + 1) s = advance (advanceN n s) := by
  induction n generalizing s with
  | zero => rfl
  | succ n ih => rw [advanceN, ih]; rfl

/-- What holds of a launch and is kept by every step of the run holds along the run. -/
theorem advanceN_induction {p : State → Prop} {s : State} (h0 : p s) (hs : ∀ u, p u → p (advance u)) (n : Nat) : p (advanceN n s) := by
  induction n with
  | zero => exact h0
  | succ n ih => rw [advanceN_succ]; exact hs _ ih

end Sys2Proof.Machine
end

