-- ==== Sys2Proof/Tests/Slice0.lean ====
section
/-! SUPPORT. Tests: words written out from the spec's encodings, ill-formed terms that the checks refuse, the test vectors of
95_test_vectors.md (named V1 to V49 and P1 to P6 there), and for every obligation with hypotheses a state and operands that meet them. -/

namespace Sys2Proof.Tests

open Sys2Proof.Machine

/-! ### Decoding: words written out from the table of 30_encoding.md R63 -/

/-- `LTR r16`: `0F`, `00`, `11 011 rrr`. -/
theorem test_decode_ltr :
    decode [0b00001111, 0b00000000, 0b11011000] = .ok (.ltr .eax, []) ∧ decode [0b00001111, 0b00000000, 0b11011001] = .ok (.ltr .ecx, []) ∧
    decode [0b00001111, 0b00000000, 0b11011010] = .ok (.ltr .edx, []) ∧ decode [0b00001111, 0b00000000, 0b11011011] = .ok (.ltr .ebx, []) ∧
    decode [0b00001111, 0b00000000, 0b11011100] = .ok (.ltr .esp, []) ∧ decode [0b00001111, 0b00000000, 0b11011101] = .ok (.ltr .ebp, []) ∧
    decode [0b00001111, 0b00000000, 0b11011110] = .ok (.ltr .esi, []) ∧ decode [0b00001111, 0b00000000, 0b11011111] = .ok (.ltr .edi, []) := by
  decide

/-- `JMP sel:off32`: `EA`, the offset and then the selector, each little-endian. -/
theorem test_decode_jmp : decode [0b11101010, 0x44, 0x33, 0x22, 0x11, 0x66, 0x55] = .ok (.jmp 0x5566 0x11223344, []) := by decide

/-- `CALL sel:off32`: `9A`, the same fields. -/
theorem test_decode_call : decode [0b10011010, 0x44, 0x33, 0x22, 0x11, 0x66, 0x55, 0xCF] = .ok (.call 0x5566 0x11223344, [0xCF]) := by decide

/-- `IRET`: `CF`. -/
theorem test_decode_iret : decode [0b11001111] = .ok (.iret, []) := by decide

/-- The forms R63 leaves out are refused by name. -/
theorem test_decode_refuses_left_out_forms :
    decode [0x0F, 0x00, 0b00011000] = .error .ltrMemoryOperand ∧ decode [0xFF, 0b00101000] = .error .indirectFarTransfer ∧
    decode [0xFF, 0b00011000] = .error .indirectFarTransfer ∧ decode [0x66, 0xEA, 0, 0, 0x30, 0] = .error .operandSizePrefixed := by decide

/-- Other members of the opcode groups, a prefix, truncated and absent bytes are refused by name. -/
theorem test_decode_refuses_other_bytes :
    decode [0x0F, 0x00, 0b11010000] = .error (.otherGroupMember 0b11010000) ∧ decode [0x0F, 0x01, 0xD8] = .error (.otherTwoByteOpcode 0x01) ∧
    decode [0xFF, 0b11100000] = .error (.otherGroupMember 0b11100000) ∧ decode [0xF3, 0xCF] = .error (.otherOpcode 0xF3) ∧
    decode [0xEA, 0, 0, 0, 0, 0x30] = .error .truncated ∧ decode [0x0F] = .error .truncated ∧ decode [] = .error .noBytes := by decide

/-- The words of spec/opcode_table.json, its "fixed" bits with operand bits zero: first byte most significant (log 3). -/
theorem test_table_words :
    decodeTableWord 24 0x0F00D8 = some (.ltr .eax) ∧ decodeTableWord 24 0x0F00DB = some (.ltr .ebx) ∧
    decodeTableWord 56 0xEA443322116655 = some (.jmp 0x5566 0x11223344) ∧ decodeTableWord 56 0x9A000000000000 = some (.call 0 0) ∧
    decodeTableWord 8 0xCF = some .iret ∧ decodeTableWord 8 0x90 = none := by decide

/-- The other numbering of the same bytes: first byte least significant (log 3). -/
theorem test_table_words_first_byte_lowest :
    decodeTableWord 24 0xD8000F = some (.ltr .eax) ∧ decodeTableWord 56 0x556611223344EA = some (.jmp 0x5566 0x11223344) := by decide

/-! ### Well-formedness -/

/-- A base above 32 bits is refused in `Protected` for each of the three tables, and accepted in `Long64`. -/
theorem test_wf_refuses_wide_bases :
    { Config.reset with gdtBase := 0x100000000 }.wf = false ∧ { Config.reset with idtBase := 0x100000000 }.wf = false ∧
    { Config.reset with ldtWindows := [⟨8, 0x100000000, 7⟩] }.wf = false ∧
    { Config.reset with mode := .long64, gdtBase := 0x100000000 }.wf = true := by decide

/-- Two LDT windows under one selector are refused. -/
theorem test_wf_refuses_two_windows :
    { Config.reset with ldtWindows := [⟨8, 0, 7⟩, ⟨8, 0x100, 7⟩] }.wf = false ∧
    { Config.reset with ldtWindows := [⟨8, 0, 7⟩, ⟨16, 0x100, 7⟩] }.wf = true := by decide

/-- Memories out of order, with an address twice, or listing a zero byte are not canonical. -/
theorem test_wf_refuses_memories :
    ¬ Memory.wf [(2, 1), (1, 1)] ∧ ¬ Memory.wf [(1, 1), (1, 1)] ∧ ¬ Memory.wf [(1, 0)] ∧ Memory.wf [(1, 1), (2, 1)] := by decide

/-- Program texts out of order, with a location twice, or with a length of zero are not canonical. -/
theorem test_wf_refuses_program_texts :
    ¬ CodeStore.wf [(⟨8, 1⟩, ⟨.iret, 1⟩), (⟨8, 0⟩, ⟨.iret, 1⟩)] ∧ ¬ CodeStore.wf [(⟨8, 0⟩, ⟨.iret, 1⟩), (⟨8, 0⟩, ⟨.iret, 2⟩)] ∧
    ¬ CodeStore.wf [(⟨8, 0⟩, ⟨.iret, 0⟩)] ∧ CodeStore.wf [(⟨8, 0xFFFFFFFF⟩, ⟨.ltr .eax, 9⟩), (⟨9, 0⟩, ⟨.iret, 1⟩)] := by decide

theorem test_wf_instr : (Instr.ltr .edi).wf = true ∧ (Instr.jmp 0xFFFF 0xFFFFFFFF).wf = true ∧ (Instr.call 0 0).wf = true ∧ Instr.iret.wf = true := by
  decide

theorem test_reset_wf : State.reset.cfg.wf = true ∧ State.reset.mem.wf ∧ State.reset.outcome = .running := by decide

/-! ### The states of 95_test_vectors.md -/

/-- GDT slots 5, 6 and 7: the TSS descriptors of the tasks A and B with the given attribute bytes, and the gate to B (V1, V2, V8). -/
def gdt (a b : Byte) : Memory :=
  [(0x1028, 0x6B), (0x102B, 0x20), (0x102D, a), (0x1030, 0x6B), (0x1033, 0x30), (0x1035, b), (0x103A, 0x30), (0x103D, 0xE5)]

/-- The gate to B at vector 0x20 of the IDT (P6). -/
def idt : Memory := [(0x1902, 0x30), (0x1905, 0x85)]

/-- TSS A of S0: CR3 and the I/O map base. -/
def tssA : Memory := [(0x201D, 0x40), (0x2066, 0x68)]

/-- TSS B of S0 with the given low byte of its CS field. -/
def tssB (cs : Byte) : Memory :=
  [(0x301D, 0x50), (0x3021, 0x02), (0x3024, 0x02), (0x302B, 0xB0), (0x302C, 0x01), (0x302F, 0xB0), (0x3030, 0x02), (0x3033, 0xB0)]
    ++ [(0x3034, 0x03), (0x3037, 0xB0), (0x3039, 0xF0), (0x303C, 0x05), (0x303F, 0xB0), (0x3040, 0x06), (0x3043, 0xB0)]
    ++ [(0x3044, 0x07), (0x3047, 0xB0), (0x3048, 0x10), (0x304C, cs), (0x3050, 0x10), (0x3054, 0x10), (0x3066, 0x68)]

/-- State S0 with the gate of P6 in the IDT and no program. -/
def s0 : State :=
  { State.reset with
    gprs := ⟨0x28, 0xA0000001, 0xA0000002, 0xA0000003, 0xE000, 0xA0000005, 0xA0000006, 0xA0000007⟩
    segs := ⟨0x08, 0x10, 0x10, 0x10, 0, 0⟩
    eip := 0x100
    eflags := 2
    cr3 := 0x4000
    mem := gdt 0x89 0x89 ++ idt ++ tssA ++ tssB 0x08
    cfg := { Config.reset with gdtBase := 0x1000, gdtLimit := 0x3F, idtBase := 0x1800, idtLimit := 0x7FF } }

/-- The task register of task A (V20). -/
def trA : TaskReg := ⟨0x28, 0x2000, 0x6B, ⟨false, false, true, 0, 0b1011⟩⟩

/-- S0 after `LTR EAX` (V20). -/
def sA : State := { s0 with tr := some trA, eip := 0x103, mem := gdt 0x8B 0x89 ++ idt ++ tssA ++ tssB 0x08 }

/-- S0 in 64-bit mode with the 16-byte descriptor of V21 over slots 5 and 6. -/
def s64 : State :=
  { s0 with
    cfg := { s0.cfg with mode := .long64 }
    mem := [(0x1028, 0x67), (0x102B, 0x20), (0x102D, 0x89), (0x1030, 0x01)] ++ tssA }

/-- The next state of an outcome, the state `d` where it is a stop. -/
def after (o : Host.Outcome State Fault Refusal) (d : State) : State :=
  match o with
  | .next t => t
  | .fault _ | .refused _ => d

/-- Whether an outcome is a next state with a property. -/
def nextWith (o : Host.Outcome State Fault Refusal) (p : State → Bool) : Bool :=
  match o with
  | .next t => p t
  | .fault _ | .refused _ => false

/-- Whether an outcome is the given fault. -/
def faultIs (o : Host.Outcome State Fault Refusal) (f : Fault) : Bool :=
  match o with
  | .fault g => decide (g = f)
  | .next _ | .refused _ => false

/-- Whether an outcome is the given refusal. -/
def refusedIs (o : Host.Outcome State Fault Refusal) (r : Refusal) : Bool :=
  match o with
  | .refused q => decide (q = r)
  | .next _ | .fault _ => false

theorem next_after {o : Host.Outcome State Fault Refusal} {d : State} (h : nextWith o (fun _ => true) = true) : o = .next (after o d) := by
  cases o <;> first | rfl | cases h

theorem of_faultIs {o : Host.Outcome State Fault Refusal} {f : Fault} (h : faultIs o f = true) : o = .fault f := by
  cases o with
  | fault g => rw [of_decide_eq_true h]
  | next => cases h
  | refused => cases h

theorem of_refusedIs {o : Host.Outcome State Fault Refusal} {r : Refusal} (h : refusedIs o r = true) : o = .refused r := by
  cases o with
  | refused q => rw [of_decide_eq_true h]
  | next => cases h
  | fault => cases h

/-- Task B called by A from `sA` through the gate (P3). -/
def sCalled : State := after (exec (.call 0x38 0) sA) sA

/-- Task B switched to by an interrupt at the boundary of `sA` (P6). -/
def sInt : State := after (toOutcome (takeEvent (.interrupt 0x20) sA)) sA

/-! ### The test vectors -/

/-- V20: the whole next state. -/
theorem test_V20_ltr : nextWith (exec (.ltr .eax) s0) (fun t => decide (t = sA)) = true := by decide

/-- V21: the base of 64 bits. -/
theorem test_V21_ltr64 :
    nextWith (exec (.ltr .eax) s64) (fun t => decide (t.tr = some ⟨0x28, 0x100002000, 0x67, ⟨false, false, true, 0, 0b1011⟩⟩ ∧ t.mem.byte 0x102D = 0x8B))
      = true := by decide

/-- P2: the jump saves EIP 0x10A in TSS A, clears A's busy flag, sets B's, leaves NT clear and CR3 alone. -/
theorem test_P2_jmp :
    nextWith (exec (.jmp 0x30 0) sA) (fun t => decide (t.eip = 0x200 ∧ t.eflags = 2 ∧ t.gprs.esp = 0xF000 ∧ t.gprs.edi = 0xB0000007 ∧ t.cr3 = 0x4000 ∧
      t.mem.read4 0x2020 = 0x10A ∧ t.mem.read4 0x2038 = 0xE000 ∧ t.mem.byte 0x102D = 0x89 ∧ t.mem.byte 0x1035 = 0x8B ∧ t.mem.read2 0x3000 = 0)) = true := by
  decide

/-- V34: an effective limit of 0x66 is too small. -/
theorem test_V34_jmp : faultIs (exec (.jmp 0x30 0) { sA with mem := sA.mem.setByte 0x1030 0x66 }) (.tssTooSmall 0x30) = true := by decide

/-- P3: the call nests: NT forced, link written, both tasks busy, EIP 0x10A saved. -/
theorem test_P3_call :
    nextWith (exec (.call 0x38 0) sA) (fun t => decide (t.eip = 0x200 ∧ t.eflags = 0x4002 ∧ t.mem.read2 0x3000 = 0x28 ∧ t.mem.byte 0x102D = 0x8B ∧
      t.mem.byte 0x1035 = 0x8B ∧ t.mem.read4 0x2020 = 0x10A ∧ t.mem.read4 0x2024 = 2)) = true := by decide

/-- P4: a call of a busy task. -/
theorem test_P4_call : faultIs (exec (.call 0x28 0) sCalled) (.taskBusy 0x28) = true := by decide

/-- P3: the return restores A, frees B's descriptor, clears NT in B's saved image and leaves the link. -/
theorem test_P3_iret :
    nextWith (exec .iret sCalled) (fun t => decide (t.gprs = s0.gprs ∧ t.segs = s0.segs ∧ t.eip = 0x10A ∧ t.eflags = 2 ∧ t.tr = some trA ∧
      t.mem.byte 0x102D = 0x8B ∧ t.mem.byte 0x1035 = 0x89 ∧ t.mem.read2 0x3000 = 0x28 ∧ t.mem.read4 0x3020 = 0x201 ∧ t.mem.read4 0x3024 = 2)) = true := by
  decide

/-- V41 and V44: NT clear; a link that names the running task. -/
theorem test_V41_V44_iret :
    refusedIs (exec .iret sA) .iretWithoutNT = true ∧
    refusedIs (exec .iret { sA with eflags := 0x4002, mem := sA.mem.write2 0x2000 0x28 }) .selfSwitch = true := by decide

/-- P6: an interrupt at a boundary saves the boundary EIP. -/
theorem test_P6_interrupt :
    nextWith (step { sA with offers := [some (.interrupt 0x20)] }) (fun t => decide (t.eip = 0x200 ∧ t.eflags = 0x4002 ∧ t.offers = [] ∧
      t.mem.read4 0x2020 = 0x103 ∧ t.mem.read2 0x3000 = 0x28)) = true := by decide

/-- The word placed by `withFetchWord` is the one the very next step runs, from `State.reset` as well. -/
theorem test_fetch_word :
    nextWith (step (s0.withFetchWord 24 0x0F00D8)) (fun t => decide (t.tr = some trA)) = true ∧
    faultIs (step (State.reset.withFetchWord 24 0x0F00D8)) (.selectorNull 0) = true ∧
    faultIs (step (State.reset.withFetchWord 56 0xEA000000000000)) (.selectorNull 0) = true ∧
    faultIs (step (State.reset.withFetchWord 56 0x9A000000000000)) (.selectorNull 0) = true ∧
    refusedIs (step (State.reset.withFetchWord 8 0xCF)) .iretWithoutNT = true := by decide

/-- V3 and V8: descriptor values with their fields. -/
theorem test_V3_V8_descriptors :
    encodeTss32 0x12345678 0xABCDE true true true 3 true = 0x129AEB345678BCDE ∧ effLimit (decodeTss32 0x129AEB345678BCDE) = 0xABCDEFFF ∧
    encodeGate 0x0030 true 3 = 0x0000E50000300000 ∧ classify 0x00CF9A000000FFFF = .other ∧ classify 0x0000810020000067 = .other := by decide

/-- S2 and S3, V19: fields of the three layouts. -/
theorem test_tss_layouts :
    tss32Offset .eip = 0x20 ∧ tss32Offset .gs = 0x5C ∧ tss32Offset .ssp = 0x68 ∧ tss16Offset .ax = 18 ∧ tss16Offset .ldt = 42 ∧
    tss64Offset (.rsp 0) = 4 ∧ tss64Offset (.ist 0) = 36 ∧ tss64Offset (.ist 6) = 84 ∧
    readTss32 s0.mem 0x3000 .esp = 0xF000 ∧ readTss32 s0.mem 0x3000 .ioMap = 0x68 := by decide

/-! ### Witnesses: for every obligation with hypotheses, a state and operands that meet them together -/

/-- DecodeOfEncodeIsTheInstruction. -/
theorem witness_DecodeOfEncode : (Instr.jmp 0xFFFF 0x80000000).wf = true := by decide

/-- OnlyEncodingsDecode: bytes that decode, of each length. -/
theorem witness_OnlyEncodingsDecode :
    decode [0x0F, 0x00, 0xDF, 0x0F] = .ok (.ltr .edi, [0x0F]) ∧ decode [0xEA, 0, 0, 0, 0, 0, 0] = .ok (.jmp 0 0, []) ∧ decode [0xCF] = .ok (.iret, []) := by
  decide

/-- `s0` with the program of P1 loaded. -/
def sCode : State := { s0 with code := s0.code.load s0.codeLoc [0x0F, 0x00, 0xD8] }

theorem no_offer {s : State} (h : s.offers = []) : ∀ e os, s.offers ≠ some e :: os := by
  intro e os; rw [h]; exact List.cons_ne_nil _ _ |>.symm

/-- StepRunsTheDecodedInstruction: the bytes decode, `code` has what the decoder reads, no event is offered, the location is no stop. -/
theorem witness_StepRunsTheDecodedInstruction :
    sCode.outcome = .running ∧ (∀ e os, sCode.offers ≠ some e :: os) ∧ sCode.codeLoc ∉ sCode.cfg.stops ∧
    decode [0x0F, 0x00, 0xD8, 0x90] = .ok (.ltr .eax, [0x90]) ∧ sCode.code.lookup sCode.codeLoc = decodedEntry [0x0F, 0x00, 0xD8, 0x90] :=
  ⟨rfl, no_offer rfl, by decide, by decide, by decide⟩

/-- `sA` with terms that lie over one another: a JMP given two bytes at 0x103, and an IRET at 0x104. -/
def sOver : State := { sA with code := [(⟨8, 0x103⟩, ⟨.jmp 0x30 0, 2⟩), (⟨8, 0x104⟩, ⟨.iret, 1⟩)] }

/-- StepRunsTheTermAtEip: a length of its own, and another term over it. -/
theorem witness_StepRunsTheTermAtEip :
    sOver.outcome = .running ∧ (∀ e os, sOver.offers ≠ some e :: os) ∧ sOver.codeLoc ∉ sOver.cfg.stops ∧
    sOver.code.lookup sOver.codeLoc = some ⟨.jmp 0x30 0, 2⟩ :=
  ⟨rfl, no_offer rfl, by decide, by decide⟩

/-- R64: the EIP saved is EIP + `len` with the `len` that `code` gives. -/
theorem test_R64_len_of_code : nextWith (step sOver) (fun t => decide (t.eip = 0x200 ∧ t.mem.read4 0x2020 = 0x105)) = true := by decide

/-- R11: a term whose length reaches past the 32 bits of EIP is run, and its sum refused. -/
theorem test_R11_address_wrap :
    refusedIs (step { s0 with eip := 0xFFFFFFFE, code := s0.code.load ⟨8, 0xFFFFFFFE⟩ [0x0F, 0x00, 0xD8] }) .addressWrap = true := by decide

/-- LoadingPutsTheDecodedTerm: a program text with terms on both sides of the location, bytes that decode and bytes that do not. -/
theorem witness_LoadingPutsTheDecodedTerm :
    CodeStore.wf [(⟨8, 0⟩, ⟨.iret, 1⟩), (⟨8, 0xFFFFFFFF⟩, ⟨.iret, 1⟩)] ∧ (⟨8, 0⟩ : CodeLoc) ≠ ⟨0, 0⟩ ∧
    decode [0xCF, 0xCF] = .ok (.iret, [0xCF]) ∧ decode [0x66, 0xCF] = .error .operandSizePrefixed := by decide

/-- NoInstructionIsRefused: nothing at EIP, and nothing offered. -/
theorem witness_NoInstructionIsRefused :
    s0.outcome = .running ∧ (∀ e os, s0.offers ≠ some e :: os) ∧ s0.codeLoc ∉ s0.cfg.stops ∧ s0.code.lookup s0.codeLoc = none :=
  ⟨rfl, no_offer rfl, by decide, rfl⟩

/-- StoppedRunsStayStopped: a stopped state, a step that faults and a step that is refused. -/
theorem witness_StoppedRunsStayStopped :
    ({ s0 with outcome := .faulted (.taskBusy 0x28) } : State).outcome ≠ .running ∧
    step ({ sCode with cpl := 3 } : State) = .fault (.privilegeViolation none) ∧ step s0 = .refused .noInstruction :=
  ⟨by decide, of_faultIs (by decide), of_refusedIs (by decide)⟩

/-- FinalStatesStay: a final state, and a step that goes on. -/
theorem witness_FinalStatesStay :
    Final { s0 with cfg := { s0.cfg with stops := [⟨8, 0x100⟩] } } ∧ ∃ t, step sCode = .next t :=
  ⟨⟨rfl, by decide, no_offer rfl⟩, _, next_after (d := s0) (by decide)⟩

/-- SelectorFormat: the boundary of the null selectors, and the first selector beyond it, which is not null. -/
theorem witness_SelectorFormat : (3 : Sel).toNat ≤ 3 ∧ (selIndex 3 = 0 ∧ selTI 3 = false) ∧ ¬ (selIndex 4 = 0 ∧ selTI 4 = false) := by decide

/-- DescriptorLookup: both sizes and the three sums, with a current LDT. -/
theorem witness_DescriptorLookup :
    let s : State := { s0 with ldtr := 0x50, cfg := { s0.cfg with ldtWindows := [⟨0x50, 0x1400, 0x1F⟩] } }
    s.cfg.gdtBase.toNat + s.cfg.gdtLimit.toNat < addrLimit s.cfg.mode ∧
    (∀ w, ldtWindowOf s.cfg s.ldtr = some w → w.base.toNat + w.limit < addrLimit s.cfg.mode) ∧
    s.cfg.idtBase.toNat + s.cfg.idtLimit.toNat < addrLimit s.cfg.mode ∧ ldtWindowOf s.cfg s.ldtr ≠ none := by
  refine ⟨by decide, fun w h => ?_, by decide, by decide⟩
  cases h; decide

/-- TssDescriptorRoundTrip: V1 as it stands in memory. -/
theorem witness_TssDescriptorRoundTrip : s0.mem.read8 0x1028 = encodeTss32 0x2000 0x6B false false true 0 false := by decide

/-- TaskGateRoundTrip: two gates that differ in reserved bits only (R59, V8). -/
theorem witness_TaskGateRoundTrip :
    ∀ k, (16 ≤ k ∧ k < 32) ∨ (40 ≤ k ∧ k < 48) → (0x0000E50000300000 : BitVec 64).getLsbD k = (0xFFFFE5FF0030FFFF : BitVec 64).getLsbD k := by
  have key : ∀ k, k < 48 → (16 ≤ k ∧ k < 32) ∨ (40 ≤ k ∧ k < 48) →
      (0x0000E50000300000 : BitVec 64).getLsbD k = (0xFFFFE5FF0030FFFF : BitVec 64).getLsbD k := by decide
  exact fun k h => key k (by omega) h

/-- LtrInProtectedMode and LtrInLong64Mode. -/
theorem witness_LtrInBothModes :
    (s0.cfg.mode = .protectedMode ∧ s0.cfg.gdtBase.toNat + s0.cfg.gdtLimit.toNat < 2 ^ 32 ∧ s0.eip.toNat + s0.lenOf (.ltr .eax) < 2 ^ 32) ∧
    (s64.cfg.mode = .long64 ∧ s64.cfg.gdtBase.toNat + s64.cfg.gdtLimit.toNat < 2 ^ 64 ∧ s64.eip.toNat + s64.lenOf (.ltr .eax) < 2 ^ 32) := by decide

theorem ltrReady_s0 : LtrReady s0 (s0.gprs.low16 .eax) (s0.lenOf (.ltr .eax)) :=
  ⟨rfl, rfl, ⟨by decide, by decide, by decide, by decide⟩, by decide, by decide, by decide, by decide, by decide⟩

theorem ltrReady64_s64 : LtrReady64 s64 (s64.gprs.low16 .eax) (s64.lenOf (.ltr .eax)) :=
  ⟨rfl, rfl, ⟨by decide, by decide, by decide, by decide⟩, by decide, by decide, by decide, by decide, by decide, by decide⟩

/-- LtrCompletes, in either mode. -/
theorem witness_LtrCompletes :
    (LtrReady s0 (s0.gprs.low16 .eax) (s0.lenOf (.ltr .eax)) ∨ LtrReady64 s0 (s0.gprs.low16 .eax) (s0.lenOf (.ltr .eax))) ∧
    (LtrReady s64 (s64.gprs.low16 .eax) (s64.lenOf (.ltr .eax)) ∨ LtrReady64 s64 (s64.gprs.low16 .eax) (s64.lenOf (.ltr .eax))) := ⟨.inl ltrReady_s0, .inr ltrReady64_s64⟩

/-- LtrSumsAreNotWrapped, first clause: a slot whose last byte lies one byte beyond the 32-bit addresses. -/
theorem witness_LtrSums_descriptor :
    let s : State := { s0 with cfg := { s0.cfg with gdtBase := 0xFFFFFFD1 } }
    s.cpl = 0 ∧ selTI (s.gprs.low16 .eax) = false ∧ selIndex (s.gprs.low16 .eax) ≠ 0 ∧
    8 * selIndex (s.gprs.low16 .eax) + descSize s.cfg.mode - 1 ≤ s.cfg.gdtLimit.toNat ∧
    addrLimit s.cfg.mode < gdtSlot s (s.gprs.low16 .eax) + descSize s.cfg.mode := by decide

/-- LtrSumsAreNotWrapped, second clause: an EIP whose sum with 3 is exactly 2^32. -/
theorem witness_LtrSums_eip :
    let s : State := { s0 with eip := 0xFFFFFFFD }
    (LtrReady { s with eip := 0 } (s.gprs.low16 .eax) 0 ∨ LtrReady64 { s with eip := 0 } (s.gprs.low16 .eax) 0) ∧
    2 ^ 32 ≤ s.eip.toNat + s.lenOf (.ltr .eax) :=
  ⟨.inl ⟨rfl, rfl, ⟨by decide, by decide, by decide, by decide⟩, by decide, by decide, by decide, by decide, by decide⟩, by decide⟩

/-- TargetResolution: a lookup that stops, one that finds a TSS descriptor and one that finds a gate. -/
theorem witness_TargetResolution :
    descAddr sA 3 8 = .error (.raise (.selectorNull 3)) ∧ (descAddr sA 0x30 8 = .ok 0x1030 ∧ 0x1030 + 8 ≤ addrLimit sA.cfg.mode) ∧
    (descAddr sA 0x38 8 = .ok 0x1038 ∧ 0x1038 + 8 ≤ addrLimit sA.cfg.mode) := ⟨rfl, ⟨rfl, by decide⟩, rfl, by decide⟩

/-- IncomingTaskIsChecked: every range fits; the base is that of the descriptor. -/
theorem witness_IncomingTaskIsChecked :
    let d := sA.mem.read8 (sA.cfg.gdtBase.toNat + 8 * selIndex 0x30)
    sA.cfg.mode = .protectedMode ∧ sA.cfg.gdtBase.toNat + sA.cfg.gdtLimit.toNat < 2 ^ 32 ∧
    ∀ r ∈ switchRanges sA trA.base.toNat (d.extractLsb' 56 8 ++ d.extractLsb' 32 8 ++ d.extractLsb' 16 16).toNat, r.2 < 2 ^ 32 := by decide

/-- A switch to B from A is ready for every kind but IRET. -/
theorem ready_sA {k : DispatchKind} (hk : k ≠ .iret) : SwitchReady k 0x30 trA sA :=
  ⟨rfl, rfl, ⟨by decide, by decide, by decide, by decide⟩, by decide, by decide, by cases k <;> first | decide | exact absurd rfl hk,
    by decide, by decide, by decide, by decide, by decide, by decide, by decide, fun _ => by decide⟩

theorem reaches_direct : Reaches sA 0x30 0x30 := .direct ⟨by decide, by decide, by decide, by decide⟩ (by decide) (by decide)

theorem reaches_gate : Reaches sA 0x38 0x30 :=
  .gate 0x1038 (.inl ⟨⟨by decide, by decide, by decide, by decide⟩, rfl⟩) (by decide) (by decide) (by decide)

/-- `sA` with a current LDT whose slot 1 is the gate to B. -/
def sLdt : State :=
  { sA with
    ldtr := 0x50
    cfg := { sA.cfg with ldtWindows := [⟨0x50, 0x1400, 0x1F⟩] }
    mem := gdt 0x8B 0x89 ++ [(0x140A, 0x30), (0x140D, 0xE5)] ++ idt ++ tssA ++ tssB 0x08 }

theorem inLdt_sLdt : InLdt sLdt 0x0C 0x1408 := ⟨by decide, ⟨_, rfl, by decide, by decide⟩, by decide⟩

theorem reaches_ldt : Reaches sLdt 0x0C 0x30 := .gate 0x1408 (.inr inLdt_sLdt) (by decide) (by decide) (by decide)

theorem ready_sLdt : SwitchReady .jmp 0x30 trA sLdt :=
  ⟨rfl, rfl, ⟨by decide, by decide, by decide, by decide⟩, by decide, by decide, by decide, by decide, by decide, by decide, by decide, by decide,
    by decide, by decide, fun _ => by decide⟩

/-- JmpCompletes and CallCompletes: straight to the descriptor, through the gate in the GDT, and through the gate in the LDT. -/
theorem witness_JmpCompletes_CallCompletes :
    sA.cfg.mode = .protectedMode ∧ sA.eip.toNat + sA.lenOf (.jmp 0x38 5) < 2 ^ 32 ∧ sA.eip.toNat + sA.lenOf (.call 0x38 5) < 2 ^ 32 ∧ Reaches sA 0x30 0x30 ∧ Reaches sA 0x38 0x30 ∧
    SwitchReady .jmp 0x30 trA sA ∧ SwitchReady .call 0x30 trA sA ∧
    (sLdt.cfg.mode = .protectedMode ∧ sLdt.eip.toNat + sLdt.lenOf (.jmp 0x0C 0) < 2 ^ 32 ∧ Reaches sLdt 0x0C 0x30 ∧ SwitchReady .jmp 0x30 trA sLdt) :=
  ⟨rfl, by decide, by decide, reaches_direct, reaches_gate, ready_sA (by decide), ready_sA (by decide), rfl, by decide, reaches_ldt, ready_sLdt⟩

/-- The task register of task B. -/
def trB : TaskReg := ⟨0x30, 0x3000, 0x6B, ⟨false, false, true, 0, 0b1011⟩⟩

/-- IretCompletes: task B after the call. -/
theorem witness_IretCompletes :
    sCalled.cfg.mode = .protectedMode ∧ sCalled.eip.toNat + sCalled.lenOf .iret < 2 ^ 32 ∧ ntFlag sCalled.eflags = true ∧
    SwitchReady .iret (sCalled.mem.read2 trB.base.toNat) trB sCalled :=
  ⟨by decide, by decide, by decide, by decide, by decide, ⟨by decide, by decide, by decide, by decide⟩, by decide, by decide, by decide, by decide, by decide,
    by decide, by decide, by decide, by decide, by decide, fun _ => by decide⟩

theorem gateInIdt_sA : GateInIdt sA 0x20 0x30 := ⟨by decide, by decide, by decide, by decide, by decide⟩

/-- EventsAreTaken: an interrupt and an exception without error code, at CPL 3 as well as 0. -/
theorem witness_EventsAreTaken :
    let s : State := { sA with offers := [some (.interrupt 0x20)] }
    let s' : State := { sA with offers := [some (.exception 0x20)], cpl := 3 }
    (s.outcome = .running ∧ s.cfg.mode = .protectedMode ∧ (Event.interrupt 0x20).deliverable s.cfg = true ∧
      GateInIdt s 0x20 0x30 ∧ SwitchReady .int 0x30 trA s) ∧
    (s'.outcome = .running ∧ (Event.exception 0x20).deliverable s'.cfg = true ∧ GateInIdt s' 0x20 0x30 ∧ SwitchReady .int 0x30 trA s') :=
  ⟨⟨rfl, rfl, rfl, ⟨by decide, by decide, by decide, by decide, by decide⟩,
      ⟨rfl, rfl, ⟨by decide, by decide, by decide, by decide⟩, by decide, by decide, by decide, by decide, by decide, by decide, by decide, by decide,
        by decide, by decide, fun _ => by decide⟩⟩,
    rfl, rfl, ⟨by decide, by decide, by decide, by decide, by decide⟩,
    ⟨rfl, rfl, ⟨by decide, by decide, by decide, by decide⟩, by decide, by decide, by decide, by decide, by decide, by decide, by decide, by decide,
      by decide, by decide, fun _ => by decide⟩⟩

/-- EventDispatch: the sum of the IDT, and an exception vector with an error code. -/
theorem witness_EventDispatch :
    sA.cfg.idtBase.toNat + sA.cfg.idtLimit.toNat < addrLimit sA.cfg.mode ∧ (13 ∈ ({ sA.cfg with errorVectors := [13] } : Config).errorVectors) := by decide

/-- `sA` with B's descriptor busy as well. -/
def sBusy : State := { sA with mem := gdt 0x8B 0x8B ++ idt ++ tssA ++ tssB 0x08 }

/-- BusyTasksAreNotReentered: the common hypotheses, a JMP or CALL that reaches the busy task, and a gate in the IDT. -/
theorem witness_BusyTasksAreNotReentered :
    sBusy.cfg.mode = .protectedMode ∧ sBusy.tr = some trA ∧ sBusy.cfg.shadowStackEnabled = false ∧ InGdt sBusy 0x30 8 ∧
    drawnAsTss (sBusy.mem.read8 (gdtSlot sBusy 0x30)) ∧ (tssAt sBusy 0x30).z54 = false ∧ (tssAt sBusy 0x30).z53 = false ∧ (tssAt sBusy 0x30).b = true ∧
    (Reaches sBusy 0x30 0x30 ∧ sBusy.eip.toNat + sBusy.lenOf (.jmp 0x30 0) < 2 ^ 32 ∧ sBusy.eip.toNat + sBusy.lenOf (.call 0x30 0) < 2 ^ 32) ∧ ((Event.interrupt 0x20).deliverable sBusy.cfg = true ∧ GateInIdt sBusy 0x20 0x30) :=
  ⟨rfl, rfl, rfl, ⟨by decide, by decide, by decide, by decide⟩, by decide, by decide, by decide, by decide,
    ⟨.direct ⟨by decide, by decide, by decide, by decide⟩ (by decide) (by decide), by decide, by decide⟩, rfl, by decide, by decide, by decide, by decide, by decide⟩

/-- GateHidesTheTssDpl: through the gate in the GDT and through the one in the LDT, with the DPL of B's descriptor made 3. -/
theorem witness_GateHidesTheTssDpl :
    ((InGdt sA 0x38 8 ∧ 0x1038 = gdtSlot sA 0x38) ∨ InLdt sA 0x38 0x1038) ∧ drawnAsGate (sA.mem.read8 0x1038) ∧
    sA.eip.toNat + sA.lenOf (.call 0x38 0) < 2 ^ 32 ∧
    Reaches sA 0x38 ((sA.mem.read8 0x1038).extractLsb' 16 16) ∧ SwitchReady .call ((sA.mem.read8 0x1038).extractLsb' 16 16) trA sA ∧
    (∀ i, i < 8 → i ≠ 5 → i ≠ 6 → (0xE9 : Byte).getLsbD i = (sA.mem.byte (gdtSlot sA ((sA.mem.read8 0x1038).extractLsb' 16 16) + 5)).getLsbD i) ∧
    (((InGdt sLdt 0x0C 8 ∧ 0x1408 = gdtSlot sLdt 0x0C) ∨ InLdt sLdt 0x0C 0x1408) ∧ drawnAsGate (sLdt.mem.read8 0x1408) ∧
      sLdt.eip.toNat + sLdt.lenOf (.jmp 0x0C 0) < 2 ^ 32 ∧ Reaches sLdt 0x0C ((sLdt.mem.read8 0x1408).extractLsb' 16 16) ∧ SwitchReady .jmp ((sLdt.mem.read8 0x1408).extractLsb' 16 16) trA sLdt) := by
  have e1 : (sA.mem.read8 0x1038).extractLsb' 16 16 = 0x30 := by decide
  have e2 : (sLdt.mem.read8 0x1408).extractLsb' 16 16 = 0x30 := by decide
  rw [e1, e2]
  exact ⟨.inl ⟨⟨by decide, by decide, by decide, by decide⟩, rfl⟩, by decide, by decide, reaches_gate, ready_sA (by decide), by decide,
    .inr inLdt_sLdt, by decide, by decide, reaches_ldt, ready_sLdt⟩

/-- NoTaskSwitchInLong64 and Long64StepsAreLtr: a step in 64-bit mode that goes on and is not the rest at a stop. -/
theorem witness_Long64 :
    let s : State := { s64 with code := sCode.code }
    s.cfg.mode = .long64 ∧ ¬ Final s ∧ (Event.interrupt 0x20).deliverable s.cfg = true ∧ ∃ t, step s = .next t :=
  ⟨rfl, fun h => absurd h.2.1 (by decide), rfl, _, next_after (d := s64) (by decide)⟩

/-- IretNeedsNtAndTr: both clauses. -/
theorem witness_IretNeedsNtAndTr :
    (sA.cfg.mode = .protectedMode ∧ sA.eflags.getLsbD 14 = false) ∧
    (let s : State := { s0 with eflags := 0x4002 }
     s.cfg.mode = .protectedMode ∧ s.eflags.getLsbD 14 = true ∧ s.tr = none) := by decide

/-- SwitchesNeedTrAndNoShadowStack: a task register never loaded, and shadow stacks; a JMP and a CALL that reach a task, an event, and an IRET. -/
theorem witness_SwitchesNeedTrAndNoShadowStack :
    let s : State := { s0 with eflags := 0x4002 }
    let u : State := { sA with eflags := 0x4002, cfg := { sA.cfg with shadowStackEnabled := true } }
    (s.tr = none ∧ s.cfg.mode = .protectedMode ∧ Reaches s 0x38 0x30 ∧ s.eip.toNat + s.lenOf (.jmp 0x38 0) < 2 ^ 32 ∧
      s.eip.toNat + s.lenOf (.call 0x38 0) < 2 ^ 32 ∧ (Event.interrupt 0x20).deliverable s.cfg = true ∧ GateInIdt s 0x20 0x30 ∧
      s.eflags.getLsbD 14 = true ∧ s.eip.toNat + s.lenOf .iret < 2 ^ 32) ∧
    (u.tr = some trA ∧ u.cfg.shadowStackEnabled = true ∧ u.cfg.mode = .protectedMode ∧ Reaches u 0x30 0x30 ∧
      u.eip.toNat + u.lenOf (.jmp 0x30 0) < 2 ^ 32 ∧ u.eip.toNat + u.lenOf (.call 0x30 0) < 2 ^ 32 ∧
      (Event.interrupt 0x20).deliverable u.cfg = true ∧ GateInIdt u 0x20 0x30 ∧ u.eflags.getLsbD 14 = true ∧ trA.base.toNat + 2 ≤ 2 ^ 32 ∧
      u.eip.toNat + u.lenOf .iret < 2 ^ 32) :=
  ⟨⟨rfl, rfl, .gate 0x1038 (.inl ⟨⟨by decide, by decide, by decide, by decide⟩, by decide⟩) (by decide) (by decide) (by decide), by decide, by decide, rfl,
      ⟨by decide, by decide, by decide, by decide, by decide⟩, by decide, by decide⟩,
    rfl, rfl, rfl, .direct ⟨by decide, by decide, by decide, by decide⟩ (by decide) (by decide), by decide, by decide, rfl,
    ⟨by decide, by decide, by decide, by decide, by decide⟩, by decide, by decide, by decide⟩

/-- EipSumsAreNotWrapped: every clause at the first EIP whose sum does not fit. -/
theorem witness_EipSumsAreNotWrapped :
    let s : State := { sA with eip := 0xFFFFFFF9 }
    let u : State := { sA with eip := 0xFFFFFFFF, eflags := 0x4002 }
    (s.cfg.mode = .protectedMode ∧ Reaches s 0x30 0x30 ∧ 2 ^ 32 = s.eip.toNat + s.lenOf (.jmp 0x30 0) ∧ 2 ^ 32 = s.eip.toNat + s.lenOf (.call 0x30 0)) ∧
    (u.cfg.mode = .protectedMode ∧ u.eflags.getLsbD 14 = true ∧ u.tr = some trA ∧ trA.base.toNat + 2 ≤ 2 ^ 32 ∧ 2 ^ 32 = u.eip.toNat + u.lenOf .iret) :=
  ⟨⟨rfl, .direct ⟨by decide, by decide, by decide, by decide⟩ (by decide) (by decide), by decide, by decide⟩, rfl, by decide, rfl, by decide, by decide⟩

/-- IretNeedsABusyTask: V43. -/
theorem witness_IretNeedsABusyTask :
    let s : State := { sA with eflags := 0x4002, mem := gdt 0x8B 0x89 ++ idt ++ (0x2000, 0x30) :: tssA ++ tssB 0x08 }
    let link := s.mem.read2 trA.base.toNat
    s.cfg.mode = .protectedMode ∧ s.eip.toNat + s.lenOf .iret < 2 ^ 32 ∧ s.eflags.getLsbD 14 = true ∧ s.tr = some trA ∧ trA.base.toNat + 2 ≤ 2 ^ 32 ∧
    s.cfg.shadowStackEnabled = false ∧ InGdt s link 8 ∧ drawnAsTss (s.mem.read8 (gdtSlot s link)) ∧ (tssAt s link).z54 = false ∧
    (tssAt s link).z53 = false ∧ (tssAt s link).b = false :=
  ⟨rfl, by decide, by decide, rfl, by decide, rfl, ⟨by decide, by decide, by decide, by decide⟩, by decide, by decide, by decide, by decide⟩

/-! The invariant, and a task switch of every kind. -/

theorem invariant_sA : Invariant sA := by
  refine ⟨by decide, by decide, by decide, fun tr h => ?_⟩
  cases h
  exact ⟨⟨by decide, by decide, by decide, by decide⟩, by decide, by decide, by decide, by decide⟩

theorem tr_sCalled : sCalled.tr = some trB := by decide

theorem invariant_sCalled : Invariant sCalled := by
  refine ⟨by decide, by decide, by decide, fun tr h => ?_⟩
  rw [tr_sCalled] at h
  cases h
  exact ⟨⟨by decide, by decide, by decide, by decide⟩, by decide, by decide, by decide, by decide⟩

theorem run_jmp : SwitchRun .jmp 0x10A sA (after (exec (.jmp 0x30 0) sA) sA) := ⟨0x30, 0, next_after (by decide), by decide⟩

theorem run_call : SwitchRun .call 0x10A sA sCalled := ⟨0x38, 0, next_after (by decide), by decide⟩

theorem run_int : SwitchRun .int 0x103 sA sInt := ⟨⟨.interrupt 0x20, next_after (by decide)⟩, by decide⟩

theorem run_iret : SwitchRun .iret 0x201 sCalled (after (exec .iret sCalled) sCalled) := ⟨next_after (by decide), by decide⟩

/-- OutgoingContextIsSaved, IncomingContextIsLoaded, BusyNtAndLinkTable, TaskRegisterAfterSwitch, Cr3OnSwitch, SwitchFrame and
StaticTssFieldsAreKept: a switch of every kind from a state that meets the invariant. -/
theorem witness_SwitchRun :
    (Invariant sA ∧ ∃ t, SwitchRun .jmp 0x10A sA t) ∧ (Invariant sA ∧ ∃ t, SwitchRun .call 0x10A sA t) ∧
    (Invariant sA ∧ ∃ t, SwitchRun .int 0x103 sA t) ∧ (Invariant sCalled ∧ ∃ t, SwitchRun .iret 0x201 sCalled t) :=
  ⟨⟨invariant_sA, _, run_jmp⟩, ⟨invariant_sA, _, run_call⟩, ⟨invariant_sA, _, run_int⟩, invariant_sCalled, _, run_iret⟩

/-- The busy bytes and the link of the call by A lie at 0x1035, 0x3000 and 0x3001. -/
theorem not_linkOrBusy_call {x : Nat} (h : x ≠ 0x1035 ∧ x ≠ 0x3000 ∧ x ≠ 0x3001) : ¬ linkOrBusyByte .call sA trA trB x := by
  have h1 : gdtSlot sA trB.sel + 5 = 0x1035 := by decide
  have h2 : trB.base.toNat = 0x3000 := by decide
  rintro (⟨hc, -⟩ | ⟨-, hx⟩ | ⟨-, hx⟩)
  · cases hc
  · rw [h1] at hx; omega
  · rw [h2] at hx; omega

/-- OutgoingContextIsSaved and StaticTssFieldsAreKept, the clauses about the SSP rows: no byte of either, its two ends among them, is a busy byte
or a byte of the link, in the call by A. -/
theorem witness_SspRows :
    sA.tr = some trA ∧ sCalled.tr = some trB ∧ ∀ base, base = trA.base.toNat ∨ base = trB.base.toNat →
      ∀ x, base + 104 ≤ x → x ≤ base + 107 → ¬ linkOrBusyByte .call sA trA trB x :=
  ⟨rfl, tr_sCalled, fun base hb x h1 h2 => by
    have ha : trA.base.toNat = 0x2000 := by decide
    have hc : trB.base.toNat = 0x3000 := by decide
    rw [ha, hc] at hb
    exact not_linkOrBusy_call (by omega)⟩

/-- TaskRegisterAfterSwitch, second and third clause: the target of a call, and a static byte of TSS A at each end of it. -/
theorem witness_TaskRegisterAfterSwitch :
    exec (.call 0x38 0) sA = .next sCalled ∧ sA.tr = some trA ∧
    (∀ x, x = 0x2000 ∨ x = 0x2067 → trA.base.toNat ≤ x ∧ x ≤ trA.base.toNat + 103 ∧ ¬ dynamicByte trA.base.toNat x) :=
  ⟨next_after (by decide), rfl, fun x h => by
    have hb : trA.base.toNat = 0x2000 := by decide
    rw [hb]
    exact ⟨by omega, by omega, not_dynamicByte (by omega)⟩⟩

/-- Cr3OnSwitch, first clause: the jump of P2b, with paging. -/
theorem witness_Cr3OnSwitch :
    let s : State := { sA with cfg := { sA.cfg with pagingEnabled := true } }
    s.cfg.pagingEnabled = true ∧ ∃ t, SwitchRun .jmp 0x10A s t :=
  ⟨rfl, _, 0x30, 0, next_after (d := sA) (by decide), by decide⟩

/-- ResumedTaskFindsItsContext: A calls B, and B returns. -/
theorem witness_ResumedTaskFindsItsContext :
    SwitchRun .call 0x10A sA sCalled ∧ sA.tr = some trA ∧ Invariant sCalled ∧
    SwitchRun .iret 0x201 sCalled (after (exec .iret sCalled) sCalled) ∧
    ∃ v, (after (exec .iret sCalled) sCalled).tr = some v ∧ v.base = trA.base :=
  ⟨run_call, rfl, invariant_sCalled, run_iret, trA, by decide, rfl⟩

/-- NestedDispatchReturns: a call and an interrupt, each returned from. -/
theorem witness_NestedDispatchReturns :
    Invariant sA ∧ (SwitchRun .call 0x10A sA sCalled ∧ ∃ u, exec .iret sCalled = .next u) ∧ (SwitchRun .int 0x103 sA sInt ∧ ∃ u, exec .iret sInt = .next u) :=
  ⟨invariant_sA, ⟨run_call, _, next_after (d := sA) (by decide)⟩, run_int, _, next_after (d := sA) (by decide)⟩

/-- BootThenFirstSwitch: S0, where LTR is ready, and so is a JMP to B with A in the task register. -/
theorem witness_BootThenFirstSwitch :
    LtrReady s0 (s0.gprs.low16 .eax) (s0.lenOf (.ltr .eax)) ∧
    (let s' : State := { s0 with eip := s0.eipAfter (.ltr .eax) }; s'.eip.toNat + s'.lenOf (.jmp 0x30 0) < 2 ^ 32) ∧
    SwitchReady .jmp 0x30 (taskRegOf (s0.gprs.low16 .eax) (tssAt s0 (s0.gprs.low16 .eax)))
      { s0 with tr := some (taskRegOf (s0.gprs.low16 .eax) (tssAt s0 (s0.gprs.low16 .eax))) } ∧
    (selRPL 0x30).toNat ≤ ((s0.mem.read8 (gdtSlot s0 0x30)).extractLsb' 45 2).toNat :=
  ⟨ltrReady_s0, by decide, ⟨rfl, rfl, ⟨by decide, by decide, by decide, by decide⟩, by decide, by decide, by decide, by decide, by decide, by decide,
    by decide, by decide, by decide, by decide, fun _ => by decide⟩, by decide⟩

/-- StepKeepsTheInvariant, and the steps and instructions that go on in ParametersNeverChange and SspIsInert. -/
theorem witness_StepKeepsTheInvariant :
    let s : State := { sA with code := sA.code.load ⟨8, 0x103⟩ [0xEA, 0, 0, 0, 0, 0x30, 0] }
    Invariant s ∧ ∃ t, step s = .next t := by
  refine ⟨⟨by decide, by decide, by decide, fun tr h => ?_⟩, _, next_after (d := sA) (by decide)⟩
  cases h
  exact ⟨⟨by decide, by decide, by decide, by decide⟩, by decide, by decide, by decide, by decide⟩

/-- StepsWriteOnlyTheirBytes: the LTR of P1 writes the busy byte, and not the byte after it. -/
theorem stepWrites_sCode {x : Nat} (h : stepWrites sCode x) : x = 0x102D := by
  have ha : actionOf sCode = .instr (.ltr .eax) := by decide
  have hg : gdtSlot sCode (sCode.gprs.low16 .eax) + 5 = 0x102D := by decide
  obtain ⟨t, -, ⟨r, hr, hx⟩ | ⟨k, tr, v, hk, -⟩⟩ := h
  · rw [ha] at hr
    cases hr
    rw [hx, hg]
  · rw [ha] at hk
    cases hk

theorem witness_StepsWriteOnlyTheirBytes : (∃ t, step sCode = .next t) ∧ ¬ stepWrites sCode 0x102E :=
  ⟨⟨_, next_after (d := s0) (by decide)⟩, fun h => absurd (stepWrites_sCode h) (by decide)⟩

/-- In the memory of S0 the byte at 0x5000 is in no structure. -/
theorem not_structureByte_s0 {s : State} (hc : s.cfg = s0.cfg) (hm : s.mem = s0.mem) (ht : s.tr = none) : ¬ structureByte s 0x5000 := by
  have hg : ∀ sel, gdtSlot s sel = 0x1000 + 8 * selIndex sel := fun sel => by simp only [gdtSlot, hc]; rfl
  have key : ∀ i, i < 8 → drawnAsTss (s0.mem.read8 (0x1000 + 8 * i)) → (decodeTss32 (s0.mem.read8 (0x1000 + 8 * i))).base.toNat + 103 < 0x5000 := by decide
  rintro (⟨-, h⟩ | ⟨-, h⟩ | ⟨w, hw, -⟩ | ⟨tr, htr, -⟩ | ⟨tr, htr, -⟩ | ⟨sel, hs, hd, -, h⟩)
  · rw [hc] at h; exact absurd h (by decide)
  · rw [hc] at h; exact absurd h (by decide)
  · rw [hc] at hw; cases hw
  · rw [ht] at htr; cases htr
  · rw [ht] at htr; cases htr
  · have hi : 8 * selIndex sel + 8 - 1 ≤ 0x3F := by have := hs.inTable; rw [hc] at this; exact this
    rw [hg, hm] at hd
    have := key (selIndex sel) (by omega) hd
    rw [tssAt, hg, hm] at h
    omega

/-- StepsTouchOnlyStructures: a step that writes a byte, one that faults, one that is refused and one that goes on, each with a memory that
differs from that of the state at 0x5000 alone. -/
theorem witness_StepsTouchOnlyStructures :
    let f : State := { sCode with cpl := 3 }
    stepWrites sCode 0x102D ∧ (s0.mem.setByte 0x5000 1).byte 0x5000 ≠ s0.mem.byte 0x5000 ∧
    (∀ s, s = sCode ∨ s = f ∨ s = s0 → ∀ x, structureByte s x → (s0.mem.setByte 0x5000 1).byte x = s.mem.byte x) ∧
    step f = .fault (.privilegeViolation none) ∧ step s0 = .refused .noInstruction ∧ ∃ t, step sCode = .next t := by
  refine ⟨⟨_, next_after (d := s0) (by decide), .inl ⟨.eax, by decide, by decide⟩⟩, by decide, ?_, of_faultIs (by decide), of_refusedIs (by decide),
    _, next_after (d := s0) (by decide)⟩
  intro s hs x hx
  obtain ⟨hc, hm, ht⟩ : s.cfg = s0.cfg ∧ s.mem = s0.mem ∧ s.tr = none := by rcases hs with rfl | rfl | rfl <;> exact ⟨rfl, rfl, rfl⟩
  rw [hm, Memory.byte_setByte_other]
  rintro rfl
  exact not_structureByte_s0 hc hm ht hx

/-- R80, log 12: the busy byte of a current task whose descriptor slot lies beyond the GDT limit is written by its JMP, and is a byte of a structure. -/
theorem test_R110_outgoing_slot :
    let s : State := { sA with tr := some { trA with sel := 0x80 }, code := sA.code.load ⟨8, 0x103⟩ [0xEA, 0, 0, 0, 0, 0x30, 0] }
    s.cfg.gdtLimit.toNat < 0x80 ∧ stepWrites s 0x1085 ∧ structureByte s 0x1085 :=
  ⟨by decide, ⟨_, next_after (d := sA) (by decide), .inr ⟨.jmp, { trA with sel := 0x80 }, trB, by decide, rfl, by decide, .inr (.inl ⟨rfl, by decide⟩)⟩⟩,
    .inr (.inr (.inr (.inr (.inl ⟨_, rfl, by decide, by decide⟩))))⟩

/-- R96, R110: an environment that may not leave a boundary without an event is met by no finite list of offers. -/
theorem test_R110_environment :
    ¬ EnvAssumption (fun _ o => o = some (.interrupt 0x20)) { sA with offers := [some (.interrupt 0x20)] } ∧
    EnvAssumption (fun j o => j = 0 ∨ o = none) { sA with offers := [some (.interrupt 0x20)] } := by
  refine ⟨fun h => absurd (h 1) (by decide), fun j => ?_⟩
  cases j with
  | zero => exact .inl rfl
  | succ j => exact .inr rfl

/-- CodeFixedKeepsTheProgram: the run of P1's LTR, its three bytes lying at 0x8100. -/
theorem witness_CodeFixedKeepsTheProgram : CodeFixed (fun l => 0x8000 + l.eip.toNat) 1 sCode := by
  refine ⟨fun j hj => ?_, fun j hj c hc i hi h => ?_⟩
  · obtain rfl | rfl : j = 0 ∨ j = 1 := by omega
    · rfl
    · decide
  · obtain rfl : j = 0 := by omega
    have hx := stepWrites_sCode h
    have hc' : ∀ c ∈ sCode.code, c.1.eip.toNat = 0x100 := by decide
    rw [hc' c hc] at hx
    omega

/-- PremisesTheModelMeets: a launch with paging off, and an environment assumption that a launch meets. -/
theorem witness_PremisesTheModelMeets :
    sCode.cfg.pagingEnabled = false ∧ EnvAssumption (fun j o => j = 0 ∨ o = none) { sA with offers := [some (.interrupt 0x20)] } :=
  ⟨rfl, test_R110_environment.2⟩

/-- The premises that take arguments are neither empty nor always met: identity page tables meet `LinearIsPhysical`, and tables
that map nothing, everything to one place, or everything one page up do not (log 30); `SegsValid` fails of a processor that accepts nothing, and holds of one that accepts all. -/
theorem test_R110_premises :
    let s : State := { sInt with cfg := { sInt.cfg with pagingEnabled := true } }
    let u : State := { sA with offers := [some (.interrupt 0x20)] }
    LinearIsPhysical (fun _ x => some x) 3 s ∧ ¬ LinearIsPhysical (fun _ _ => none) 0 s ∧
    ¬ LinearIsPhysical (fun _ _ => some 0) 0 s ∧ ¬ LinearIsPhysical (fun _ x => some (x + 0x1000)) 0 s ∧
    SegsValid (fun _ _ _ _ => True) 3 u ∧ ¬ SegsValid (fun _ _ _ _ => False) 1 u := by
  -- the first byte of the GDT is mapped to itself
  have key : ∀ phys, LinearIsPhysical phys 0 { sInt with cfg := { sInt.cfg with pagingEnabled := true } } → phys sInt.cr3 0x1000 = some 0x1000 := by
    rintro phys (h | h)
    · exact absurd h (by decide)
    · exact h 0 (Nat.le_refl 0) 0x1000 (.inl (by decide)) 0 (Nat.le_refl 0)
  refine ⟨.inr fun _ _ _ _ _ _ => rfl, fun h => absurd (key _ h) (by decide), fun h => absurd (key _ h) (by decide),
    fun h => absurd (key _ h) (by decide), fun _ _ _ _ _ _ => trivial, fun h => ?_⟩
  · exact h 0 Nat.one_pos _ (next_after (d := sA) (by decide)) (by decide) .cs

/-- SspIsInert, third clause. -/
theorem witness_SspIsInert :
    let s : State := { sA with cfg := { sA.cfg with shadowStackEnabled := true } }
    s.cfg.shadowStackEnabled = true ∧ s.tr ≠ none := by decide

/-- CplChangesOnlyBySwitch: an interrupt whose handler task runs at CPL 3. -/
theorem witness_CplChangesOnlyBySwitch :
    let s : State := { sA with offers := [some (.interrupt 0x20)], mem := gdt 0x8B 0x89 ++ idt ++ tssA ++ tssB 0x0B }
    Invariant s ∧ ∃ t, step s = .next t ∧ t.cpl ≠ s.cpl := by
  refine ⟨⟨by decide, by decide, by decide, fun tr h => ?_⟩, _, next_after (d := sA) (by decide), by decide⟩
  cases h
  exact ⟨⟨by decide, by decide, by decide, by decide⟩, by decide, by decide, by decide, by decide⟩

/-- LtrIsPrivileged. -/
theorem witness_LtrIsPrivileged : ({ s0 with cpl := 1 } : State).cpl ≠ 0 := by decide

/-- SelfSwitchOnlyByIret. -/
theorem witness_SelfSwitchOnlyByIret : Invariant sA := invariant_sA

end Sys2Proof.Tests
end

section
/-! PROOFS. What LTR answers where a sum does not fit (R9, R11; log 10): the descriptor's bytes, and the next EIP. -/

namespace Sys2Proof.Machine

/-! ### Sums that do not fit -/

theorem addrSum_of_wrap {s : State} {b o : Nat} (h : addrLimit s.cfg.mode ≤ b + o) : addrSum s b o = .error (.refuse .addressWrap) := by
  rw [addrSum, refuseIf_pos h, Chk.error_bind]

theorem addrSum_of_fits {s : State} {b o : Nat} (h : b + o < addrLimit s.cfg.mode) : addrSum s b o = .ok (b + o) :=
  addrSum_eq_ok.2 ⟨h, rfl⟩

theorem memRead8_of_wrap {s : State} {a : Nat} (h : addrLimit s.cfg.mode < a + 8) : memRead8 s a = .error (.refuse .addressWrap) := by
  rw [memRead8, accessFits, refuseIf_pos h, Chk.error_bind]

theorem memRead16_of_wrap {s : State} {a : Nat} (h : addrLimit s.cfg.mode < a + 16) : memRead16 s a = .error (.refuse .addressWrap) := by
  rw [memRead16, accessFits, refuseIf_pos h, Chk.error_bind]

theorem nextEip_of_wrap {s : State} {i : Instr} (h : 2 ^ 32 ≤ s.eip.toNat + s.lenOf i) : nextEip s i = .error (.refuse .addressWrap) := by
  rw [nextEip, refuseIf_pos h, Chk.error_bind]

/-- A selector that passes the null and limit checks in the GDT is left with the address sum of its slot (R50). -/
theorem descAddr_of_inTable {s : State} {sel : Sel} {n : Nat} (hti : selTI sel = false) (hn : selIndex sel ≠ 0)
    (hl : 8 * selIndex sel + n - 1 ≤ s.cfg.gdtLimit.toNat) :
    descAddr s sel n = addrSum s s.cfg.gdtBase.toNat (8 * selIndex sel) := by
  have htbl : tableOf s sel = .ok (s.cfg.gdtBase.toNat, s.cfg.gdtLimit.toNat) := by
    rw [tableOf, hti]; exact if_neg Bool.false_ne_true
  simp only [descAddr, raiseIf_neg (fun h : selIndex sel = 0 ∧ selTI sel = false => hn h.1), htbl, Chk.ok_bind,
    raiseIf_neg (Nat.not_lt.2 hl)]

/-! ### LTR's checks -/

theorem exec_ltr (r : Reg) (s : State) : exec (.ltr r) s = execLtr r s := rfl

/-- LTR is refused where its checks are. -/
theorem exec_ltr_of_checkLtr_refuse {r : Reg} {s : State} {x : Refusal}
    (h : checkLtr (s.gprs.low16 r) (.ltr r) s = .error (.refuse x)) : exec (.ltr r) s = .refused x := by
  rw [exec_ltr, execLtr, h, Chk.error_bind, toOutcome]

theorem ltrDescSize_eq_descSize (m : Mode) : ltrDescSize m = descSize m := by cases m <;> rfl

/-- The read of a descriptor whose last byte lies beyond the address width. -/
theorem readLtrDesc_of_wrap {s : State} {a : Nat} {sel : Sel} (h : addrLimit s.cfg.mode < a + descSize s.cfg.mode) :
    readLtrDesc s a sel = .error (.refuse .addressWrap) := by
  cases hm : s.cfg.mode with
  | protectedMode =>
    have h8 : addrLimit s.cfg.mode < a + 8 := by simpa only [hm, descSize] using h
    simp only [readLtrDesc, hm, memRead8_of_wrap h8, Chk.error_bind]
  | long64 =>
    have h16 : addrLimit s.cfg.mode < a + 16 := by simpa only [hm, descSize] using h
    simp only [readLtrDesc, hm, memRead16_of_wrap h16, Chk.error_bind]

/-- The 16-byte descriptor has the fields of the 8-byte one at the same address, but for the base and the field 108:104 (R46). -/
theorem decodeTss64_read16 (m : Memory) (a : Nat) :
    decodeTss64 (m.read16 a) = { decodeTss32 (m.read8 a) with
      base := (decodeTss64 (m.read16 a)).base, zero := (m.read16 a).extractLsb' 104 5 } := by
  rw [← Memory.low64_read16]; rfl

/-- The read of a TSS descriptor that fits the address width. -/
theorem readLtrDesc_of_tss {s : State} {sel : Sel} (hs : InGdt s sel (descSize s.cfg.mode))
    (ht : drawnAsTss (s.mem.read8 (gdtSlot s sel))) : readLtrDesc s (gdtSlot s sel) sel = .ok (modeTssAt s sel) := by
  cases hm : s.cfg.mode with
  | protectedMode =>
    have h8 : gdtSlot s sel + 8 ≤ addrLimit s.cfg.mode := by simpa only [hm, descSize] using hs.fits
    simp only [readLtrDesc, modeTssAt, hm, memRead8_eq_ok.2 ⟨h8, rfl⟩, Chk.ok_bind, classify_of_tss ht]
  | long64 =>
    have h16 : gdtSlot s sel + 16 ≤ addrLimit s.cfg.mode := by simpa only [hm, descSize] using hs.fits
    simp only [readLtrDesc, modeTssAt, hm, memRead16_eq_ok.2 ⟨h16, rfl⟩, Chk.ok_bind, Memory.low64_read16, classify_of_tss ht]

/-- The slot of a global selector goes beyond the address width: LTR's checks are refused at the address sum or at the read. -/
theorem checkLtr_of_slot_wrap {s : State} {sel : Sel} {i : Instr} (hc : s.cpl = 0) (hti : selTI sel = false) (hn : selIndex sel ≠ 0)
    (hl : 8 * selIndex sel + descSize s.cfg.mode - 1 ≤ s.cfg.gdtLimit.toNat)
    (hw : addrLimit s.cfg.mode < gdtSlot s sel + descSize s.cfg.mode) : checkLtr sel i s = .error (.refuse .addressWrap) := by
  simp only [checkLtr, raiseIf_neg (not_not.2 hc), raiseIf_neg (ne_true_of_eq_false hti), Chk.ok_bind, ltrDescSize_eq_descSize,
    descAddr_of_inTable hti hn hl]
  by_cases hsum : addrLimit s.cfg.mode ≤ s.cfg.gdtBase.toNat + 8 * selIndex sel
  · rw [addrSum_of_wrap hsum, Chk.error_bind]
  · rw [gdtSlot] at hw
    rw [addrSum_of_fits (Nat.not_le.1 hsum), Chk.ok_bind, readLtrDesc_of_wrap hw, Chk.error_bind]

/-- Every check of LTR but that of the next EIP passes, in either mode (R69, R70). -/
structure LtrChecksPass (s : State) (sel : Sel) : Prop where
  cpl     : s.cpl = 0
  slot    : InGdt s sel (descSize s.cfg.mode)
  isTss   : drawnAsTss (s.mem.read8 (gdtSlot s sel))
  zeros   : (modeTssAt s sel).z54 = false ∧ (modeTssAt s sel).z53 = false
  zero    : (modeTssAt s sel).zero = 0
  notBusy : (modeTssAt s sel).b = false
  present : (modeTssAt s sel).p = true

theorem LtrReady.checksPass {s : State} {sel : Sel} {len : Nat} (h : LtrReady s sel len) : LtrChecksPass s sel := by
  have ht : modeTssAt s sel = decodeTss32 (s.mem.read8 (gdtSlot s sel)) := by rw [modeTssAt, h.mode]
  exact ⟨h.cpl, h.mode ▸ h.slot, h.isTss, ht ▸ h.zeros, ht ▸ rfl, ht ▸ h.notBusy, ht ▸ h.present⟩

theorem LtrReady64.checksPass {s : State} {sel : Sel} {len : Nat} (h : LtrReady64 s sel len) : LtrChecksPass s sel := by
  have ht : modeTssAt s sel = decodeTss64 (s.mem.read16 (gdtSlot s sel)) := by rw [modeTssAt, h.mode]
  rw [decodeTss64_read16] at ht
  exact ⟨h.cpl, h.mode ▸ h.slot, h.isTss, ht ▸ h.zeros, ht ▸ h.zero, ht ▸ h.notBusy, ht ▸ h.present⟩

/-- The checks before that of the next EIP do not look at EIP. -/
theorem LtrChecksPass.of_withEip {s : State} {sel : Sel} {e : Word} (h : LtrChecksPass (s.withEip e) sel) : LtrChecksPass s sel :=
  ⟨h.cpl, ⟨h.slot.global, h.slot.notNull, h.slot.inTable, h.slot.fits⟩, h.isTss, h.zeros, h.zero, h.notBusy, h.present⟩

/-- When the other checks pass, LTR's checks come down to the next EIP. -/
theorem LtrChecksPass.checkLtr_eq {s : State} {sel : Sel} (h : LtrChecksPass s sel) (i : Instr) :
    checkLtr sel i s = nextEip s i >>= fun e => .ok (gdtSlot s sel, modeTssAt s sel, e) := by
  have hd : descAddr s sel (descSize s.cfg.mode) = .ok (gdtSlot s sel) :=
    descAddr_of_inGdt (by cases s.cfg.mode <;> decide) h.slot
  have hz : ¬ ((modeTssAt s sel).z54 = true ∨ (modeTssAt s sel).z53 = true) := by simp [h.zeros]
  simp only [checkLtr, ltrDescSize_eq_descSize, hd, readLtrDesc_of_tss h.slot h.isTss, Chk.ok_bind, raiseIf_neg (not_not.2 h.cpl),
    raiseIf_neg (ne_true_of_eq_false h.slot.global), refuseIf_neg hz, raiseIf_neg (not_not.2 h.zero),
    raiseIf_neg (ne_true_of_eq_false h.notBusy), raiseIf_neg (ne_false_of_eq_true h.present)]

/-- Settles O20: the first clause by the slot's address sum and read, the second by the checks coming down to the next EIP. -/
theorem ltrSumsAreNotWrapped : Obligations.LtrSumsAreNotWrapped := by
  refine ⟨fun s r hc hti hn hl hw => exec_ltr_of_checkLtr_refuse (checkLtr_of_slot_wrap hc hti hn hl hw), fun s r hready hw => ?_⟩
  have hpass : LtrChecksPass s (s.gprs.low16 r) :=
    LtrChecksPass.of_withEip (e := 0) (hready.elim LtrReady.checksPass LtrReady64.checksPass)
  exact exec_ltr_of_checkLtr_refuse (by rw [hpass.checkLtr_eq, nextEip_of_wrap hw, Chk.error_bind])

end Sys2Proof.Machine
end

section
/-! PROOFS. What no instruction, event or run changes: parameters, program text, SSP, and the state after a stop
(R18, R24, R25, R26; log 9). -/

namespace Sys2Proof.Machine

/-! ### What every step keeps -/

theorem execLtr_keeps {r : Reg} {s t : State} (h : execLtr r s = .next t) :
    t.cfg = s.cfg ∧ t.code = s.code ∧ t.ssp = s.ssp := by
  obtain ⟨_, rfl⟩ := execLtr_eq_next.1 h
  exact ⟨rfl, rfl, rfl⟩

theorem SwitchRun.keeps {k : DispatchKind} {next : Word} {s t : State} (h : SwitchRun k next s t) :
    t.cfg = s.cfg ∧ t.code = s.code ∧ t.ssp = s.ssp := by
  obtain ⟨_, _, _, _, rfl⟩ := h.cases
  exact ⟨rfl, rfl, rfl⟩

theorem exec_keeps {i : Instr} {s t : State} (h : exec i s = .next t) :
    t.cfg = s.cfg ∧ t.code = s.code ∧ t.ssp = s.ssp := by
  rcases exec_cases h with ⟨_, _, hltr⟩ | ⟨_, _, _, hrun⟩
  · exact execLtr_keeps hltr
  · exact hrun.keeps

theorem step_keeps {s t : State} (h : step s = .next t) :
    t.cfg = s.cfg ∧ t.code = s.code ∧ t.ssp = s.ssp := by
  rcases step_cases h with ⟨_, rfl⟩ | ⟨_, _, hltr⟩ | ⟨_, _, _, hrun⟩
  · exact ⟨rfl, rfl, rfl⟩
  · simpa using execLtr_keeps hltr
  · simpa using hrun.keeps

/-! ### The step, case by case, and what a run makes of it (R26, R93, R94, R113) -/

theorem advance_of_next {s t : State} (h : step s = .next t) : advance s = t := by rw [advance, h]

theorem advance_of_fault {s : State} {f : Fault} (h : step s = .fault f) : advance s = s.withOutcome (.faulted f) := by
  rw [advance, h]

theorem advance_of_refused {s : State} {r : Refusal} (h : step s = .refused r) :
    advance s = s.withOutcome (.refused r) := by
  rw [advance, h]

theorem step_of_faulted {s : State} {f : Fault} (h : s.outcome = .faulted f) : step s = .fault f := by rw [step, h]

theorem step_of_refused {s : State} {r : Refusal} (h : s.outcome = .refused r) : step s = .refused r := by rw [step, h]

theorem step_of_event {s : State} {e : Event} {os : List (Option Event)} (hr : s.outcome = .running)
    (ho : s.offers = some e :: os) : step s = toOutcome (takeEvent e (s.withOffers os)) := by
  simp only [step, hr, ho]

theorem step_of_final {s : State} (h : Final s) : step s = .next s := step_eq_next.2 ⟨h.1, .inr (.inl ⟨h, rfl⟩)⟩

theorem withOutcome_outcome (s : State) : s.withOutcome s.outcome = s := rfl

theorem advance_of_not_running {s : State} (h : s.outcome ≠ .running) : advance s = s := by
  cases ho : s.outcome with
  | running => exact absurd ho h
  | faulted f => rw [advance_of_fault (step_of_faulted ho), ← ho, withOutcome_outcome]
  | refused r => rw [advance_of_refused (step_of_refused ho), ← ho, withOutcome_outcome]

theorem advanceN_of_not_running {s : State} (h : s.outcome ≠ .running) (n : Nat) : advanceN n s = s :=
  advanceN_induction (p := (· = s)) rfl (by rintro _ rfl; exact advance_of_not_running h) n

/-- Settles O9: a step that goes on starts from a running state, and the rest is what `advance` does with a stop. -/
theorem stoppedRunsStayStopped : Obligations.StoppedRunsStayStopped :=
  ⟨fun _ n h => ⟨advanceN_of_not_running h n, fun _ hstep => h (step_eq_next.1 hstep).1⟩,
    fun _ _ => advance_of_fault, fun _ _ => advance_of_refused⟩

/-! ### Parameters and program text (R24, R25) -/

theorem advance_keeps (s : State) : (advance s).cfg = s.cfg ∧ (advance s).code = s.code := by
  cases h : step s with
  | next t =>
    obtain ⟨hcfg, hcode, _⟩ := step_keeps h
    rw [advance_of_next h]
    exact ⟨hcfg, hcode⟩
  | fault f => rw [advance_of_fault h]; exact ⟨rfl, rfl⟩
  | refused r => rw [advance_of_refused h]; exact ⟨rfl, rfl⟩

theorem advanceN_keeps (n : Nat) (s : State) : (advanceN n s).cfg = s.cfg ∧ (advanceN n s).code = s.code := by
  refine advanceN_induction (p := fun u => u.cfg = s.cfg ∧ u.code = s.code) ⟨rfl, rfl⟩ ?_ n
  rintro u ⟨hcfg, hcode⟩
  obtain ⟨hcfg', hcode'⟩ := advance_keeps u
  exact ⟨hcfg'.trans hcfg, hcode'.trans hcode⟩

/-- Settles O48: an instruction that goes on is LTR or a committed switch, and neither writes them; a run by induction. -/
theorem parametersNeverChange : Obligations.ParametersNeverChange := by
  refine ⟨fun i s t h => ?_, fun s n => advanceN_keeps n s⟩
  obtain ⟨hcfg, hcode, _⟩ := exec_keeps h
  exact ⟨hcfg, hcode⟩

end Sys2Proof.Machine
end

section
/-! PROOFS. SSP is carried and never used (R18): every rule commutes with a change of it. -/

namespace Sys2Proof.Machine

/-- The state with another SSP. -/
def State.withSsp (s : State) (x : Word) : State := { s with ssp := x }

/-- An outcome whose next state, if there is one, has another SSP. -/
def outcomeWithSsp (x : Word) : Host.Outcome State Fault Refusal → Host.Outcome State Fault Refusal
  | .next t => .next (t.withSsp x)
  | .fault f => .fault f
  | .refused r => .refused r

/-- A rule's pseudocode whose next state, if it reaches one, has another SSP. -/
def chkWithSsp (x : Word) (c : Chk State) : Chk State := c >>= fun t => .ok (t.withSsp x)

/-- Pseudocode commutes with a change of SSP when its first part does not see SSP and its rest commutes. -/
theorem chkWithSsp_bind {α : Type} {x : Word} {c : Chk α} {f g : α → Chk State} (h : ∀ a, g a = chkWithSsp x (f a)) :
    (c >>= g) = chkWithSsp x (c >>= f) := by
  cases c with
  | ok a => exact h a
  | error e => rfl

theorem toOutcome_chkWithSsp (x : Word) (c : Chk State) : toOutcome (chkWithSsp x c) = outcomeWithSsp x (toOutcome c) := by
  rcases c with (f | r) | t <;> rfl

/-! ### The rules commute with a change of SSP

The checks, and the fields they read, are the same in both states by computation: `chkWithSsp_bind` sees that the parts agree. -/

section
variable (s : State) (x : Word)

theorem taskSwitch_withSsp (k : DispatchKind) (sel : Sel) (next : Word) :
    taskSwitch k sel next (s.withSsp x) = chkWithSsp x (taskSwitch k sel next s) := by
  have htr' : (s.withSsp x).tr = s.tr := rfl
  rw [taskSwitch, taskSwitch, htr']
  cases s.tr with
  | none => rfl
  | some tr => exact chkWithSsp_bind fun _ => chkWithSsp_bind fun _ => chkWithSsp_bind fun _ => chkWithSsp_bind fun _ => rfl

theorem dispatchVector_withSsp (v : Nat) : dispatchVector v (s.withSsp x) = chkWithSsp x (dispatchVector v s) := by
  refine chkWithSsp_bind fun _ => chkWithSsp_bind fun _ => chkWithSsp_bind fun d => ?_
  cases classify d with
  | gate g => exact chkWithSsp_bind fun _ => taskSwitch_withSsp s x _ _ _
  | tss t => rfl
  | other => rfl

theorem takeEvent_withSsp (e : Event) : takeEvent e (s.withSsp x) = chkWithSsp x (takeEvent e s) := by
  cases e with
  | interrupt v => exact dispatchVector_withSsp s x v
  | exception v => exact chkWithSsp_bind fun _ => dispatchVector_withSsp s x v

theorem execLtr_withSsp (r : Reg) : execLtr r (s.withSsp x) = outcomeWithSsp x (execLtr r s) := by
  rw [execLtr, execLtr, ← toOutcome_chkWithSsp]
  exact congrArg toOutcome (chkWithSsp_bind fun _ => rfl)

theorem execJmp_withSsp (sel : Sel) (off : Word) : execJmp sel off (s.withSsp x) = outcomeWithSsp x (execJmp sel off s) := by
  rw [execJmp, execJmp, ← toOutcome_chkWithSsp]
  exact congrArg toOutcome
    (chkWithSsp_bind fun _ => chkWithSsp_bind fun _ => chkWithSsp_bind fun _ => taskSwitch_withSsp s x _ _ _)

theorem execCall_withSsp (sel : Sel) (off : Word) :
    execCall sel off (s.withSsp x) = outcomeWithSsp x (execCall sel off s) := by
  rw [execCall, execCall, ← toOutcome_chkWithSsp]
  exact congrArg toOutcome
    (chkWithSsp_bind fun _ => chkWithSsp_bind fun _ => chkWithSsp_bind fun _ => taskSwitch_withSsp s x _ _ _)

theorem execIret_withSsp : execIret (s.withSsp x) = outcomeWithSsp x (execIret s) := by
  have htr' : (s.withSsp x).tr = s.tr := rfl
  rw [execIret, execIret, ← toOutcome_chkWithSsp, htr']
  refine congrArg toOutcome (chkWithSsp_bind fun _ => chkWithSsp_bind fun _ => ?_)
  cases s.tr with
  | none => rfl
  | some tr => exact chkWithSsp_bind fun _ => chkWithSsp_bind fun _ => taskSwitch_withSsp s x _ _ _

theorem exec_withSsp (i : Instr) : exec i (s.withSsp x) = outcomeWithSsp x (exec i s) := by
  cases i with
  | ltr r => exact execLtr_withSsp s x r
  | jmp sel off => exact execJmp_withSsp s x sel off
  | call sel off => exact execCall_withSsp s x sel off
  | iret => exact execIret_withSsp s x

theorem step_withSsp : step (s.withSsp x) = outcomeWithSsp x (step s) := by
  cases hr : s.outcome with
  | faulted f => rw [step_of_faulted hr, step_of_faulted (s := s.withSsp x) hr, outcomeWithSsp]
  | refused r => rw [step_of_refused hr, step_of_refused (s := s.withSsp x) hr, outcomeWithSsp]
  | running =>
    by_cases hevent : ∃ e os, s.offers = some e :: os
    · obtain ⟨e, os, ho⟩ := hevent
      rw [step_of_event hr ho, step_of_event (s := s.withSsp x) hr ho, ← toOutcome_chkWithSsp]
      exact congrArg toOutcome (takeEvent_withSsp (s.withOffers os) x e)
    · have ho : ∀ e os, s.offers ≠ some e :: os := fun e os he => hevent ⟨e, os, he⟩
      by_cases hs : s.codeLoc ∈ s.cfg.stops
      · rw [step_of_final ⟨hr, hs, ho⟩, step_of_final (s := s.withSsp x) ⟨hr, hs, ho⟩, outcomeWithSsp]
      · have hfetch : fetch (s.withSsp x) = fetch s := rfl
        rw [step_of_no_event hr ho hs, step_of_no_event (s := s.withSsp x) hr ho hs, hfetch]
        cases fetch s with
        | none => rfl
        | some e => exact exec_withSsp (s.withOffers s.offers.tail) x e.term

end

/-- With shadow stacks enabled a task switch stops at its first check (R90). -/
theorem taskSwitch_of_shadowStack {s : State} (hs : s.cfg.shadowStackEnabled = true) (htr : s.tr ≠ none) (k : DispatchKind)
    (sel : Sel) (next : Word) : taskSwitch k sel next s = .error (.refuse .shadowStackUnmodelled) := by
  obtain ⟨tr, htr⟩ := Option.ne_none_iff_exists'.1 htr
  simp only [taskSwitch, htr, refuseIf_pos hs, Chk.error_bind]

/-- Settles O53: every rule commutes with a change of SSP, and what a step commits leaves it. -/
theorem sspIsInert : Obligations.SspIsInert := by
  refine ⟨fun s x => ?_, fun s t h => ?_, fun s k sel next hs htr => taskSwitch_of_shadowStack hs htr k sel next⟩
  · refine (step_withSsp s x).trans ?_
    cases step s <;> rfl
  · obtain ⟨_, _, hssp⟩ := step_keeps h
    exact hssp

end Sys2Proof.Machine
end

section
/-! PROOFS. An EIP whose sum with the length does not fit 32 bits (R11, R64; log 10). -/

namespace Sys2Proof.Machine

/-- An instruction goes on only where `EIP + len` fits. -/
theorem exec_next_eip_fits {i : Instr} {s t : State} (h : exec i s = .next t) : s.eip.toNat + s.lenOf i < 2 ^ 32 := by
  cases i with
  | ltr r =>
    obtain ⟨hready, _⟩ := execLtr_eq_next.1 h
    exact hready.elim LtrReady.nextFits LtrReady64.nextFits
  | jmp sel off =>
    obtain ⟨_, hfits, _⟩ := execJmp_eq_next.1 h
    exact hfits
  | call sel off =>
    obtain ⟨_, hfits, _⟩ := execCall_eq_next.1 h
    exact hfits
  | iret =>
    obtain ⟨_, hfits, _⟩ := execIret_eq_next.1 h
    exact hfits

theorem exec_jmp_of_eip_wrap {s : State} {sel tssSel : Sel} {off : Word} (hm : s.cfg.mode = .protectedMode)
    (hr : Reaches s sel tssSel) (hw : 2 ^ 32 ≤ s.eip.toNat + s.lenOf (.jmp sel off)) :
    exec (.jmp sel off) s = .refused .addressWrap := by
  simp only [exec, execJmp, refuseIf_neg (mode_ne_long64.2 hm), resolveTarget_eq_ok.2 hr, nextEip_of_wrap hw, Chk.ok_bind,
    Chk.error_bind, toOutcome]

theorem exec_call_of_eip_wrap {s : State} {sel tssSel : Sel} {off : Word} (hm : s.cfg.mode = .protectedMode)
    (hr : Reaches s sel tssSel) (hw : 2 ^ 32 ≤ s.eip.toNat + s.lenOf (.call sel off)) :
    exec (.call sel off) s = .refused .addressWrap := by
  simp only [exec, execCall, refuseIf_neg (mode_ne_long64.2 hm), resolveTarget_eq_ok.2 hr, nextEip_of_wrap hw, Chk.ok_bind,
    Chk.error_bind, toOutcome]

/-- The link of a loaded task register whose first two bytes fit 32 bits is read (R76). -/
theorem previousLink_of_fits {s : State} {tr : TaskReg} (hm : s.cfg.mode = .protectedMode) (hf : tr.base.toNat + 2 ≤ 2 ^ 32) :
    previousLink s tr = .ok (s.mem.read2 tr.base.toNat) :=
  memRead2_eq_ok.2 ⟨by rw [hm]; exact hf, rfl⟩

theorem exec_iret_of_eip_wrap {s : State} {tr : TaskReg} (hm : s.cfg.mode = .protectedMode) (hnt : ntFlag s.eflags = true)
    (htr : s.tr = some tr) (hf : tr.base.toNat + 2 ≤ 2 ^ 32) (hw : 2 ^ 32 ≤ s.eip.toNat + s.lenOf .iret) :
    exec .iret s = .refused .addressWrap := by
  simp only [exec, execIret, refuseIf_neg (mode_ne_long64.2 hm), refuseIf_neg (ne_false_of_eq_true hnt), htr,
    previousLink_of_fits hm hf, nextEip_of_wrap hw, Chk.ok_bind, Chk.error_bind, toOutcome]

/-- Settles O8: what goes on has a sum that fits, and the checks before the sum pass on the hypotheses of each clause. -/
theorem eipSumsAreNotWrapped : Obligations.EipSumsAreNotWrapped :=
  ⟨fun _ _ _ hw h => absurd (exec_next_eip_fits h) (Nat.not_lt.2 hw),
    fun _ _ _ _ hm hr => ⟨exec_jmp_of_eip_wrap hm hr, exec_call_of_eip_wrap hm hr⟩,
    fun _ _ hm hnt htr hf hw => exec_iret_of_eip_wrap hm hnt htr hf hw⟩

end Sys2Proof.Machine
end

section
/-! PROOFS. The invariant: canonical memory, the CPL of CS, a true copy in TR (R16, R19, R28, R42). -/

namespace Sys2Proof.Machine

/-- A descriptor slot holds its busy byte within the address width. -/
theorem busyByte_fits {s : State} {sel : Sel} (h : InGdt s sel (descSize s.cfg.mode)) :
    gdtSlot s sel + busyByteOffset < addrLimit s.cfg.mode := by
  have hfits := h.fits
  have hsize : 8 ≤ descSize s.cfg.mode := by cases s.cfg.mode <;> decide
  simp only [busyByteOffset]
  omega

/-- LTR loads TR from the descriptor in which it sets the busy flag, and leaves CS and CPL (R69, R70). -/
theorem execLtr_keeps_invariant {r : Reg} {s t : State} (hi : Invariant s) (h : execLtr r s = .next t) : Invariant t := by
  obtain ⟨hready, ht⟩ := execLtr_eq_next.1 h
  obtain ⟨hcfg, _⟩ := execLtr_keeps h
  have hpass : LtrChecksPass s (s.gprs.low16 r) := hready.elim LtrReady.checksPass LtrReady64.checksPass
  have hmem : t.mem = setBusy s.mem (gdtSlot s (s.gprs.low16 r)) := by rw [ht]; rfl
  refine ⟨?memWf, ?memFits, ?cplOfCs, ?trCopy⟩
  case memWf => rw [hmem]; exact Memory.wf_setByte hi.memWf _ _
  case memFits => rw [hmem, hcfg]; exact Memory.below_setByte hi.memFits (busyByte_fits hpass.slot) _
  case cplOfCs => rw [ht]; exact hi.cplOfCs
  case trCopy =>
    intro tr htr
    have hcopy : tr = taskRegOf (s.gprs.low16 r) (modeTssAt s (s.gprs.low16 r)) := by
      rw [ht] at htr
      exact (Option.some.inj htr).symm
    refine .of_busy_set hcfg hcopy hpass.slot hpass.isTss hpass.present ?_ ?_
    · rw [hmem]; exact fun _ => getLsbD_read8_setBusy _ _
    · rw [hmem]; exact fun _ _ => getLsbD_read16_setBusy _ _

/-- A task switch loads CPL and CS from the one selector, and TR from a descriptor that is left busy (R84, R85). -/
theorem SwitchRun.keeps_invariant {k : DispatchKind} {next : Word} {s t : State} (hi : Invariant s)
    (h : SwitchRun k next s t) : Invariant t := by
  obtain ⟨hcfg, _⟩ := h.keeps
  obtain ⟨hm, sel, tr, hr, ht⟩ := h.cases
  have hdesc : modeTssAt s sel = tssAt s sel := by rw [modeTssAt, hm]; rfl
  have hslot : InGdt s sel (descSize s.cfg.mode) := by rw [hm]; exact hr.slot
  have hmem : t.mem = switchMemory k tr next (gdtSlot s tr.sel) (gdtSlot s sel) (tssAt s sel).base.toNat s := by rw [ht]; rfl
  refine ⟨?memWf, ?memFits, ?cplOfCs, ?trCopy⟩
  case memWf => rw [hmem]; exact wf_switchMemory hi.memWf
  case memFits =>
    have hin := switchRanges_incoming_fits hr.fit
    rw [hmem, hcfg]
    exact below_switchMemory hi.memFits (switchRanges_outgoing_fits hr.fit) hr.outBusy (busyByte_fits hslot) (by omega)
  case cplOfCs => rw [ht]; rfl
  case trCopy =>
    intro tr' htr'
    have hcopy : tr' = taskRegOf sel (modeTssAt s sel) := by
      rw [ht, commitSwitch_tr, ← hdesc] at htr'; exact (Option.some.inj htr').symm
    refine .of_busy_set hcfg hcopy hslot hr.isTss (hdesc ▸ hr.present) ?_ fun hlong => ?_
    · rw [hmem]; exact fun _ => hr.bit_incoming_desc
    · rw [hm] at hlong; cases hlong

/-- Settles O46: a step rests, runs LTR, or makes a task switch, and each keeps the invariant. -/
theorem stepKeepsTheInvariant : Obligations.StepKeepsTheInvariant := by
  intro s t hi h
  rcases step_cases h with ⟨_, rfl⟩ | ⟨_, _, hltr⟩ | ⟨_, _, _, hrun⟩
  · exact hi
  · exact execLtr_keeps_invariant (invariant_withOffers.2 hi) hltr
  · exact hrun.keeps_invariant (invariant_withOffers.2 hi)

/-- Settles O47: the reset memory is empty, no task register is loaded, and the CPL and CS are 0. -/
theorem resetMeetsTheInvariant : Obligations.ResetMeetsTheInvariant where
  memWf := ⟨.nil, fun _ hc => absurd hc List.not_mem_nil⟩
  memFits := fun _ hc => absurd hc List.not_mem_nil
  cplOfCs := by decide
  trCopy := fun _ htr => by cases htr

end Sys2Proof.Machine
end

section
/-! PROOFS. Values in memory, selectors, and the lookup of a descriptor (R30, R32, R49, R50). -/

namespace Sys2Proof.Machine

/-! ### Little-endian values (R30) -/

/-- The number of two bit strings written together. -/
theorem toNat_append_eq_add {v w : Nat} (hi : BitVec v) (lo : BitVec w) : (hi ++ lo).toNat = lo.toNat + 2 ^ w * hi.toNat := by
  rw [BitVec.toNat_append, ← Nat.shiftLeft_add_eq_or_of_lt lo.isLt, Nat.shiftLeft_eq, Nat.mul_comm, Nat.add_comm]

/-- A field of a field is a field of the whole. -/
theorem extractLsb'_extractLsb'_eq {w k n lo len : Nat} (x : BitVec w) (h : lo + len ≤ n) :
    (x.extractLsb' k n).extractLsb' lo len = x.extractLsb' (k + lo) len := by
  apply BitVec.eq_of_getLsbD_eq
  intro i hi
  have hlo : lo + i < n := by omega
  simp only [BitVec.getLsbD_extractLsb', hi, hlo, decide_true, Bool.true_and, Nat.add_assoc]

/-- Each byte of a 2-byte write is the byte of the value at its distance from the address. -/
theorem Memory.byte_write2_eq_extract (m : Memory) (a x : Nat) (v : BitVec 16) :
    (m.write2 a v).byte x = if a ≤ x ∧ x < a + 2 then v.extractLsb' (8 * (x - a)) 8 else m.byte x := by
  by_cases hin : a ≤ x ∧ x < a + 2
  · rw [if_pos hin, Memory.byte_write2]
    obtain rfl | rfl : x = a ∨ x = a + 1 := by omega
    · simp
    · simp
  · rw [if_neg hin, Memory.byte_write2_other _ _ (by omega)]

/-- Each byte of a 4-byte write is the byte of the value at its distance from the address. -/
theorem Memory.byte_write4_eq_extract (m : Memory) (a x : Nat) (v : BitVec 32) :
    (m.write4 a v).byte x = if a ≤ x ∧ x < a + 4 then v.extractLsb' (8 * (x - a)) 8 else m.byte x := by
  rw [Memory.write4, Memory.byte_write2_eq_extract, Memory.byte_write2_eq_extract]
  by_cases hhi : a + 2 ≤ x ∧ x < a + 2 + 2
  · rw [if_pos hhi, if_pos (by omega), extractLsb'_extractLsb'_eq _ (by omega), show 16 + 8 * (x - (a + 2)) = 8 * (x - a) by omega]
  · rw [if_neg hhi]
    by_cases hlo : a ≤ x ∧ x < a + 2
    · rw [if_pos hlo, if_pos (by omega), extractLsb'_extractLsb'_eq _ (by omega), Nat.zero_add]
    · rw [if_neg hlo, if_neg (by omega)]

/-- Settles O11: each read is two halves written together, and a write is byte by byte. -/
theorem memoryIsLittleEndian : Obligations.MemoryIsLittleEndian := fun m a x v w =>
  ⟨toNat_append_eq_add _ _, toNat_append_eq_add _ _, toNat_append_eq_add _ _, toNat_append_eq_add _ _,
    Memory.byte_write2_eq_extract m a x v, Memory.byte_write4_eq_extract m a x w⟩

/-! ### Selectors (R49) -/

theorem selIndex_eq_div (sel : Sel) : selIndex sel = sel.toNat / 8 := by
  have hlt := sel.isLt
  rw [selIndex, BitVec.extractLsb'_toNat, Nat.shiftRight_eq_div_pow]
  omega

theorem toNat_selTI (sel : Sel) : (selTI sel).toNat = sel.toNat / 4 % 2 := Nat.toNat_testBit _ _

theorem toNat_selRPL (sel : Sel) : (selRPL sel).toNat = sel.toNat % 4 := by
  rw [selRPL, BitVec.extractLsb'_toNat, Nat.shiftRight_zero]

theorem selTI_eq_false_iff (sel : Sel) : selTI sel = false ↔ sel.toNat / 4 % 2 = 0 := by
  rw [← toNat_selTI, Bool.toNat_eq_zero]

/-- The null selectors are the values 0 to 3 (R49). -/
theorem null_selector_iff (sel : Sel) : (selIndex sel = 0 ∧ selTI sel = false) ↔ sel.toNat ≤ 3 := by
  rw [selIndex_eq_div, selTI_eq_false_iff]
  omega

theorem descAddr_of_null {s : State} {sel : Sel} (h : selIndex sel = 0 ∧ selTI sel = false) (n : Nat) :
    descAddr s sel n = .error (.raise (.selectorNull sel)) := by
  rw [descAddr, raiseIf_pos h, Chk.error_bind]

/-- Settles O12: the three fields are quotients and remainders of the selector's value. -/
theorem selectorFormat : Obligations.SelectorFormat := by
  refine ⟨fun sel => ?_, null_selector_iff, fun s sel n h => descAddr_of_null ((null_selector_iff sel).2 h) n⟩
  have hlt := sel.isLt
  rw [selIndex_eq_div, toNat_selTI, toNat_selRPL]
  omega

/-! ### Lookup in the tables (R50) -/

/-- A local selector without a current LDT names no table. -/
theorem descAddr_of_no_window {s : State} {sel : Sel} (hti : selTI sel = true) (hw : ldtWindowOf s.cfg s.ldtr = none) (n : Nat) :
    descAddr s sel n = .error (.raise (.selectorOutOfTable sel)) := by
  have hnull : ¬ (selIndex sel = 0 ∧ selTI sel = false) := fun h => absurd hti (ne_true_of_eq_false h.2)
  rw [descAddr, raiseIf_neg hnull, Chk.ok_bind, tableOf, if_pos hti, hw]
  rfl

/-- The lookup of a local selector in the current LDT, where no sum wraps. -/
theorem descAddr_of_window {s : State} {sel : Sel} {n : Nat} {w : LdtWindow} (hti : selTI sel = true)
    (hw : ldtWindowOf s.cfg s.ldtr = some w) (hn : 0 < n) (hfits : w.base.toNat + w.limit < addrLimit s.cfg.mode) :
    descAddr s sel n =
      if 8 * selIndex sel + n - 1 > w.limit then .error (.raise (.selectorOutOfTable sel))
      else .ok (w.base.toNat + 8 * selIndex sel) := by
  have hnull : ¬ (selIndex sel = 0 ∧ selTI sel = false) := fun h => absurd hti (ne_true_of_eq_false h.2)
  have htbl : tableOf s sel = .ok (w.base.toNat, w.limit) := by rw [tableOf, if_pos hti, hw]
  rw [descAddr, raiseIf_neg hnull, Chk.ok_bind, htbl, Chk.ok_bind, raiseIf_bind]
  by_cases hl : w.limit < 8 * selIndex sel + n - 1
  · rw [if_pos hl, if_pos hl]
  · rw [if_neg hl, if_neg hl]
    exact addrSum_of_fits (by omega)

/-- The lookup of a vector in the IDT, where no sum wraps. -/
theorem idtAddr_eq {s : State} {v : Nat} (hfits : s.cfg.idtBase.toNat + s.cfg.idtLimit.toNat < addrLimit s.cfg.mode) :
    idtAddr s v =
      if 8 * v + 7 > s.cfg.idtLimit.toNat then .error (.raise (.vectorOutOfTable v)) else .ok (s.cfg.idtBase.toNat + 8 * v) := by
  rw [idtAddr, raiseIf_bind]
  by_cases hl : s.cfg.idtLimit.toNat < 8 * v + 7
  · rw [if_pos hl, if_pos hl]
  · rw [if_neg hl, if_neg hl]
    exact addrSum_of_fits (by omega)

/-- Settles O13: by the table the selector names, the GDT or the current LDT. -/
theorem descriptorLookup : Obligations.DescriptorLookup := by
  refine ⟨fun s sel n hn hgdt hldt => ?_, fun s v => idtAddr_eq⟩
  have hpos : 0 < n := by omega
  cases hti : selTI sel with
  | false =>
    rw [descAddr_global hti hgdt hpos]
    simp only [and_true, if_true]
  | true =>
    simp only [Bool.true_eq_false, and_false, if_false]
    cases hw : ldtWindowOf s.cfg s.ldtr with
    | none => exact descAddr_of_no_window hti hw n
    | some w => exact descAddr_of_window hti hw hpos (hldt w hw)

end Sys2Proof.Machine
end

section
/-! PROOFS. Descriptors: what is encoded is decoded, its class, its bytes in memory and its effective limit (R41, R43, R46, R47, R51, R59). -/

namespace Sys2Proof.Machine

/-! ### TSS descriptors (R43, R46, R51) -/

/-- The field at the low end of two bit strings written together that takes in the whole lower one. -/
theorem extractLsb'_zero_append {v w n : Nat} (hi : BitVec v) (lo : BitVec w) :
    (hi ++ lo).extractLsb' 0 (n + w) = hi.extractLsb' 0 n ++ lo := by
  apply BitVec.eq_of_getLsbD_eq
  intro j hj
  simp only [BitVec.getLsbD_extractLsb', BitVec.getLsbD_append, Nat.zero_add, hj, decide_true, Bool.true_and]
  by_cases h : j < w
  · rw [if_pos h, if_pos h]
  · rw [if_neg h, if_neg h, decide_eq_true (by omega), Bool.true_and]

/-- Byte `j` of an 8-byte value is the byte at distance `j` from its address (R30). -/
theorem Memory.extractLsb'_read8 (m : Memory) (a : Nat) {j : Nat} (hj : j < 8) : (m.read8 a).extractLsb' (8 * j) 8 = m.byte (a + j) := by
  apply BitVec.eq_of_getLsbD_eq
  intro i hi
  rw [BitVec.getLsbD_extractLsb', Memory.getLsbD_read8 _ _ (by omega), show (8 * j + i) / 8 = j by omega,
    show (8 * j + i) % 8 = i by omega, decide_eq_true hi, Bool.true_and]

/-- Byte 5 of a 32-bit TSS descriptor, `P, DPL, 0, 1, 0, B, 1` (R41). -/
def tssAttrByte (p : Bool) (dpl : BitVec 2) (b : Bool) : Byte :=
  BitVec.ofBool p ++ dpl ++ 0#1 ++ 1#1 ++ 0#1 ++ BitVec.ofBool b ++ 1#1

section
variable (base : Word) (limit : BitVec 20) (g avl p : Bool) (dpl : BitVec 2) (b : Bool)

/-- The base is stored in three parts. -/
theorem encodeTss32_base :
    (encodeTss32 base limit g avl p dpl b).extractLsb' 56 8 ++ (encodeTss32 base limit g avl p dpl b).extractLsb' 32 8
      ++ (encodeTss32 base limit g avl p dpl b).extractLsb' 16 16 = base := by
  simp (disch := omega) only [encodeTss32, BitVec.extractLsb'_append_eq_of_le, BitVec.extractLsb'_append_eq_of_add_le, Nat.reduceSub,
    BitVec.extractLsb'_eq_self]
  rw [BitVec.extractLsb'_append_extractLsb'_eq_extractLsb' (by decide), BitVec.extractLsb'_append_extractLsb'_eq_extractLsb' (by decide)]
  exact BitVec.extractLsb'_eq_self

/-- The limit is stored in two parts. -/
theorem encodeTss32_limit :
    (encodeTss32 base limit g avl p dpl b).extractLsb' 48 4 ++ (encodeTss32 base limit g avl p dpl b).extractLsb' 0 16 = limit := by
  simp (disch := omega) only [encodeTss32, BitVec.extractLsb'_append_eq_of_le, Nat.reduceSub, BitVec.extractLsb'_append_eq_right]
  exact BitVec.extractLsb'_append_extractLsb'

/-- Bits 47:40 are P, DPL, S and the type. -/
theorem encodeTss32_attrByte : (encodeTss32 base limit g avl p dpl b).extractLsb' 40 8 = tssAttrByte p dpl b := by
  simp (disch := omega) only [encodeTss32, BitVec.extractLsb'_append_eq_of_le, Nat.reduceSub]
  show BitVec.extractLsb' 0 (1 + 2 + 1 + 1 + 1 + 1 + 1) _ = _
  simp only [extractLsb'_zero_append, BitVec.extractLsb'_append_eq_right, tssAttrByte]

/-- A field within bits 47:40 is a field of that byte. -/
theorem encodeTss32_attrField {lo n : Nat} (h : lo + n ≤ 8) :
    (encodeTss32 base limit g avl p dpl b).extractLsb' (40 + lo) n = (tssAttrByte p dpl b).extractLsb' lo n := by
  rw [← encodeTss32_attrByte base limit g avl p dpl b, extractLsb'_extractLsb'_eq _ h]

theorem encodeTss32_attrBit {i : Nat} (h : i < 8) :
    (encodeTss32 base limit g avl p dpl b).getLsbD (40 + i) = (tssAttrByte p dpl b).getLsbD i := by
  rw [← encodeTss32_attrByte base limit g avl p dpl b, BitVec.getLsbD_extractLsb', decide_eq_true h, Bool.true_and]

/-- Bits 55:52, above the limit and below the base: G, two zeros and AVL. -/
theorem encodeTss32_highBits :
    (encodeTss32 base limit g avl p dpl b).getLsbD 55 = g ∧ (encodeTss32 base limit g avl p dpl b).getLsbD 54 = false ∧
    (encodeTss32 base limit g avl p dpl b).getLsbD 53 = false ∧ (encodeTss32 base limit g avl p dpl b).getLsbD 52 = avl := by
  simp only [encodeTss32, BitVec.getLsbD_append, BitVec.getLsbD_ofBool, BitVec.getLsbD_zero, Nat.reduceLT, Nat.reduceSub, if_true, if_false,
    decide_true, Bool.true_and, and_self]

end

/-- The fields of byte 5: P, DPL, S and the type `10B1`, of which B is bit 1. -/
theorem tssAttrByte_fields : ∀ (p : Bool) (dpl : BitVec 2) (b : Bool),
    (tssAttrByte p dpl b).getLsbD 7 = p ∧ (tssAttrByte p dpl b).extractLsb' 5 2 = dpl ∧ (tssAttrByte p dpl b).getLsbD 4 = false ∧
    (tssAttrByte p dpl b).extractLsb' 0 4 = (if b then 0b1011 else 0b1001) ∧ (tssAttrByte p dpl b).getLsbD 1 = b := by decide

/-- Decoding gives back what was encoded (R46). -/
theorem decodeTss32_encodeTss32 (base : Word) (limit : BitVec 20) (g avl p : Bool) (dpl : BitVec 2) (b : Bool) :
    decodeTss32 (encodeTss32 base limit g avl p dpl b) =
      { base := base.setWidth 64, limit := limit, g := g, z54 := false, z53 := false, avl := avl, p := p, dpl := dpl, s := false,
        type := if b then 0b1011 else 0b1001, b := b, zero := 0 } := by
  obtain ⟨hg, h54, h53, havl⟩ := encodeTss32_highBits base limit g avl p dpl b
  obtain ⟨hp, hdpl, hs, htype, hb⟩ := tssAttrByte_fields p dpl b
  rw [← encodeTss32_attrBit base limit g avl p dpl b (by decide)] at hp hs hb
  rw [← encodeTss32_attrField base limit g avl p dpl b (by decide)] at hdpl htype
  rw [decodeTss32, encodeTss32_base, encodeTss32_limit, hg, h54, h53, havl, hp, hdpl, hs, htype, hb]

theorem drawnAsTss_encodeTss32 (base : Word) (limit : BitVec 20) (g avl p : Bool) (dpl : BitVec 2) (b : Bool) :
    drawnAsTss (encodeTss32 base limit g avl p dpl b) := by
  have hbits : ∀ (p : Bool) (dpl : BitVec 2) (b : Bool), (tssAttrByte p dpl b).getLsbD 4 = false ∧
      (tssAttrByte p dpl b).getLsbD 3 = true ∧ (tssAttrByte p dpl b).getLsbD 2 = false ∧ (tssAttrByte p dpl b).getLsbD 0 = true := by decide
  have hmove := fun i (hi : i < 8) => encodeTss32_attrBit base limit g avl p dpl b hi
  rw [drawnAsTss, hmove 4 (by decide), hmove 3 (by decide), hmove 2 (by decide), hmove 0 (by decide)]
  exact hbits p dpl b

/-- Settles O14: the parts of the base and of the limit join, and bits 47:40 are the byte at a + 5. -/
theorem tssDescriptorRoundTrip : Obligations.TssDescriptorRoundTrip := by
  intro base limit g avl p dpl b m a
  refine ⟨decodeTss32_encodeTss32 base limit g avl p dpl b, classify_of_tss (drawnAsTss_encodeTss32 base limit g avl p dpl b), fun h => ?_⟩
  calc m.byte (a + 5) = (m.read8 a).extractLsb' (8 * 5) 8 := (Memory.extractLsb'_read8 m a (by decide)).symm
    _ = tssAttrByte p dpl b := by rw [h]; exact encodeTss32_attrByte base limit g avl p dpl b

/-- The effective limit as a number (R43). -/
theorem toNat_effLimit (t : TssDesc) : (effLimit t).toNat = if t.g then t.limit.toNat * 4096 + 4095 else t.limit.toNat := by
  have hlt := t.limit.isLt
  cases hg : t.g with
  | false =>
    simp only [effLimit, hg, Bool.false_eq_true, if_false, BitVec.toNat_setWidth]
    omega
  | true =>
    have hshift : (t.limit.setWidth 32 <<< 12).toNat = t.limit.toNat <<< 12 := by
      rw [BitVec.toNat_shiftLeft, BitVec.toNat_setWidth, Nat.shiftLeft_eq, Nat.shiftLeft_eq]
      omega
    calc (effLimit t).toNat = t.limit.toNat <<< 12 ||| 4095 := by
          rw [effLimit, hg, if_pos rfl, BitVec.toNat_or, hshift]; rfl
      _ = t.limit.toNat <<< 12 + 4095 := (Nat.shiftLeft_add_eq_or_of_lt (by decide) _).symm
      _ = t.limit.toNat * 4096 + 4095 := by rw [Nat.shiftLeft_eq]

/-- Settles O16: the shifted limit and 0xFFF have no bit in common, so their union is their sum. -/
theorem effectiveLimit : Obligations.EffectiveLimit := toNat_effLimit

/-! ### Task gates (R47, R51, R59) -/

section
variable (sel : Sel) (p : Bool) (dpl : BitVec 2)

theorem decodeGate_encodeGate :
    decodeGate (encodeGate sel p dpl) = { p := p, dpl := dpl, s := false, type := 0b0101, tssSel := sel } := by
  simp (disch := omega) only [decodeGate, encodeGate, BitVec.getLsbD_append, BitVec.extractLsb'_append_eq_of_le, BitVec.extractLsb'_append_eq_right,
    BitVec.getLsbD_ofBool, BitVec.getLsbD_zero, Nat.reduceSub, Nat.reduceLT, if_false, if_true, decide_true, Bool.true_and]
  rfl

theorem drawnAsGate_encodeGate : drawnAsGate (encodeGate sel p dpl) := by
  have h := decodeGate_encodeGate sel p dpl
  exact ⟨congrArg GateDesc.s h, congrArg GateDesc.type h⟩

end

/-- A gate is decoded from bits 31:16 and 47:40; the other bits are reserved (R59). -/
theorem decodeGate_congr {x y : BitVec 64} (h : ∀ k, (16 ≤ k ∧ k < 32) ∨ (40 ≤ k ∧ k < 48) → x.getLsbD k = y.getLsbD k) :
    decodeGate x = decodeGate y := by
  have hsel : x.extractLsb' 16 16 = y.extractLsb' 16 16 := extractLsb'_congr fun k _ _ _ => h k (by omega)
  have htype : x.extractLsb' 40 4 = y.extractLsb' 40 4 := extractLsb'_congr fun k _ _ _ => h k (by omega)
  have hdpl : x.extractLsb' 45 2 = y.extractLsb' 45 2 := extractLsb'_congr fun k _ _ _ => h k (by omega)
  rw [decodeGate, decodeGate, h 47 (by omega), h 44 (by omega), hsel, htype, hdpl]

/-- Settles O15: each field is one part of the encoded value, and no field has a reserved bit. -/
theorem taskGateRoundTrip : Obligations.TaskGateRoundTrip :=
  ⟨fun sel p dpl => ⟨decodeGate_encodeGate sel p dpl, classify_of_gate (drawnAsGate_encodeGate sel p dpl)⟩,
    fun _ _ => decodeGate_congr⟩

end Sys2Proof.Machine
end

section
/-! PROOFS. The separation of a task switch as disjoint sets of addresses (R33). -/

namespace Sys2Proof.Machine

/-- The check looks at every pair of ranges. -/
theorem allApart_iff_pairwise (l : List Range) : allApart l = true ↔ l.Pairwise fun r q => rangesApart r q = true := by
  induction l with
  | nil => simp [allApart]
  | cons r rest ih => simp [allApart, List.pairwise_cons, ih]

/-- Two ranges that are not empty are apart when they have no address in common. -/
theorem rangesApart_iff {r q : Range} (hr : r.1 ≤ r.2) (hq : q.1 ≤ q.2) :
    rangesApart r q = true ↔ ∀ x, r.1 ≤ x → x ≤ r.2 → ¬ (q.1 ≤ x ∧ x ≤ q.2) := by
  rw [rangesApart, Bool.or_eq_true, decide_eq_true_iff, decide_eq_true_iff]
  constructor
  · intro h x _ _
    omega
  · intro h
    -- the greater of the two first addresses would be shared
    have hmax := h (max r.1 q.1)
    omega

/-- The ranges of R33 as one list, the current LDT last if there is one. -/
theorem switchRanges_eq (s : State) (ob nb : Nat) :
    switchRanges s ob nb =
      [(ob, ob + 103), (nb, nb + 103), (s.cfg.gdtBase.toNat, s.cfg.gdtBase.toNat + s.cfg.gdtLimit.toNat),
        (s.cfg.idtBase.toNat, s.cfg.idtBase.toNat + s.cfg.idtLimit.toNat)]
        ++ ((ldtWindowOf s.cfg s.ldtr).map fun w => (w.base.toNat, w.base.toNat + w.limit)).toList := by
  cases hw : ldtWindowOf s.cfg s.ldtr <;> simp only [switchRanges, hw] <;> rfl

/-- No range of R33 is empty: each ends at its base plus a limit. -/
theorem switchRanges_nonempty {s : State} {ob nb : Nat} {r : Range} (h : r ∈ switchRanges s ob nb) : r.1 ≤ r.2 := by
  rw [switchRanges_eq] at h
  simp only [List.cons_append, List.nil_append, List.mem_cons, Option.mem_toList, Option.map_eq_some_iff] at h
  rcases h with rfl | rfl | rfl | rfl | ⟨w, _, rfl⟩ <;> exact Nat.le_add_right _ _

/-- Settles O22: the check is pairwise, and two ranges that are not empty are apart when they share no address. -/
theorem separatedMeansNoSharedByte : Obligations.SeparatedMeansNoSharedByte := by
  intro s ob nb
  rw [allApart_iff_pairwise, ← switchRanges_eq]
  exact List.Pairwise.iff_of_mem fun hr hq => rangesApart_iff (switchRanges_nonempty hr) (switchRanges_nonempty hq)

end Sys2Proof.Machine
end

section
/-! PROOFS. The bytes a step does not write, and those under the program along a run (R55, R69, R80, R110). -/

namespace Sys2Proof.Machine

/-- The memory of a committed switch differs from that before it in the bytes of `switchWrites` alone (R80 steps 2 to 6). -/
theorem byte_committed_other {k : DispatchKind} {sel : Sel} {tr : TaskReg} {s : State} {x : Nat}
    (hx : ¬ switchWrites k s tr (taskRegOf sel (tssAt s sel)) x) (next : Word) :
    (switchMemory k tr next (gdtSlot s tr.sel) (gdtSlot s sel) (tssAt s sel).base.toNat s).byte x = s.mem.byte x := by
  obtain ⟨hdyn, hlink⟩ := not_or.1 hx
  exact byte_switchMemory_other hdyn (fun hk he => hlink (.inl ⟨hk, he⟩)) (fun hk he => hlink (.inr (.inl ⟨hk, he⟩)))
    fun hk => ⟨fun he => hlink (.inr (.inr ⟨hk, .inl he⟩)), fun he => hlink (.inr (.inr ⟨hk, .inr he⟩))⟩

/-- A switch that goes on leaves every byte but those of `switchWrites` (R80, R89). -/
theorem SwitchRun.byte_other {k : DispatchKind} {next : Word} {s t : State} (h : SwitchRun k next s t) :
    ∃ tr v, s.tr = some tr ∧ t.tr = some v ∧ ∀ x, ¬ switchWrites k s tr v x → t.mem.byte x = s.mem.byte x := by
  obtain ⟨_, sel, tr, hr, rfl⟩ := h.cases
  exact ⟨tr, taskRegOf sel (tssAt s sel), hr.loaded, rfl, fun _ hx => byte_committed_other hx next⟩

/-- LTR that goes on leaves every byte but the busy byte of its descriptor (R69, R70). -/
theorem execLtr_byte_other {r : Reg} {s t : State} (h : execLtr r s = .next t) {x : Nat} (hx : x ≠ gdtSlot s (s.gprs.low16 r) + 5) :
    t.mem.byte x = s.mem.byte x := by
  obtain ⟨_, rfl⟩ := execLtr_eq_next.1 h
  exact byte_setBusy_other _ hx

/-- A step that goes on leaves every byte but those of `stepWrites` (R110). -/
theorem step_byte_other {s t : State} (h : step s = .next t) {x : Nat} (hx : ¬ stepWrites s x) : t.mem.byte x = s.mem.byte x := by
  rcases step_cases h with ⟨_, rfl⟩ | ⟨r, hact, hltr⟩ | ⟨k, next, hact, hrun⟩
  · rfl
  · exact execLtr_byte_other hltr fun he => hx ⟨t, h, .inl ⟨r, hact, he⟩⟩
  · obtain ⟨tr, v, htr, hv, hother⟩ := hrun.byte_other
    exact hother x fun hw => hx ⟨t, h, .inr ⟨k, tr, v, hact, htr, hv, hw⟩⟩

/-- A step of the spec's run leaves every byte but those of `stepWrites`; a step that stops leaves all of them. -/
theorem advance_byte_other {s : State} {x : Nat} (hx : ¬ stepWrites s x) : (advance s).mem.byte x = s.mem.byte x := by
  cases h : step s with
  | next t => rw [advance_of_next h, step_byte_other h hx]
  | fault f => rw [advance_of_fault h, State.withOutcome_mem]
  | refused r => rw [advance_of_refused h, State.withOutcome_mem]

/-- A byte that no step of a run writes is the same at every boundary of the run. -/
theorem advanceN_byte_other {s : State} {n x : Nat} (hx : ∀ j < n, ¬ stepWrites (advanceN j s) x) {j : Nat} (hj : j ≤ n) :
    (advanceN j s).mem.byte x = s.mem.byte x := by
  induction j with
  | zero => rfl
  | succ j ih => rw [advanceN_succ, advance_byte_other (hx j hj), ih (Nat.le_of_succ_le hj)]

/-- Settles O51: a byte under an instruction is one that no step of the run writes. -/
theorem codeFixedKeepsTheProgram : Obligations.CodeFixedKeepsTheProgram := fun _ _ _ h _ hj =>
  ⟨h.same _ hj, fun c hc i hi => advanceN_byte_other (fun j hj' => h.apart j hj' c hc i hi) hj⟩

end Sys2Proof.Machine
end

section
/-! PROOFS. The static fields of both TSSs in a task switch (R37, R82, R89). -/

namespace Sys2Proof.Machine

/-- A field of a TSS depends on its own bytes alone. -/
theorem readTss32_congr {m m' : Memory} {base : Nat} {f : Tss32Field} (h : m.agree m' (base + tss32Offset f) (tss32Width f)) :
    readTss32 m base f = readTss32 m' base f := by
  have hwidth : tss32Width f = 2 ∨ tss32Width f = 4 := by cases f <;> decide
  unfold readTss32
  rcases hwidth with hw | hw <;> rw [hw] at h ⊢
  · rw [if_pos rfl, if_pos rfl, Memory.read2_congr h]
  · exact Memory.read4_congr h

/-- The static fields lie between the link and the dynamic fields, or between the dynamic fields and the end of the 104 bytes (R35, R37). -/
theorem static_field_place : ∀ f ∈ [Tss32Field.esp0, .ss0, .esp1, .ss1, .esp2, .ss2, .cr3, .ldt, .t, .ioMap],
    (4 ≤ tss32Offset f ∧ tss32Offset f + tss32Width f ≤ 32) ∨ (94 ≤ tss32Offset f ∧ tss32Offset f + tss32Width f ≤ 104) := by decide

section
variable {k : DispatchKind} {sel : Sel} {tr : TaskReg} {s : State} {base x : Nat}

/-- Neither the outgoing nor the incoming TSS is written between the link and the dynamic fields, or above the dynamic fields. -/
theorem SwitchReady.byte_static (hr : SwitchReady k sel tr s) (hi : Invariant s) (hm : s.cfg.mode = .protectedMode)
    (hb : base = tr.base.toNat ∨ base = (tssAt s sel).base.toNat)
    (hx : (base + 4 ≤ x ∧ x < base + 32) ∨ (base + 94 ≤ x ∧ x < base + 104)) (next : Word) :
    (switchMemory k tr next (gdtSlot s tr.sel) (gdtSlot s sel) (tssAt s sel).base.toNat s).byte x = s.mem.byte x := by
  rcases hb with rfl | rfl
  · exact hr.byte_outgoing_tss hi hm (by omega) (by omega) (not_dynamicByte (by omega))
  · exact hr.byte_incoming_tss hi hm (by omega) (by omega) fun _ => by omega

/-- No byte of either SSP row is a dynamic byte of the outgoing TSS: the two TSSs are at least 104 bytes apart. -/
theorem SwitchReady.sspRow_not_dynamic (hr : SwitchReady k sel tr s) (hb : base = tr.base.toNat ∨ base = (tssAt s sel).base.toNat)
    (h1 : base + 104 ≤ x) (h2 : x ≤ base + 107) : ¬ dynamicByte tr.base.toNat x := by
  obtain ⟨hapart, _⟩ := hr.geometry
  exact not_dynamicByte (by omega)

end

/-- Settles O42: a static field is made of bytes that no switch writes, and an SSP row has no dynamic byte. -/
theorem staticTssFieldsAreKept : Obligations.StaticTssFieldsAreKept := by
  intro k next s t hi h
  obtain ⟨hm, sel, tr, hr, rfl⟩ := h.cases
  refine ⟨tr, taskRegOf sel (tssAt s sel), hr.loaded, rfl, fun base hb => ⟨fun f hf => ?_, fun hlink => ?_⟩⟩
  · have hplace := static_field_place f hf
    exact readTss32_congr fun x h1 h2 => hr.byte_static hi hm hb (by omega) next
  · refine readTss32_congr fun x h1 h2 => byte_committed_other ?_ next
    have hrow : base + 104 ≤ x ∧ x ≤ base + 107 := ⟨h1, Nat.le_of_lt_succ h2⟩
    exact not_or.2 ⟨hr.sspRow_not_dynamic hb hrow.1 hrow.2, hlink x hrow.1 hrow.2⟩

end Sys2Proof.Machine
end

section
/-! PROOFS. Encodings: what decodes is an encoding of R63 and nothing else (R61, R63, R64, R66). -/

namespace Sys2Proof

/-! ### Registers and ModRM (R63) -/

/-- Every number of three bits is that of the register it names. -/
theorem num_regOfNum : ∀ n : BitVec 3, (regOfNum n).num = n := by decide

/-- The ModRM byte of LTR on its three fields (R63). -/
theorem ltrModRm_eq_append : ∀ n : BitVec 3, 0b11#2 ++ 0b011#3 ++ n = 0xD8#8 + n.setWidth 8 := by decide

/-- A byte is its bits 7:6, 5:3 and 2:0 written together. -/
theorem modRm_eq_append (b : Byte) : b.extractLsb' 6 2 ++ b.extractLsb' 3 3 ++ b.extractLsb' 0 3 = b := by
  rw [BitVec.extractLsb'_append_extractLsb'_eq_extractLsb' (by decide), BitVec.extractLsb'_append_extractLsb'_eq_extractLsb' (by decide)]
  exact BitVec.extractLsb'_eq_self

/-- The ModRM bytes of LTR are those the encoder writes. -/
theorem decodeLtrModRm_eq_ok {b : Byte} {i : Instr} :
    decodeLtrModRm b = .ok i ↔ ∃ r, i = .ltr r ∧ b = 0xD8 + r.num.setWidth 8 := by
  constructor
  · intro h
    rw [decodeLtrModRm] at h
    split at h
    · next hreg =>
      split at h
      · next hmod =>
        refine ⟨regOfNum (b.extractLsb' 0 3), (Except.ok.inj h).symm, ?_⟩
        calc b = b.extractLsb' 6 2 ++ b.extractLsb' 3 3 ++ b.extractLsb' 0 3 := (modRm_eq_append b).symm
          _ = 0b11#2 ++ 0b011#3 ++ b.extractLsb' 0 3 := by rw [hmod, hreg]; rfl
          _ = 0xD8 + (regOfNum (b.extractLsb' 0 3)).num.setWidth 8 := by rw [num_regOfNum]; exact ltrModRm_eq_append _
      · cases h
    · cases h
  · rintro ⟨r, rfl, rfl⟩
    cases r <;> rfl

/-! ### The families of opcodes (R63) -/

/-- A far pointer is read from its six bytes and from nothing else. -/
theorem decodeFarPointer_eq_ok {mk : Sel → Word → Instr} {bs rest : List Byte} {i : Instr} :
    decodeFarPointer mk bs = .ok (i, rest) ↔ ∃ sel off, i = mk sel off ∧ bs = farPointerBytes sel off ++ rest := by
  constructor
  · intro h
    unfold decodeFarPointer at h
    split at h
    · next o0 o1 o2 o3 s0 s1 tail =>
      cases h
      refine ⟨_, _, rfl, ?_⟩
      simp (disch := omega) only [farPointerBytes, BitVec.extractLsb'_append_eq_of_le, BitVec.extractLsb'_append_eq_right, Nat.reduceSub,
        BitVec.extractLsb'_eq_self, List.cons_append, List.nil_append]
    · cases h
  · rintro ⟨sel, off, rfl, rfl⟩
    have hsel : sel.extractLsb' 8 8 ++ sel.extractLsb' 0 8 = sel := BitVec.extractLsb'_append_extractLsb'
    have hoff : off.extractLsb' 24 8 ++ off.extractLsb' 16 8 ++ off.extractLsb' 8 8 ++ off.extractLsb' 0 8 = off := by
      rw [BitVec.extractLsb'_append_extractLsb'_eq_extractLsb' (by decide), BitVec.extractLsb'_append_extractLsb'_eq_extractLsb' (by decide),
        BitVec.extractLsb'_append_extractLsb'_eq_extractLsb' (by decide)]
      exact BitVec.extractLsb'_eq_self
    simp only [farPointerBytes, List.cons_append, List.nil_append, decodeFarPointer, hsel, hoff]

/-- After the opcode `0F` only LTR with a register operand decodes. -/
theorem decodeTwoByte_eq_ok {bs rest : List Byte} {i : Instr} :
    decodeTwoByte bs = .ok (i, rest) ↔ ∃ r, i = .ltr r ∧ bs = 0x00 :: (0xD8 + r.num.setWidth 8) :: rest := by
  constructor
  · intro h
    unfold decodeTwoByte at h
    split at h
    · cases h
    · split at h
      · next hop =>
        split at h
        · cases h
        · next modrm tail =>
          cases hm : decodeLtrModRm modrm with
          | error e => rw [hm] at h; cases h
          | ok j =>
            rw [hm] at h
            cases h
            obtain ⟨r, hi, hb⟩ := decodeLtrModRm_eq_ok.1 hm
            exact ⟨r, hi, by rw [hop, hb]⟩
      · cases h
  · rintro ⟨r, rfl, rfl⟩
    simp only [decodeTwoByte, if_true, decodeLtrModRm_eq_ok.2 ⟨r, rfl, rfl⟩, Except.map]

/-- After the opcode `FF` nothing decodes. -/
theorem decodeGroupFF_ne_ok (bs : List Byte) (x : Instr × List Byte) : decodeGroupFF bs ≠ .ok x := by
  unfold decodeGroupFF
  split
  · exact nofun
  · split <;> exact nofun

/-! ### The decoder and the encoder (R63, R66) -/

/-- Each encoding is decoded, whatever follows it. -/
theorem decode_encode_append (i : Instr) (rest : List Byte) : decode (encode i ++ rest) = .ok (i, rest) := by
  cases i with
  | ltr r => exact decodeTwoByte_eq_ok.2 ⟨r, rfl, rfl⟩
  | jmp sel off => exact decodeFarPointer_eq_ok.2 ⟨sel, off, rfl, rfl⟩
  | call sel off => exact decodeFarPointer_eq_ok.2 ⟨sel, off, rfl, rfl⟩
  | iret => rfl

/-- What decodes begins with the encoding of the instruction: one branch of the decoder for each opcode. -/
theorem eq_encode_append_of_decode {bs rest : List Byte} {i : Instr} (h : decode bs = .ok (i, rest)) : bs = encode i ++ rest := by
  unfold decode at h
  split at h
  · cases h
  · next op tail =>
    split at h
    · next hop => cases h; rw [hop]; rfl
    split at h
    · next hop => obtain ⟨sel, off, rfl, rfl⟩ := decodeFarPointer_eq_ok.1 h; rw [hop]; rfl
    split at h
    · next hop => obtain ⟨sel, off, rfl, rfl⟩ := decodeFarPointer_eq_ok.1 h; rw [hop]; rfl
    split at h
    · next hop => obtain ⟨r, rfl, rfl⟩ := decodeTwoByte_eq_ok.1 h; rw [hop]; rfl
    split at h
    · exact absurd h (decodeGroupFF_ne_ok tail _)
    split at h <;> cases h

/-- The lemma of each constructor (R63, R64), for every term. -/
theorem encodeLength_statement (i : Instr) : Laws.EncodeLength.Statement i := by
  cases i with
  | ltr r => exact Laws.EncodeLength.ltr r
  | jmp sel off => exact Laws.EncodeLength.jmp sel off
  | call sel off => exact Laws.EncodeLength.call sel off
  | iret => exact Laws.EncodeLength.iret

theorem length_encode (i : Instr) : (encode i).length = i.length := (encodeLength_statement i).1

theorem Instr.length_pos (i : Instr) : 0 < i.length := (encodeLength_statement i).2.1

/-- Settles O1: by the opcode each encoding begins with, and the operands of its family. -/
theorem decodeOfEncodeIsTheInstruction : Obligations.DecodeOfEncodeIsTheInstruction := fun i rest _ => decode_encode_append i rest

/-- Settles O2: by the branches of the decoder. -/
theorem onlyEncodingsDecode : Obligations.OnlyEncodingsDecode := fun _ _ i h => ⟨eq_encode_append_of_decode h, length_encode i⟩

/-- Settles O3: the words of R63 are encodings, and the others end in a branch that refuses. -/
theorem writtenOutWordsDecode : Obligations.WrittenOutWordsDecode :=
  ⟨decode_encode_append (.ltr .eax) [], decode_encode_append (.ltr .ebx) [], decode_encode_append (.ltr .edi) [],
    decode_encode_append (.jmp 0x0030 0x12345678) [], decode_encode_append (.call 0x0138 0x00000000) [], decode_encode_append .iret [0x90],
    by decide, by decide, by decide, by decide⟩

end Sys2Proof
end

section
/-! PROOFS. The loader, and the instruction a step runs (R60, R64 to R66). -/

namespace Sys2Proof.Machine

/-! ### The loader (R60, R66; log 1) -/

theorem decodedEntry_of_ok {bs rest : List Byte} {i : Instr} (h : decode bs = .ok (i, rest)) : decodedEntry bs = some ⟨i, i.length⟩ := by
  rw [decodedEntry, h]

theorem decodedEntry_of_error {bs : List Byte} {e : DecodeError} (h : decode bs = .error e) : decodedEntry bs = none := by
  rw [decodedEntry, h]

/-- Bytes that decode are loaded as the term they begin with. -/
theorem CodeStore.load_of_ok {bs rest : List Byte} {i : Instr} (h : decode bs = .ok (i, rest)) (c : CodeStore) (l : CodeLoc) :
    c.load l bs = c.place l ⟨i, i.length⟩ := by
  rw [CodeStore.load, decodedEntry_of_ok h]

/-- Bytes that do not decode are loaded as nothing. -/
theorem CodeStore.load_of_error {bs : List Byte} {e : DecodeError} (h : decode bs = .error e) (c : CodeStore) (l : CodeLoc) :
    c.load l bs = c.remove l := by
  rw [CodeStore.load, decodedEntry_of_error h]

/-- Settles O6: loading places a term or removes what is there, as the bytes decode or not. -/
theorem loadingPutsTheDecodedTerm : Obligations.LoadingPutsTheDecodedTerm := by
  intro c l bs hc
  cases h : decode bs with
  | ok x =>
    obtain ⟨i, rest⟩ := x
    rw [CodeStore.load_of_ok h]
    refine ⟨CodeStore.wf_place hc l (Instr.length_pos i), fun l' hl => CodeStore.lookup_place_other c _ hl, fun j _ hj => ?_, nofun⟩
    cases hj
    exact CodeStore.lookup_place_same c l _
  | error e =>
    rw [CodeStore.load_of_error h]
    exact ⟨CodeStore.wf_remove hc l, fun l' hl => CodeStore.lookup_remove_other c hl, nofun, fun _ _ => CodeStore.lookup_remove_same c l⟩

/-! ### The instruction a step runs (R60, R64, R65) -/

/-- Settles O5: the step is the meaning of what `code` has there, with its length. -/
theorem stepRunsTheTermAtEip : Obligations.StepRunsTheTermAtEip := by
  intro s i len hr ho hs hcode
  have hf : fetch s = some ⟨i, len⟩ := hcode
  exact ⟨by rw [step_of_no_event hr ho hs, hf]; rfl, State.lenOf_of_fetch hf⟩

/-- Settles O4: what is decoded is a term at (CS, EIP), and the bytes read are its encoding. -/
theorem stepRunsTheDecodedInstruction : Obligations.StepRunsTheDecodedInstruction := by
  intro s bs rest i hr ho hs hd hcode
  obtain ⟨hstep, hlen⟩ := stepRunsTheTermAtEip s i i.length hr ho hs (hcode.trans (decodedEntry_of_ok hd))
  refine ⟨hstep, ?_⟩
  rw [eq_encode_append_of_decode hd, List.length_append, length_encode, hlen]

/-- Settles O7: with no term at (CS, EIP) a step that takes no event has nothing to run. -/
theorem noInstructionIsRefused : Obligations.NoInstructionIsRefused := by
  intro s hr ho hs hcode
  have hf : fetch s = none := hcode
  rw [step_of_no_event hr ho hs, hf]

end Sys2Proof.Machine
end

section
/-! PROOFS. LTR: its privilege, every check in the order of the rule with the whole next state, its completion, and the bytes a step may
write (R69, R70, R101, R110). -/

namespace Sys2Proof.Machine

/-! ### Checks whose stop ends a rule (R93, R94) -/

/-- A lookup that stops under a condition, before the rest of the pseudocode. -/
theorem Chk.ite_error_bind {α β : Type} {c : Prop} [Decidable c] {e : Stop} {x : Chk α} {f : α → Chk β} :
    ((if c then .error e else x) >>= f) = if c then .error e else x >>= f := by
  split <;> rfl

theorem toOutcome_ite_raise {c : Prop} [Decidable c] {f : Fault} {x : Chk State} :
    toOutcome (if c then .error (.raise f) else x) = if c then .fault f else toOutcome x := by
  split <;> rfl

theorem toOutcome_ite_refuse {c : Prop} [Decidable c] {r : Refusal} {x : Chk State} :
    toOutcome (if c then .error (.refuse r) else x) = if c then .refused r else toOutcome x := by
  split <;> rfl

theorem toOutcome_ok (t : State) : toOutcome (.ok t) = .next t := rfl

/-! ### The descriptor LTR reads -/

/-- The read of a descriptor that is no TSS, of either size, where it fits the address width. -/
theorem readLtrDesc_of_not_tss {s : State} {sel : Sel} (hs : InGdt s sel (descSize s.cfg.mode))
    (ht : ¬ drawnAsTss (s.mem.read8 (gdtSlot s sel))) : readLtrDesc s (gdtSlot s sel) sel = .error (.raise (.notATss sel)) := by
  cases hc : classify (s.mem.read8 (gdtSlot s sel)) with
  | tss t => exact absurd (classify_eq_tss.1 hc).1 ht
  | gate _ | other =>
    cases hm : s.cfg.mode with
    | protectedMode =>
      have h8 : gdtSlot s sel + 8 ≤ addrLimit s.cfg.mode := by simpa only [hm, descSize] using hs.fits
      simp only [readLtrDesc, hm, memRead8_eq_ok.2 ⟨h8, rfl⟩, Chk.ok_bind, hc]
    | long64 =>
      have h16 : gdtSlot s sel + 16 ≤ addrLimit s.cfg.mode := by simpa only [hm, descSize] using hs.fits
      simp only [readLtrDesc, hm, memRead16_eq_ok.2 ⟨h16, rfl⟩, Chk.ok_bind, Memory.low64_read16, hc]

/-- In either mode LTR classifies the descriptor by its first 8 bytes (R69, R70). -/
theorem readLtrDesc_eq_ite {s : State} {sel : Sel} (hs : InGdt s sel (descSize s.cfg.mode)) :
    readLtrDesc s (gdtSlot s sel) sel =
      if ¬ drawnAsTss (s.mem.read8 (gdtSlot s sel)) then .error (.raise (.notATss sel)) else .ok (modeTssAt s sel) := by
  by_cases ht : drawnAsTss (s.mem.read8 (gdtSlot s sel))
  · rw [if_neg (not_not.2 ht), readLtrDesc_of_tss hs ht]
  · rw [if_pos ht, readLtrDesc_of_not_tss hs ht]

theorem modeTssAt_of_protected {s : State} (hm : s.cfg.mode = .protectedMode) (sel : Sel) :
    modeTssAt s sel = decodeTss32 (s.mem.read8 (gdtSlot s sel)) := by rw [modeTssAt, hm]

theorem modeTssAt_of_long64 {s : State} (hm : s.cfg.mode = .long64) (sel : Sel) :
    modeTssAt s sel = decodeTss64 (s.mem.read16 (gdtSlot s sel)) := by rw [modeTssAt, hm]

/-- The 8-byte descriptor has no field 108:104 (R46). -/
theorem decodeTss32_zero (d : BitVec 64) : (decodeTss32 d).zero = 0 := rfl

theorem getLsbD_low64 (d : BitVec 128) {i : Nat} (hi : i < 64) : (d.extractLsb' 0 64).getLsbD i = d.getLsbD i := by
  rw [BitVec.getLsbD_extractLsb', decide_eq_true hi, Bool.true_and, Nat.zero_add]

/-- The first 8 bytes of a 16-byte descriptor, bit by bit. -/
theorem drawnAsTss_read8_iff (m : Memory) (a : Nat) : drawnAsTss (m.read8 a) ↔
    (m.read16 a).getLsbD 44 = false ∧ (m.read16 a).getLsbD 43 = true ∧ (m.read16 a).getLsbD 42 = false ∧ (m.read16 a).getLsbD 40 = true := by
  rw [← Memory.low64_read16]
  simp only [drawnAsTss, getLsbD_low64, Nat.reduceLT]

/-- The fields of the 16-byte descriptor, each in the bits of the whole (R46). -/
theorem decodeTss64_eq (d : BitVec 128) : decodeTss64 d =
    { base := d.extractLsb' 64 32 ++ d.extractLsb' 56 8 ++ d.extractLsb' 32 8 ++ d.extractLsb' 16 16
      limit := d.extractLsb' 48 4 ++ d.extractLsb' 0 16
      g := d.getLsbD 55, z54 := d.getLsbD 54, z53 := d.getLsbD 53, avl := d.getLsbD 52, p := d.getLsbD 47
      dpl := d.extractLsb' 45 2, s := d.getLsbD 44, type := d.extractLsb' 40 4, b := d.getLsbD 41
      zero := d.extractLsb' 104 5 } := by
  simp only [decodeTss64, decodeTss32, getLsbD_low64, extractLsb'_extractLsb'_eq, Nat.reduceLT, Nat.reduceAdd, Nat.reduceLeDiff]

/-! ### The rule in order -/

/-- LTR where no sum wraps: the first stop of R69 and R70 that applies, or the next state. -/
theorem exec_ltr_eq_ite {s : State} {r : Reg} {sel : Sel} (hsel : s.gprs.low16 r = sel)
    (hgdt : s.cfg.gdtBase.toNat + s.cfg.gdtLimit.toNat < addrLimit s.cfg.mode) (heip : s.eip.toNat + s.lenOf (.ltr r) < 2 ^ 32) :
    exec (.ltr r) s =
      if s.cpl ≠ 0 then .fault (.privilegeViolation none)
      else if selTI sel = true then .fault (.selectorNotGlobal sel)
      else if selIndex sel = 0 then .fault (.selectorNull sel)
      else if 8 * selIndex sel + descSize s.cfg.mode - 1 > s.cfg.gdtLimit.toNat then .fault (.selectorOutOfTable sel)
      else if ¬ drawnAsTss (s.mem.read8 (gdtSlot s sel)) then .fault (.notATss sel)
      else if (modeTssAt s sel).z54 = true ∨ (modeTssAt s sel).z53 = true then .refused .reservedBitSet
      else if (modeTssAt s sel).zero ≠ 0 then .fault (.notATss sel)
      else if (modeTssAt s sel).b = true then .fault (.taskBusy sel)
      else if (modeTssAt s sel).p = false then .fault (.notPresent (.selector sel))
      else .next (((s.withMem (setBusy s.mem (gdtSlot s sel))).withTr (taskRegOf sel (modeTssAt s sel))).withEip (s.eipAfter (.ltr r))) := by
  have hpos : 0 < descSize s.cfg.mode := by cases s.cfg.mode <;> decide
  simp only [exec_ltr, execLtr, hsel, checkLtr, raiseIf_bind, refuseIf_bind, nextEip_eq_ok.2 ⟨heip, rfl⟩, Chk.ok_bind,
    ltrDescSize_eq_descSize, Chk.ite_error_bind, toOutcome_ite_raise]
  -- the lookup is one in the GDT only once the selector is known to be global
  refine ite_congr rfl (fun _ => rfl) fun _ => ite_congr rfl (fun _ => rfl) fun hti => ?_
  rw [Bool.not_eq_true] at hti
  simp only [descAddr_global hti hgdt hpos, Chk.ite_error_bind, toOutcome_ite_raise, Chk.ok_bind]
  -- the read fits only once the slot is known to lie within the limit
  refine ite_congr rfl (fun _ => rfl) fun hnull => ite_congr rfl (fun _ => rfl) fun hlim => ?_
  have hslot : InGdt s sel (descSize s.cfg.mode) := ⟨hti, hnull, Nat.le_of_not_lt hlim, by rw [gdtSlot]; omega⟩
  rw [← gdtSlot, readLtrDesc_eq_ite hslot]
  simp only [Chk.ite_error_bind, Chk.ok_bind, toOutcome_ite_raise, toOutcome_ite_refuse, toOutcome_ok]

/-- Settles O17: the rule in order; the 8-byte descriptor has no field 108:104 to test. -/
theorem ltrInProtectedMode : Obligations.LtrInProtectedMode := by
  intro s r hm hgdt heip
  have h := exec_ltr_eq_ite (s := s) (r := r) rfl (by rw [hm]; exact hgdt) heip
  rw [modeTssAt_of_protected hm, hm] at h
  simp only [decodeTss32_zero, ne_eq, not_true_eq_false, if_false] at h
  exact h

/-- Settles O18: the rule in order, the fields of the 16-byte descriptor read in its own bits. -/
theorem ltrInLong64Mode : Obligations.LtrInLong64Mode := by
  intro s r hm hgdt heip
  have h := exec_ltr_eq_ite (s := s) (r := r) rfl (by rw [hm]; exact hgdt) heip
  rw [modeTssAt_of_long64 hm, hm, decodeTss64_eq] at h
  simp only [drawnAsTss_read8_iff] at h
  exact h

/-! ### What LTR leaves, and what it asks for first -/

/-- The busy flag is set by LTR's write (R69). -/
theorem getLsbD_byte_setBusy (m : Memory) (d : Nat) : ((setBusy m d).byte (d + 5)).getLsbD 1 = true := by
  rw [byte_setBusy_same, BitVec.getLsbD_or]
  exact Bool.or_true _

/-- Settles O19: ready LTR answers its next state, which differs from the state before in the busy byte, TR and EIP. -/
theorem ltrCompletes : Obligations.LtrCompletes := by
  intro s r hready
  have hslot : InGdt s (s.gprs.low16 r) (descSize s.cfg.mode) := (hready.elim LtrReady.checksPass LtrReady64.checksPass).slot
  refine ⟨_, execLtr_eq_next.2 ⟨hready, rfl⟩, rfl, rfl, getLsbD_byte_setBusy _ _, fun a ha x hx => ?_, rfl, rfl, rfl, rfl, rfl, rfl,
    rfl, rfl, rfl, rfl, rfl⟩
  have haddr : a = gdtSlot s (s.gprs.low16 r) := by
    rw [descAddr_of_inGdt (by cases s.cfg.mode <;> decide) hslot] at ha
    exact (Except.ok.inj ha).symm
  exact byte_setBusy_other _ (haddr ▸ hx)

/-- Settles O49: by the cases of a step that goes on. -/
theorem stepsWriteOnlyTheirBytes : Obligations.StepsWriteOnlyTheirBytes := fun _ _ _ h hx => step_byte_other h hx

/-- Settles O55: the privilege check is the first of the rule. -/
theorem ltrIsPrivileged : Obligations.LtrIsPrivileged := by
  intro s r hcpl
  rw [exec_ltr, execLtr, checkLtr, raiseIf_pos hcpl, Chk.error_bind, Chk.error_bind, toOutcome]

end Sys2Proof.Machine
end

section
/-! PROOFS. Reaching a task: how a JMP or CALL finds its TSS selector, what an event does up to its task switch, and that each of the four
dispatches that reaches a task is its task switch (R74 to R79). -/

namespace Sys2Proof.Machine

/-! ### The target of a JMP or CALL (R79) -/

theorem privilegeAllows_eq_false_iff {c r d : BitVec 2} : privilegeAllows c r d = false ↔ max c.toNat r.toNat > d.toNat := by
  rw [← Bool.not_eq_true, privilegeAllows_iff, Nat.not_le]

/-- A lookup that stops is how the resolution stops. -/
theorem resolveTarget_of_lookup_error {s : State} {sel : Sel} {stop : Stop} (h : descAddr s sel 8 = .error stop) :
    resolveTarget s sel = .error stop := by
  rw [resolveTarget, h, Chk.error_bind]

section
variable {s : State} {sel : Sel} {a : Nat} (ha : descAddr s sel 8 = .ok a) (hfits : a + 8 ≤ addrLimit s.cfg.mode)
include ha hfits

/-- The resolution at a TSS descriptor: the selector must be global and the access allowed by the descriptor's DPL. -/
theorem resolveTarget_of_tss (ht : drawnAsTss (s.mem.read8 a)) :
    resolveTarget s sel =
      if selTI sel = true then .error (.raise (.selectorNotGlobal sel))
      else if max s.cpl.toNat (selRPL sel).toNat > ((s.mem.read8 a).extractLsb' 45 2).toNat then
        .error (.raise (.privilegeViolation (some sel)))
      else .ok sel := by
  simp only [resolveTarget, ha, memRead8_eq_ok.2 ⟨hfits, rfl⟩, Chk.ok_bind, classify_of_tss ht, raiseIf_bind, privilegeAllows_eq_false_iff]
  rfl

/-- The resolution at a task gate: the access must be allowed by the gate's DPL and the gate present. -/
theorem resolveTarget_of_gate (hg : drawnAsGate (s.mem.read8 a)) :
    resolveTarget s sel =
      if max s.cpl.toNat (selRPL sel).toNat > ((s.mem.read8 a).extractLsb' 45 2).toNat then
        .error (.raise (.privilegeViolation (some sel)))
      else if (s.mem.read8 a).getLsbD 47 = false then .error (.raise (.notPresent (.selector sel)))
      else .ok ((s.mem.read8 a).extractLsb' 16 16) := by
  simp only [resolveTarget, ha, memRead8_eq_ok.2 ⟨hfits, rfl⟩, Chk.ok_bind, classify_of_gate hg, raiseIf_bind, privilegeAllows_eq_false_iff]
  rfl

theorem resolveTarget_of_other (ht : ¬ drawnAsTss (s.mem.read8 a)) (hg : ¬ drawnAsGate (s.mem.read8 a)) :
    resolveTarget s sel = .error (.refuse .notATaskTransfer) := by
  simp only [resolveTarget, ha, memRead8_eq_ok.2 ⟨hfits, rfl⟩, Chk.ok_bind, classify_of_other ht hg]

end

/-- Settles O21: by the class of the descriptor that the lookup finds. -/
theorem targetResolution : Obligations.TargetResolution := by
  refine ⟨fun s sel stop => resolveTarget_of_lookup_error, fun s sel a ha hfits => ?_⟩
  by_cases ht : drawnAsTss (s.mem.read8 a)
  · exact (resolveTarget_of_tss ha hfits ht).trans (if_pos ht).symm
  · by_cases hg : drawnAsGate (s.mem.read8 a)
    · exact (resolveTarget_of_gate ha hfits hg).trans ((if_neg ht).trans (if_pos hg)).symm
    · exact (resolveTarget_of_other ha hfits ht hg).trans ((if_neg ht).trans (if_neg hg)).symm

/-! ### An interrupt or exception up to its task switch (R77, R78) -/

/-- The dispatch at an IDT entry that lies in the table and in the address width, by the class of the entry (R77). -/
theorem dispatchVector_of_slot {s : State} {v : Nat} (hm : s.cfg.mode = .protectedMode) (hin : 8 * v + 7 ≤ s.cfg.idtLimit.toNat)
    (hfits : s.cfg.idtBase.toNat + 8 * v + 8 ≤ addrLimit s.cfg.mode) {d : BitVec 64}
    (hd : s.mem.read8 (s.cfg.idtBase.toNat + 8 * v) = d) :
    dispatchVector v s =
      if drawnAsGate d then
        if d.getLsbD 47 = false then .error (.raise (.notPresent (.vector v))) else taskSwitch .int (d.extractLsb' 16 16) s.eip s
      else if drawnAsTss d then .error (.raise (.invalidIdtEntry v))
      else .error (.refuse .notATaskTransfer) := by
  have ha : idtAddr s v = .ok (s.cfg.idtBase.toNat + 8 * v) := idtAddr_eq_ok.2 ⟨hin, by omega, rfl⟩
  simp only [dispatchVector, refuseIf_neg (mode_ne_long64.2 hm), ha, memRead8_eq_ok.2 ⟨hfits, rfl⟩, Chk.ok_bind, hd]
  by_cases hg : drawnAsGate d
  · rw [if_pos hg, classify_of_gate hg]
    exact raiseIf_bind
  · rw [if_neg hg]
    by_cases ht : drawnAsTss d
    · rw [if_pos ht, classify_of_tss ht]
    · rw [if_neg ht, classify_of_other ht hg]

theorem hasErrorCode_iff {c : Config} {v : Nat} : hasErrorCode c v = true ↔ v ∈ c.errorVectors := List.contains_iff_mem

/-- An exception is refused when it carries an error code, and is dispatched as an interrupt when not (R78). -/
theorem takeEvent_exception (s : State) (v : Nat) :
    takeEvent (.exception v) s =
      if v ∈ s.cfg.errorVectors then .error (.refuse .errorCodeUnmodelled) else takeEvent (.interrupt v) s := by
  simp only [takeEvent, refuseIf_bind, hasErrorCode_iff]

/-- An event that is deliverable is dispatched through its vector. -/
theorem takeEvent_of_deliverable {e : Event} {s : State} (h : e.deliverable s.cfg = true) : takeEvent e s = dispatchVector e.vector s := by
  cases e with
  | interrupt v => rfl
  | exception v =>
    have hnone : hasErrorCode s.cfg v = false := by simpa only [Event.deliverable, Bool.not_eq_true'] using h
    rw [takeEvent, refuseIf_neg (ne_true_of_eq_false hnone), Chk.ok_bind, Event.vector]

/-- In 64-bit mode an interrupt is refused before its vector is looked up (R91). -/
theorem dispatchVector_of_long64 {s : State} (hm : s.cfg.mode = .long64) (v : Nat) :
    dispatchVector v s = .error (.refuse .longModeTransfer) := by
  rw [dispatchVector, refuseIf_pos hm, Chk.error_bind]

/-- Settles O28: the mode, then the lookup, then the class of the entry; an exception by its error code. -/
theorem eventDispatch : Obligations.EventDispatch := by
  refine ⟨fun s v hidt => ?_, takeEvent_exception⟩
  show dispatchVector v s = _
  by_cases hm : s.cfg.mode = .long64
  · exact (dispatchVector_of_long64 hm v).trans (if_pos hm).symm
  · rw [if_neg hm]
    by_cases hlim : 8 * v + 7 > s.cfg.idtLimit.toNat
    · rw [if_pos hlim, dispatchVector, refuseIf_neg hm, Chk.ok_bind, idtAddr_eq hidt, if_pos hlim, Chk.error_bind]
    · rw [if_neg hlim]
      exact dispatchVector_of_slot (mode_ne_long64.1 hm) (by omega) (by omega) rfl

/-! ### A dispatch that reaches a task is its task switch -/

section
variable {s : State} (hm : s.cfg.mode = .protectedMode)
include hm

theorem exec_jmp_of_reaches {sel tssSel : Sel} {off : Word} (hr : Reaches s sel tssSel) (he : s.eip.toNat + s.lenOf (.jmp sel off) < 2 ^ 32) :
    exec (.jmp sel off) s = toOutcome (taskSwitch .jmp tssSel (s.eipAfter (.jmp sel off)) s) := by
  simp only [exec, execJmp, refuseIf_neg (mode_ne_long64.2 hm), resolveTarget_eq_ok.2 hr, nextEip_eq_ok.2 ⟨he, rfl⟩, Chk.ok_bind]

theorem exec_call_of_reaches {sel tssSel : Sel} {off : Word} (hr : Reaches s sel tssSel) (he : s.eip.toNat + s.lenOf (.call sel off) < 2 ^ 32) :
    exec (.call sel off) s = toOutcome (taskSwitch .call tssSel (s.eipAfter (.call sel off)) s) := by
  simp only [exec, execCall, refuseIf_neg (mode_ne_long64.2 hm), resolveTarget_eq_ok.2 hr, nextEip_eq_ok.2 ⟨he, rfl⟩, Chk.ok_bind]

theorem exec_iret_of_nested {tr : TaskReg} (hnt : ntFlag s.eflags = true) (htr : s.tr = some tr) (hf : tr.base.toNat + 2 ≤ 2 ^ 32)
    (he : s.eip.toNat + s.lenOf .iret < 2 ^ 32) :
    exec .iret s = toOutcome (taskSwitch .iret (s.mem.read2 tr.base.toNat) (s.eipAfter .iret) s) := by
  simp only [exec, execIret, refuseIf_neg (mode_ne_long64.2 hm), refuseIf_neg (ne_false_of_eq_true hnt), htr, previousLink_of_fits hm hf,
    nextEip_eq_ok.2 ⟨he, rfl⟩, Chk.ok_bind]

theorem takeEvent_of_gate {e : Event} {tssSel : Sel} (hd : e.deliverable s.cfg = true) (hg : GateInIdt s e.vector tssSel) :
    takeEvent e s = taskSwitch .int tssSel s.eip s := by
  rw [takeEvent_of_deliverable hd, dispatchVector_of_slot hm hg.inTable hg.fits rfl, if_pos hg.isGate,
    if_neg (ne_false_of_eq_true hg.present), hg.names]

end

end Sys2Proof.Machine
end

section
/-! PROOFS. The tests on the incoming task, and the stops of a task switch: a busy or not busy task, a task register never loaded, shadow
stacks, NT clear, 64-bit mode, and the task's own TSS (R76, R81, R83, R88, R90, R91). -/

namespace Sys2Proof.Machine

/-! ### The tests in order (R81) -/

theorem effLimit_lt_min_iff {t : TssDesc} :
    effLimit t < minTssLimit ↔ (if t.g = true then t.limit.toNat * 4096 + 4095 else t.limit.toNat) < 103 := by
  rw [BitVec.lt_def, toNat_effLimit]
  exact Iff.rfl

/-- The busy flag of the incoming task is 1 for IRET and 0 for every other kind (R81). -/
theorem checkIncomingBusy_bind {α : Type} {k : DispatchKind} {sel : Sel} {t : TssDesc} {f : Unit → Chk α} :
    (checkIncomingBusy k sel t >>= f) =
      if k = .iret ∧ t.b = false then .error (.raise (.taskNotBusy sel))
      else if k ≠ .iret ∧ t.b = true then .error (.raise (.taskBusy sel))
      else f () := by
  cases k <;> simp [checkIncomingBusy, raiseIf_bind]

/-- Where the sums of R33 fit, the separation check is that of the overlap. -/
theorem checkSeparated_of_fits {s : State} {ob nb : Nat} (h : ∀ r ∈ switchRanges s ob nb, r.2 < addrLimit s.cfg.mode) :
    checkSeparated s ob nb = refuseIf (allApart (switchRanges s ob nb) = false) .structuresOverlap := by
  have hall : (switchRanges s ob nb).all (fun r => decide (r.2 < addrLimit s.cfg.mode)) = true := by simpa using h
  rw [checkSeparated, refuseIf_neg (ne_false_of_eq_true hall), Chk.ok_bind]

/-- What a GDT slot of 8 bytes that holds no TSS descriptor answers. -/
theorem checkIncoming_of_not_tss {k : DispatchKind} {sel : Sel} {tr : TaskReg} {s : State} (hs : InGdt s sel 8)
    (ht : ¬ drawnAsTss (s.mem.read8 (gdtSlot s sel))) : checkIncoming k sel tr s = .error (.raise (.notATss sel)) := by
  simp only [checkIncoming, raiseIf_neg (ne_true_of_eq_false hs.global), descAddr_of_inGdt (by decide) hs, memRead8_eq_ok.2 ⟨hs.fits, rfl⟩,
    Chk.ok_bind]
  cases hc : classify (s.mem.read8 (gdtSlot s sel)) with
  | tss t => exact absurd (classify_eq_tss.1 hc).1 ht
  | gate _ | other => rfl

/-- The tests on a TSS descriptor found in the GDT, where the sums of R33 fit. -/
theorem checkIncoming_of_tss {k : DispatchKind} {sel : Sel} {tr : TaskReg} {s : State} (hs : InGdt s sel 8)
    (ht : drawnAsTss (s.mem.read8 (gdtSlot s sel)))
    (hfits : ∀ r ∈ switchRanges s tr.base.toNat (tssAt s sel).base.toNat, r.2 < addrLimit s.cfg.mode) :
    checkIncoming k sel tr s =
      if (tssAt s sel).z54 = true ∨ (tssAt s sel).z53 = true then .error (.refuse .reservedBitSet)
      else if k = .iret ∧ (tssAt s sel).b = false then .error (.raise (.taskNotBusy sel))
      else if k ≠ .iret ∧ (tssAt s sel).b = true then .error (.raise (.taskBusy sel))
      else if (tssAt s sel).p = false then .error (.raise (.notPresent (.selector sel)))
      else if (if (tssAt s sel).g = true then (tssAt s sel).limit.toNat * 4096 + 4095 else (tssAt s sel).limit.toNat) < 103 then
        .error (.raise (.tssTooSmall sel))
      else if selIndex sel = selIndex tr.sel then .error (.refuse .selfSwitch)
      else if allApart (switchRanges s tr.base.toNat (tssAt s sel).base.toNat) = false then .error (.refuse .structuresOverlap)
      else if (s.mem.read2 ((tssAt s sel).base.toNat + 100)).getLsbD 0 = true then .error (.refuse .debugTrapUnmodelled)
      else .ok (gdtSlot s sel, tssAt s sel) := by
  have hrow : (tssAt s sel).base.toNat + tss32Offset .t + 2 ≤ addrLimit s.cfg.mode := by
    have hin := switchRanges_incoming_fits hfits
    simp only [tss32Offset]
    omega
  simp only [checkIncoming, raiseIf_neg (ne_true_of_eq_false hs.global), descAddr_of_inGdt (by decide) hs, memRead8_eq_ok.2 ⟨hs.fits, rfl⟩,
    Chk.ok_bind, classify_of_tss ht]
  rw [← tssAt]
  simp only [refuseIf_bind, raiseIf_bind, checkIncomingBusy_bind, checkSeparated_of_fits hfits, memRead2_eq_ok.2 ⟨hrow, rfl⟩, Chk.ok_bind,
    effLimit_lt_min_iff]
  rfl

/-- The 32-bit base of a descriptor has the same number in the 64 bits that hold it (R46). -/
theorem toNat_decodeTss32_base (d : BitVec 64) :
    (decodeTss32 d).base.toNat = (d.extractLsb' 56 8 ++ d.extractLsb' 32 8 ++ d.extractLsb' 16 16).toNat :=
  BitVec.toNat_setWidth_of_le (by decide)

/-- A lookup that stops is how the tests stop, for a global selector. -/
theorem checkIncoming_of_lookup_error {k : DispatchKind} {sel : Sel} {tr : TaskReg} {s : State} {stop : Stop} (hti : selTI sel = false)
    (h : descAddr s sel 8 = .error stop) : checkIncoming k sel tr s = .error stop := by
  rw [checkIncoming, raiseIf_neg (ne_true_of_eq_false hti), Chk.ok_bind, h, Chk.error_bind]

/-- Settles O23: the selector, the lookup, the class of the descriptor, and then the tests on it. -/
theorem incomingTaskIsChecked : Obligations.IncomingTaskIsChecked := by
  intro k sel tr s hm hgdt a d limit nb hranges
  have hbase : nb = (tssAt s sel).base.toNat := (toNat_decodeTss32_base d).symm
  have hwidth : addrLimit s.cfg.mode = 2 ^ 32 := by rw [hm]; rfl
  rw [← hwidth] at hgdt hranges
  rw [hbase] at hranges ⊢
  cases hti : selTI sel with
  | true =>
    rw [checkIncoming, raiseIf_pos hti, Chk.error_bind]
    exact (if_pos hti).symm
  | false =>
    refine Eq.trans ?_ (if_neg (ne_true_of_eq_false hti)).symm
    have hlookup := descAddr_global (n := 8) hti hgdt
    by_cases hnull : selIndex sel = 0
    · rw [if_pos hnull] at hlookup ⊢
      exact checkIncoming_of_lookup_error hti hlookup
    rw [if_neg hnull] at hlookup ⊢
    by_cases hlim : 8 * selIndex sel + 7 > s.cfg.gdtLimit.toNat
    · rw [if_pos hlim]
      exact checkIncoming_of_lookup_error hti (hlookup.trans (if_pos hlim))
    rw [if_neg hlim]
    have hslot : InGdt s sel 8 := ⟨hti, hnull, Nat.le_of_not_lt hlim, by rw [gdtSlot]; omega⟩
    by_cases ht : drawnAsTss (s.mem.read8 (gdtSlot s sel))
    · exact (checkIncoming_of_tss hslot ht hranges).trans (if_neg (not_not.2 ht)).symm
    · exact (checkIncoming_of_not_tss hslot ht).trans (if_pos ht).symm

/-! ### The stops of a task switch -/

/-- A wrong busy flag of the incoming descriptor is how the switch stops, when the tests before it pass (R81, R83). -/
theorem taskSwitch_of_busy_error {k : DispatchKind} {sel : Sel} {tr : TaskReg} {s : State} {stop : Stop} {next : Word} (htr : s.tr = some tr)
    (hsh : s.cfg.shadowStackEnabled = false) (hs : InGdt s sel 8) (ht : drawnAsTss (s.mem.read8 (gdtSlot s sel)))
    (h54 : (tssAt s sel).z54 = false) (h53 : (tssAt s sel).z53 = false) (hb : checkIncomingBusy k sel (tssAt s sel) = .error stop) :
    taskSwitch k sel next s = .error stop := by
  have hz : ¬ ((tssAt s sel).z54 = true ∨ (tssAt s sel).z53 = true) := by simp [h54, h53]
  rw [tssAt] at hb hz
  simp only [taskSwitch, htr, refuseIf_neg (ne_true_of_eq_false hsh), checkIncoming, raiseIf_neg (ne_true_of_eq_false hs.global),
    descAddr_of_inGdt (by decide) hs, memRead8_eq_ok.2 ⟨hs.fits, rfl⟩, classify_of_tss ht, refuseIf_neg hz, hb, Chk.ok_bind, Chk.error_bind]

theorem checkIncomingBusy_of_busy {k : DispatchKind} {sel : Sel} {t : TssDesc} (hk : k ≠ .iret) (hb : t.b = true) :
    checkIncomingBusy k sel t = .error (.raise (.taskBusy sel)) := by
  cases k with
  | iret => exact absurd rfl hk
  | jmp | call | int => exact raiseIf_pos hb _

theorem checkIncomingBusy_of_available {sel : Sel} {t : TssDesc} (hb : t.b = false) :
    checkIncomingBusy .iret sel t = .error (.raise (.taskNotBusy sel)) := raiseIf_pos hb _

/-- Settles O29: each of the three dispatches comes down to its switch, which stops at the busy flag. -/
theorem busyTasksAreNotReentered : Obligations.BusyTasksAreNotReentered := by
  intro s sel tr hm htr hsh hs ht h54 h53 hb
  have hstop : ∀ k next, k ≠ .iret → taskSwitch k sel next s = .error (.raise (.taskBusy sel)) := fun k next hk =>
    taskSwitch_of_busy_error htr hsh hs ht h54 h53 (checkIncomingBusy_of_busy hk hb)
  refine ⟨fun _ _ hr => ⟨fun he => ?_, fun he => ?_⟩, fun e hd hg => ?_⟩
  · rw [exec_jmp_of_reaches hm hr he, hstop _ _ (by decide), toOutcome]
  · rw [exec_call_of_reaches hm hr he, hstop _ _ (by decide), toOutcome]
  · rw [takeEvent_of_gate hm hd hg, hstop _ _ (by decide)]

/-- Settles O35: IRET comes down to its switch to the link, which stops at the busy flag. -/
theorem iretNeedsABusyTask : Obligations.IretNeedsABusyTask := by
  intro s tr hm he hnt htr hf hsh link hs ht h54 h53 hb
  rw [exec_iret_of_nested hm hnt htr hf he, taskSwitch_of_busy_error htr hsh hs ht h54 h53 (checkIncomingBusy_of_available hb), toOutcome]

theorem taskSwitch_of_tr_none {s : State} (htr : s.tr = none) (k : DispatchKind) (sel : Sel) (next : Word) :
    taskSwitch k sel next s = .error (.refuse .trNotLoaded) := by
  rw [taskSwitch, htr]

/-- IRET with NT set looks for the task register before it reads the link (R76). -/
theorem exec_iret_of_tr_none {s : State} (hm : s.cfg.mode = .protectedMode) (hnt : ntFlag s.eflags = true) (htr : s.tr = none) :
    exec .iret s = .refused .trNotLoaded := by
  simp only [exec, execIret, refuseIf_neg (mode_ne_long64.2 hm), refuseIf_neg (ne_false_of_eq_true hnt), htr, Chk.ok_bind, toOutcome]

/-- Settles O33: the first two tests of IRET after the mode. -/
theorem iretNeedsNtAndTr : Obligations.IretNeedsNtAndTr := by
  refine ⟨fun s hm hnt => ?_, fun s hm hnt htr => exec_iret_of_tr_none hm hnt htr⟩
  simp only [exec, execIret, refuseIf_neg (mode_ne_long64.2 hm), refuseIf_pos (show ntFlag s.eflags = false from hnt), Chk.ok_bind,
    Chk.error_bind, toOutcome]

/-- Settles O34: the switch stops before it looks at its task, and every dispatch that reaches a task comes down to its switch. -/
theorem switchesNeedTrAndNoShadowStack : Obligations.SwitchesNeedTrAndNoShadowStack := by
  intro s stop h
  have hstop : ∀ k sel next, taskSwitch k sel next s = .error (.refuse stop) := by
    rcases h with ⟨htr, rfl⟩ | ⟨htr, hsh, rfl⟩
    · exact taskSwitch_of_tr_none htr
    · exact taskSwitch_of_shadowStack hsh htr
  refine ⟨hstop, fun hm => ⟨fun _ _ _ hr => ⟨fun he => ?_, fun he => ?_⟩, fun e _ hd hg => ?_, fun hnt hf he => ?_⟩⟩
  · rw [exec_jmp_of_reaches hm hr he, hstop, toOutcome]
  · rw [exec_call_of_reaches hm hr he, hstop, toOutcome]
  · rw [takeEvent_of_gate hm hd hg, hstop]
  · cases htr : s.tr with
    | some tr => rw [exec_iret_of_nested hm hnt htr (hf tr htr) he, hstop, toOutcome]
    | none =>
      rcases h with ⟨_, rfl⟩ | ⟨hloaded, _⟩
      · exact exec_iret_of_tr_none hm hnt htr
      · exact absurd htr hloaded

/-! ### 64-bit mode (R91) -/

theorem takeEvent_of_long64 {s : State} (hm : s.cfg.mode = .long64) {e : Event} (hd : e.deliverable s.cfg = true) :
    takeEvent e s = .error (.refuse .longModeTransfer) := by
  rw [takeEvent_of_deliverable hd, dispatchVector_of_long64 hm]

theorem SwitchRun.not_long64 {k : DispatchKind} {next : Word} {s t : State} (h : SwitchRun k next s t) : s.cfg.mode ≠ .long64 :=
  mode_ne_long64.2 h.cases.1

section
variable {s : State} (hm : s.cfg.mode = .long64)
include hm

theorem exec_jmp_of_long64 (sel : Sel) (off : Word) : exec (.jmp sel off) s = .refused .longModeTransfer := by
  simp only [exec, execJmp, refuseIf_pos hm, Chk.error_bind, toOutcome]

theorem exec_call_of_long64 (sel : Sel) (off : Word) : exec (.call sel off) s = .refused .longModeTransfer := by
  simp only [exec, execCall, refuseIf_pos hm, Chk.error_bind, toOutcome]

theorem exec_iret_of_long64 : exec .iret s = .refused .longModeTransfer := by
  simp only [exec, execIret, refuseIf_pos hm, Chk.error_bind, toOutcome]

end

/-- Settles O31: the mode is the first test of each, and a switch that goes on is one in `Protected`. -/
theorem noTaskSwitchInLong64 : Obligations.NoTaskSwitchInLong64 := fun _ hm =>
  ⟨fun sel off => ⟨exec_jmp_of_long64 hm sel off, exec_call_of_long64 hm sel off⟩, exec_iret_of_long64 hm, fun _ => takeEvent_of_long64 hm,
    fun _ _ _ h => h.not_long64 hm⟩

/-- A step in 64-bit mode that goes on rests in a final state or runs LTR. -/
theorem step_cases_long64 {s t : State} (hm : s.cfg.mode = .long64) (h : step s = .next t) :
    Final s ∨ ∃ r, actionOf s = .instr (.ltr r) ∧ execLtr r (s.withOffers s.offers.tail) = .next t := by
  obtain ⟨hrun, ⟨e, os, _, hevent⟩ | ⟨hfinal, _⟩ | ⟨hno, hstop, i, hfetch, hexec⟩⟩ := step_eq_next.1 h
  · have hp : s.cfg.mode = .protectedMode := (takeEvent_eq_ok.1 hevent).1
    exact absurd hm (mode_ne_long64.2 hp)
  · exact .inl hfinal
  · rcases exec_cases hexec with ⟨r, hi, hltr⟩ | ⟨_, _, _, hswitch⟩
    · exact .inr ⟨r, by rw [actionOf_of_no_event hrun hno, hstop, hfetch, ← hi]; rfl, hltr⟩
    · exact absurd hm hswitch.not_long64

/-- Settles O32: the step runs LTR, which asks for CPL 0 and writes the busy byte, TR and EIP. -/
theorem long64StepsAreLtr : Obligations.Long64StepsAreLtr := by
  intro s t hm hfinal h
  obtain hf | ⟨r, hact, hltr⟩ := step_cases_long64 hm h
  · exact absurd hf hfinal
  · obtain ⟨hready, rfl⟩ := execLtr_eq_next.1 hltr
    have hcpl : s.cpl = 0 := (hready.elim LtrReady.checksPass LtrReady64.checksPass).cpl
    exact ⟨⟨r, hact, rfl, rfl, fun _ hx => byte_setBusy_other _ hx⟩, hcpl, rfl, rfl, rfl, rfl, rfl, rfl, rfl⟩

/-! ### The task's own TSS (R90) -/

/-- Pseudocode does not stop in a way in which neither its first part nor the rest of it stops. -/
theorem Chk.bind_ne_error {α β : Type} {x : Chk α} {f : α → Chk β} {e : Stop} (hx : x ≠ .error e) (hf : ∀ a, x = .ok a → f a ≠ .error e) :
    (x >>= f) ≠ .error e := by
  cases x with
  | ok a => exact hf a rfl
  | error _ => exact fun h => hx (congrArg Except.error (Except.error.inj h))

theorem Chk.ok_ne_error {α : Type} {a : α} {e : Stop} : (.ok a : Chk α) ≠ .error e := fun h => by cases h

theorem raiseIf_ne_refuse {c : Prop} [Decidable c] {f : Fault} {r : Refusal} : raiseIf c f ≠ .error (.refuse r) := by
  unfold raiseIf; split <;> simp

theorem refuseIf_ne_other {c : Prop} [Decidable c] {r r' : Refusal} (h : r ≠ r') : refuseIf c r ≠ .error (.refuse r') := by
  unfold refuseIf; split <;> simp [h]

theorem refuseIf_ne_of_not {c : Prop} [Decidable c] (h : ¬c) {r : Refusal} {e : Stop} : refuseIf c r ≠ .error e := by
  rw [refuseIf_neg h]; exact Chk.ok_ne_error

section
variable {s : State} {r : Refusal} (hr : .addressWrap ≠ r)
include hr

/-! A sum, an access and a lookup are refused as `AddressWrap` or not at all. -/

theorem addrSum_ne_refuse (base off : Nat) : addrSum s base off ≠ .error (.refuse r) :=
  Chk.bind_ne_error (refuseIf_ne_other hr) fun _ _ => Chk.ok_ne_error

theorem memRead2_ne_refuse (a : Nat) : memRead2 s a ≠ .error (.refuse r) :=
  Chk.bind_ne_error (refuseIf_ne_other hr) fun _ _ => Chk.ok_ne_error

theorem memRead8_ne_refuse (a : Nat) : memRead8 s a ≠ .error (.refuse r) :=
  Chk.bind_ne_error (refuseIf_ne_other hr) fun _ _ => Chk.ok_ne_error

theorem nextEip_ne_refuse (i : Instr) : nextEip s i ≠ .error (.refuse r) :=
  Chk.bind_ne_error (refuseIf_ne_other hr) fun _ _ => Chk.ok_ne_error

theorem idtAddr_ne_refuse (v : Nat) : idtAddr s v ≠ .error (.refuse r) :=
  Chk.bind_ne_error raiseIf_ne_refuse fun _ _ => addrSum_ne_refuse hr _ _

theorem descAddr_ne_refuse (sel : Sel) (n : Nat) : descAddr s sel n ≠ .error (.refuse r) := by
  have htable : tableOf s sel ≠ .error (.refuse r) := by
    unfold tableOf
    split
    · split <;> simp
    · simp
  exact Chk.bind_ne_error raiseIf_ne_refuse fun _ _ => Chk.bind_ne_error htable fun _ _ =>
    Chk.bind_ne_error raiseIf_ne_refuse fun _ _ => addrSum_ne_refuse hr _ _

end

theorem resolveTarget_ne_selfSwitch (s : State) (sel : Sel) : resolveTarget s sel ≠ .error (.refuse .selfSwitch) := by
  refine Chk.bind_ne_error (descAddr_ne_refuse (by decide) _ _) fun _ _ => Chk.bind_ne_error (memRead8_ne_refuse (by decide) _) fun d _ => ?_
  cases classify d with
  | other => simp
  | tss t =>
    exact Chk.bind_ne_error raiseIf_ne_refuse fun _ _ => Chk.bind_ne_error raiseIf_ne_refuse fun _ _ => Chk.ok_ne_error
  | gate g =>
    exact Chk.bind_ne_error raiseIf_ne_refuse fun _ _ => Chk.bind_ne_error raiseIf_ne_refuse fun _ _ => Chk.ok_ne_error

/-- The tests on the incoming task are not refused as `SelfSwitch` when a global selector with the right busy flag is another task's. -/
theorem checkIncoming_ne_selfSwitch {k : DispatchKind} {sel : Sel} {tr : TaskReg} {s : State}
    (hother : selTI sel = false → (tssAt s sel).b = decide (k = .iret) → selIndex sel ≠ selIndex tr.sel) :
    checkIncoming k sel tr s ≠ .error (.refuse .selfSwitch) := by
  refine Chk.bind_ne_error raiseIf_ne_refuse fun _ hti => Chk.bind_ne_error (descAddr_ne_refuse (by decide) _ _) fun a ha =>
    Chk.bind_ne_error (memRead8_ne_refuse (by decide) _) fun d hd => ?_
  have hglobal : selTI sel = false := Bool.eq_false_of_not_eq_true (raiseIf_eq_ok.1 hti)
  have haddr : a = gdtSlot s sel := by
    obtain ⟨_, ⟨_, _, _, h⟩ | ⟨hlocal, _⟩⟩ := descAddr_eq_ok.1 ha
    · exact h
    · exact absurd hlocal (ne_true_of_eq_false hglobal)
  obtain ⟨_, rfl⟩ := memRead8_eq_ok.1 hd
  cases hc : classify (s.mem.read8 a) with
  | gate _ | other => simp
  | tss t =>
    obtain ⟨_, rfl⟩ := classify_eq_tss.1 hc
    have hbusy : checkIncomingBusy k sel (decodeTss32 (s.mem.read8 a)) ≠ .error (.refuse .selfSwitch) := by
      cases k <;> exact raiseIf_ne_refuse
    have hsep : checkSeparated s tr.base.toNat (decodeTss32 (s.mem.read8 a)).base.toNat ≠ .error (.refuse .selfSwitch) :=
      Chk.bind_ne_error (refuseIf_ne_other (by decide)) fun _ _ => refuseIf_ne_other (by decide)
    refine Chk.bind_ne_error (refuseIf_ne_other (by decide)) fun _ _ => Chk.bind_ne_error hbusy fun _ hb =>
      Chk.bind_ne_error raiseIf_ne_refuse fun _ _ => Chk.bind_ne_error raiseIf_ne_refuse fun _ _ =>
      Chk.bind_ne_error (refuseIf_ne_of_not ?self) fun _ _ => Chk.bind_ne_error hsep fun _ _ =>
      Chk.bind_ne_error (memRead2_ne_refuse (by decide) _) fun _ _ =>
      Chk.bind_ne_error (refuseIf_ne_other (by decide)) fun _ _ => Chk.ok_ne_error
    case self => exact hother hglobal (by rw [tssAt, ← haddr]; exact checkIncomingBusy_eq_ok.1 hb)

/-- A switch that asks for an available task is not one to the task's own, whose descriptor is busy by the invariant (R42, R81, R90). -/
theorem taskSwitch_ne_selfSwitch {s : State} (hi : Invariant s) (hm : s.cfg.mode = .protectedMode) {k : DispatchKind} (hk : k ≠ .iret)
    (sel : Sel) (next : Word) : taskSwitch k sel next s ≠ .error (.refuse .selfSwitch) := by
  cases htr : s.tr with
  | none => rw [taskSwitch_of_tr_none htr]; simp
  | some tr =>
    rw [taskSwitch, htr]
    refine Chk.bind_ne_error (refuseIf_ne_other (by decide)) fun _ _ => Chk.bind_ne_error (checkIncoming_ne_selfSwitch ?other) fun _ _ =>
      Chk.bind_ne_error (addrSum_ne_refuse (by decide) _ _) fun _ _ =>
      Chk.bind_ne_error (refuseIf_ne_other (by decide)) fun _ _ => Chk.ok_ne_error
    case other =>
      intro _ havail hsame
      have hslot : gdtSlot s sel = gdtSlot s tr.sel := by rw [gdtSlot, hsame, gdtSlot]
      have hbusy : (tssAt s sel).b = true := by rw [tssAt, hslot]; exact (hi.trCopy tr htr).bit41 hm
      rw [hbusy, decide_eq_false hk] at havail
      cases havail

section
variable {s : State} (hi : Invariant s)
include hi

/-- The pseudocode that JMP and CALL share is not refused as `SelfSwitch` (R74, R75). -/
theorem transfer_ne_selfSwitch {k : DispatchKind} (hk : k ≠ .iret) (i : Instr) (sel : Sel) :
    (refuseIf (s.cfg.mode = .long64) .longModeTransfer >>= fun _ => resolveTarget s sel >>= fun tssSel =>
      nextEip s i >>= fun next => taskSwitch k tssSel next s) ≠ .error (.refuse .selfSwitch) :=
  Chk.bind_ne_error (refuseIf_ne_other (by decide)) fun _ hm => Chk.bind_ne_error (resolveTarget_ne_selfSwitch s sel) fun _ _ =>
    Chk.bind_ne_error (nextEip_ne_refuse (by decide) _) fun _ _ =>
    taskSwitch_ne_selfSwitch hi (mode_ne_long64.1 (refuseIf_eq_ok.1 hm)) hk _ _

theorem dispatchVector_ne_selfSwitch (v : Nat) : dispatchVector v s ≠ .error (.refuse .selfSwitch) := by
  refine Chk.bind_ne_error (refuseIf_ne_other (by decide)) fun _ hm => Chk.bind_ne_error (idtAddr_ne_refuse (by decide) _) fun _ _ =>
    Chk.bind_ne_error (memRead8_ne_refuse (by decide) _) fun d _ => ?_
  cases classify d with
  | tss _ | other => simp
  | gate g =>
    exact Chk.bind_ne_error raiseIf_ne_refuse fun _ _ =>
      taskSwitch_ne_selfSwitch hi (mode_ne_long64.1 (refuseIf_eq_ok.1 hm)) (by decide) _ _

end

/-- Settles O56: before the switch nothing is refused as `SelfSwitch`, and the switch asks for an available task. -/
theorem selfSwitchOnlyByIret : Obligations.SelfSwitchOnlyByIret := by
  intro s hi
  refine ⟨fun sel off => ⟨fun h => ?_, fun h => ?_⟩, fun e => ?_⟩
  · exact transfer_ne_selfSwitch hi (by decide) _ sel (toOutcome_eq_refused.1 h)
  · exact transfer_ne_selfSwitch hi (by decide) _ sel (toOutcome_eq_refused.1 h)
  · cases e with
    | interrupt v => exact dispatchVector_ne_selfSwitch hi v
    | exception v => exact Chk.bind_ne_error (refuseIf_ne_other (by decide)) fun _ _ => dispatchVector_ne_selfSwitch hi v

end Sys2Proof.Machine
end

section
/-! PROOFS. A dispatch whose target resolves and whose switch is ready completes: JMP, CALL, IRET, events at a boundary, and a JMP or CALL
through a gate whatever the DPL of the destination's descriptor (R74 to R80, R98). -/

namespace Sys2Proof.Machine

/-! ### The parts of a committed switch -/

/-- A nesting switch loads EFLAGS with NT set (R83, R84). -/
theorem ntFlag_loadedEflags {k : DispatchKind} (hk : nests k = true) (e : Word) : ntFlag (loadedEflags k e) = true := by
  rw [loadedEflags, if_pos hk, ntFlag, setNT, BitVec.getLsbD_or, show ntMask.getLsbD 14 = true by decide, Bool.or_true]

/-- A nesting switch leaves the outgoing selector as the incoming link (R80 step 6). -/
theorem read2_switchMemory_link {k : DispatchKind} (hk : nests k = true) (tr : TaskReg) (next : Word) (o i nb : Nat) (s : State) :
    (switchMemory k tr next o i nb s).read2 nb = tr.sel := by
  simp only [switchMemory, hk, if_true]
  exact Memory.read2_write2_same _ _ _

/-! ### Completion -/

/-- Settles O24: the target resolves, the switch is ready, and what is committed is loaded from the incoming TSS. -/
theorem jmpCompletes : Obligations.JmpCompletes := fun _ _ _ tssSel tr hm he hreach hready =>
  ⟨_, execJmp_eq_next.2 ⟨hm, he, tssSel, hreach, taskSwitch_eq_ok.2 ⟨tr, hready, rfl⟩⟩, rfl, rfl, rfl⟩

/-- Settles O25: as JMP, and a CALL forces NT and writes the link. -/
theorem callCompletes : Obligations.CallCompletes := by
  intro s sel off tssSel tr hm he hreach hready
  refine ⟨_, execCall_eq_next.2 ⟨hm, he, tssSel, hreach, taskSwitch_eq_ok.2 ⟨tr, hready, rfl⟩⟩, rfl, rfl, rfl, ?_, ?_⟩
  · rw [commitSwitch_eflags, ntFlag_loadedEflags rfl]
  · rw [commitSwitch_mem, read2_switchMemory_link rfl]

/-- Settles O26: the switch goes to the task in the link. -/
theorem iretCompletes : Obligations.IretCompletes := fun _ tr hm he hnt hready =>
  ⟨_, execIret_eq_next.2 ⟨hm, he, hnt, tr, hready.loaded, taskSwitch_eq_ok.2 ⟨tr, hready, rfl⟩⟩, rfl, rfl, rfl⟩

/-! ### Events at a boundary -/

theorem gateInIdt_withOffers {s : State} {os : List (Option Event)} {v : Nat} {sel : Sel} (h : GateInIdt s v sel) :
    GateInIdt (s.withOffers os) v sel :=
  ⟨h.inTable, h.fits, h.isGate, h.present, h.names⟩

theorem switchReady_withOffers {s : State} {os : List (Option Event)} {k : DispatchKind} {sel : Sel} {tr : TaskReg}
    (h : SwitchReady k sel tr s) : SwitchReady k sel tr (s.withOffers os) :=
  ⟨h.loaded, h.noShadow, inGdt_withOffers.2 h.slot, h.isTss, h.zeros, h.busy, h.present, h.bigEnough, h.other, h.fit, h.apart, h.noTrap,
    h.outSlot, h.outBusy⟩

/-- Settles O27: the step takes the event, whose switch is ready with the offer used up, and the boundary EIP is saved. -/
theorem eventsAreTaken : Obligations.EventsAreTaken := by
  intro s e os tssSel tr hrun ho hm hd hg hready
  have htake : takeEvent e (s.withOffers os) = .ok _ :=
    takeEvent_eq_ok.2 ⟨hm, hd, tssSel, gateInIdt_withOffers hg, taskSwitch_eq_ok.2 ⟨tr, switchReady_withOffers hready, rfl⟩⟩
  have hswitch : SwitchRun .int s.eip (s.withOffers os) _ := ⟨⟨e, toOutcome_eq_next.2 htake⟩, rfl⟩
  obtain ⟨_, _, hsaved, _⟩ := hswitch.saved_loads hready.loaded
  refine ⟨_, by rw [step_of_event hrun ho, htake, toOutcome], rfl, rfl, rfl, ?_, hsaved⟩
  rw [commitSwitch_eflags, ntFlag_loadedEflags rfl]

/-! ### A gate hides the DPL of the TSS descriptor (R79) -/

/-- A lookup that finds two addresses finds one. -/
theorem slot_unique {s : State} {sel : Sel} {a a' : Nat} (h : (InGdt s sel 8 ∧ a = gdtSlot s sel) ∨ InLdt s sel a)
    (h' : (InGdt s sel 8 ∧ a' = gdtSlot s sel) ∨ InLdt s sel a') : a = a' := by
  have hfound : ∀ {b}, (InGdt s sel 8 ∧ b = gdtSlot s sel) ∨ InLdt s sel b → descAddr s sel 8 = .ok b := by
    rintro b (⟨hs, rfl⟩ | hs)
    · exact descAddr_of_inGdt (by decide) hs
    · exact descAddr_of_inLdt hs
  exact Except.ok.inj ((hfound h).symm.trans (hfound h'))

/-- A target reached from a gate is reached through it, and so in any memory in which the gate reads alike (R79). -/
theorem Reaches.through_gate {s : State} {sel tssSel : Sel} {a : Nat} (h : Reaches s sel tssSel)
    (hslot : (InGdt s sel 8 ∧ a = gdtSlot s sel) ∨ InLdt s sel a) (hg : drawnAsGate (s.mem.read8 a)) {m : Memory}
    (hm : m.read8 a = s.mem.read8 a) : Reaches (s.withMem m) sel ((s.mem.read8 a).extractLsb' 16 16) := by
  obtain ⟨hallowed, hpresent⟩ : max s.cpl.toNat (selRPL sel).toNat ≤ ((s.mem.read8 a).extractLsb' 45 2).toNat ∧
      (s.mem.read8 a).getLsbD 47 = true := by
    cases h with
    | direct hs ht _ =>
      have ha := slot_unique hslot (.inl ⟨hs, rfl⟩)
      exact absurd ht (ha ▸ not_tss_of_gate hg)
    | gate b hslot' _ hallowed hpresent =>
      have ha : a = b := slot_unique hslot hslot'
      exact ha ▸ ⟨hallowed, hpresent⟩
  have hslot' : (InGdt (s.withMem m) sel 8 ∧ a = gdtSlot (s.withMem m) sel) ∨ InLdt (s.withMem m) sel a :=
    hslot.imp (fun ⟨hs, ha⟩ => ⟨⟨hs.global, hs.notNull, hs.inTable, hs.fits⟩, ha⟩) fun hl => ⟨hl.localTable, hl.window, hl.fits⟩
  rw [← hm] at hg hallowed hpresent ⊢
  exact .gate a hslot' hg hallowed hpresent

/-- The GDT and the current LDT share no byte in a separated switch (R33). -/
theorem allApart_switchRanges_ldt {s : State} {ob nb : Nat} {w : LdtWindow} (h : allApart (switchRanges s ob nb) = true)
    (hw : ldtWindowOf s.cfg s.ldtr = some w) :
    s.cfg.gdtBase.toNat + s.cfg.gdtLimit.toNat < w.base.toNat ∨ w.base.toNat + w.limit < s.cfg.gdtBase.toNat := by
  simp only [switchRanges_eq, hw, Option.map_some, Option.toList_some, List.cons_append, List.nil_append, allApart, List.all_cons,
    Bool.and_eq_true, rangesApart, Bool.or_eq_true, decide_eq_true_eq] at h
  exact h.2.2.1.2.1

/-- A gate lies apart from the TSS descriptor of a ready switch: in another slot of the GDT, or in the LDT. -/
theorem SwitchReady.gate_apart {k : DispatchKind} {sel tssSel : Sel} {tr : TaskReg} {s : State} {a : Nat} (h : SwitchReady k tssSel tr s)
    (hslot : (InGdt s sel 8 ∧ a = gdtSlot s sel) ∨ InLdt s sel a) (hg : drawnAsGate (s.mem.read8 a)) :
    a + 8 ≤ gdtSlot s tssSel ∨ gdtSlot s tssSel + 8 ≤ a := by
  have hin := h.slot.inTable
  rcases hslot with ⟨_, ha⟩ | hldt
  · have hne : a ≠ gdtSlot s tssSel := fun he => not_tss_of_gate hg (he ▸ h.isTss)
    simp only [gdtSlot] at ha hne ⊢
    omega
  · obtain ⟨w, hw, hlim, ha⟩ := hldt.window
    have hapart := allApart_switchRanges_ldt h.apart hw
    simp only [gdtSlot]
    omega

section
variable {k : DispatchKind} {tssSel : Sel} {tr : TaskReg} {s : State} {b : Byte}

/-- A write to the byte of a descriptor that holds its DPL, changing the DPL alone, changes no other bit of the descriptor. -/
theorem getLsbD_read8_setDpl {m : Memory} {d : Nat} (hb : ∀ j, j < 8 → j ≠ 5 → j ≠ 6 → b.getLsbD j = (m.byte (d + 5)).getLsbD j) {i : Nat}
    (hi : i < 64) (h45 : i ≠ 45) (h46 : i ≠ 46) : ((m.setByte (d + 5) b).read8 d).getLsbD i = (m.read8 d).getLsbD i := by
  rw [Memory.getLsbD_read8 _ _ hi, Memory.getLsbD_read8 _ _ hi]
  by_cases h5 : i / 8 = 5
  · rw [h5, Memory.byte_setByte_same, hb _ (by omega) (by omega) (by omega)]
  · rw [Memory.byte_setByte_other _ _ (by omega)]

/-- Two descriptors that agree in every bit but the DPL decode alike but for the DPL. -/
theorem decodeTss32_of_agree_but_dpl {x y : BitVec 64} (h : ∀ i, i < 64 → i ≠ 45 → i ≠ 46 → x.getLsbD i = y.getLsbD i) :
    decodeTss32 x = { decodeTss32 y with dpl := (decodeTss32 x).dpl } := by
  have hfield : ∀ lo n, (lo + n ≤ 45 ∨ 47 ≤ lo) → x.extractLsb' lo n = y.extractLsb' lo n := fun lo n hln =>
    extractLsb'_congr fun i h1 h2 h3 => h i h3 (by omega) (by omega)
  have hbit : ∀ i, i < 64 → (i < 45 ∨ 46 < i) → x.getLsbD i = y.getLsbD i := fun i hi hn => h i hi (by omega) (by omega)
  simp only [decodeTss32, hfield 56 8 (by omega), hfield 32 8 (by omega), hfield 16 16 (by omega), hfield 48 4 (by omega),
    hfield 0 16 (by omega), hfield 40 4 (by omega), hbit 55 (by omega) (by omega), hbit 54 (by omega) (by omega),
    hbit 53 (by omega) (by omega), hbit 52 (by omega) (by omega), hbit 47 (by omega) (by omega), hbit 44 (by omega) (by omega),
    hbit 41 (by omega) (by omega)]

/-- A ready switch is ready in any memory in which the incoming descriptor is the same but for its DPL, and the T bit too. -/
theorem SwitchReady.of_agree_but_dpl (h : SwitchReady k tssSel tr s) {m : Memory}
    (hdesc : ∀ i, i < 64 → i ≠ 45 → i ≠ 46 → (m.read8 (gdtSlot s tssSel)).getLsbD i = (s.mem.read8 (gdtSlot s tssSel)).getLsbD i)
    (hrow : m.read2 ((tssAt s tssSel).base.toNat + 100) = s.mem.read2 ((tssAt s tssSel).base.toNat + 100)) :
    SwitchReady k tssSel tr (s.withMem m) := by
  have htss : tssAt (s.withMem m) tssSel = { tssAt s tssSel with dpl := (tssAt (s.withMem m) tssSel).dpl } :=
    decodeTss32_of_agree_but_dpl hdesc
  have hbase : (tssAt (s.withMem m) tssSel).base = (tssAt s tssSel).base := by rw [htss]
  have h54 : (tssAt (s.withMem m) tssSel).z54 = (tssAt s tssSel).z54 := by rw [htss]
  have h53 : (tssAt (s.withMem m) tssSel).z53 = (tssAt s tssSel).z53 := by rw [htss]
  have hb : (tssAt (s.withMem m) tssSel).b = (tssAt s tssSel).b := by rw [htss]
  have hp : (tssAt (s.withMem m) tssSel).p = (tssAt s tssSel).p := by rw [htss]
  have hlimit : effLimit (tssAt (s.withMem m) tssSel) = effLimit (tssAt s tssSel) := by
    rw [htss, effLimit, effLimit]
  have hdrawn : drawnAsTss (m.read8 (gdtSlot s tssSel)) := by
    unfold drawnAsTss
    rw [hdesc 44 (by omega) (by omega) (by omega), hdesc 43 (by omega) (by omega) (by omega), hdesc 42 (by omega) (by omega) (by omega),
      hdesc 40 (by omega) (by omega) (by omega)]
    exact h.isTss
  refine ⟨h.loaded, h.noShadow, ⟨h.slot.global, h.slot.notNull, h.slot.inTable, h.slot.fits⟩, hdrawn,
    ⟨h54.trans h.zeros.1, h53.trans h.zeros.2⟩, hb.trans h.busy, hp.trans h.present, ?_, h.other, ?_, ?_, ?_, h.outSlot, h.outBusy⟩
  · rw [hlimit]; exact h.bigEnough
  · rw [hbase]; exact h.fit
  · rw [hbase]; exact h.apart
  · rw [hbase, State.withMem_mem, hrow]; exact h.noTrap

end

/-- Settles O30: the gate is read as before, and the switch is ready whatever the DPL of the descriptor. -/
theorem gateHidesTheTssDpl : Obligations.GateHidesTheTssDpl := by
  intro s sel off a tr k b tssSel s' i hk hslot hg hreach hready hm he hb
  have hother : ∀ x, x ≠ gdtSlot s tssSel + 5 → (s.mem.setByte (gdtSlot s tssSel + 5) b).byte x = s.mem.byte x :=
    fun x => Memory.byte_setByte_other _ _
  have hgate : (s.mem.setByte (gdtSlot s tssSel + 5) b).read8 a = s.mem.read8 a := by
    have hapart := hready.gate_apart hslot hg
    exact Memory.read8_congr fun x h1 h2 => hother x (by omega)
  have hrow : (s.mem.setByte (gdtSlot s tssSel + 5) b).read2 ((tssAt s tssSel).base.toNat + 100) =
      s.mem.read2 ((tssAt s tssSel).base.toNat + 100) := by
    obtain ⟨_, _, hapart, _⟩ := hready.geometry
    exact Memory.read2_congr fun x h1 h2 => hother x (by omega)
  have hready' : SwitchReady k tssSel tr s' := hready.of_agree_but_dpl (fun _ => getLsbD_read8_setDpl hb) hrow
  have hreach' : Reaches s' sel tssSel := hreach.through_gate hslot hg hgate
  rcases hk with rfl | rfl
  · obtain ⟨t, ht, _⟩ := jmpCompletes s' sel off tssSel tr hm he hreach' hready'
    exact ⟨t, ht⟩
  · obtain ⟨t, ht, _⟩ := callCompletes s' sel off tssSel tr hm he hreach' hready'
    exact ⟨t, ht⟩

end Sys2Proof.Machine
end

section
/-! PROOFS. What a task switch saves, loads and leaves alone, its table of busy flags, NT and link, and the return from a nested task
(R82 to R87, R89, R99, R100). -/

namespace Sys2Proof.Machine

/-! ### The EFLAGS images (R83) -/

theorem savedEflags_eq (k : DispatchKind) (e : Word) : savedEflags k e = if k = .iret then e &&& ~~~0x00004000 else e := by
  cases k <;> rfl

theorem loadedEflags_eq (k : DispatchKind) (e : Word) : loadedEflags k e = if k = .call ∨ k = .int then e ||| 0x00004000 else e := by
  cases k <;> rfl

theorem nests_eq (k : DispatchKind) : nests k = decide (k = .call ∨ k = .int) := by cases k <;> rfl

theorem getLsbD_loadedEflags_nt (k : DispatchKind) (e : Word) : (loadedEflags k e).getLsbD 14 = (nests k || e.getLsbD 14) := by
  cases hk : nests k with
  | true => exact ntFlag_loadedEflags hk e
  | false => rw [loadedEflags, hk, if_neg Bool.false_ne_true, Bool.false_or]

theorem getLsbD_savedEflags_nt (k : DispatchKind) (e : Word) : (savedEflags k e).getLsbD 14 = (e.getLsbD 14 && decide (k ≠ .iret)) := by
  cases k with
  | iret => rw [savedEflags, clearNT, BitVec.getLsbD_and, show (~~~ntMask).getLsbD 14 = false by decide]; rfl
  | jmp | call | int => exact (Bool.and_true _).symm

/-! ### What is loaded (R84 to R86) -/

/-- Settles O37: a committed switch loads its context from the memory it leaves. -/
theorem incomingContextIsLoaded : Obligations.IncomingContextIsLoaded := by
  intro k next s t h
  obtain ⟨_, sel, tr, _, rfl⟩ := h.cases
  refine ⟨taskRegOf sel (tssAt s sel), rfl, rfl, rfl, ?_, rfl, rfl, rfl, rfl, rfl⟩
  rw [commitSwitch_eflags, loadedEflags_eq]
  rfl

/-- Settles O41: the bytes of `switchWrites` are the only ones written, and the other components are no destinations. -/
theorem switchFrame : Obligations.SwitchFrame := by
  intro k next s t h
  obtain ⟨_, sel, tr, hr, rfl⟩ := h.cases
  refine ⟨tr, taskRegOf sel (tssAt s sel), hr.loaded, rfl, fun _ hx => byte_committed_other hx next, rfl, rfl, rfl, rfl, rfl, fun hp => ?_⟩
  rw [commitSwitch_cr3, hp, if_neg Bool.false_ne_true]

/-- The static rows of the TSS that a switch leaves, or of the one it enters, are not written (R37). -/
theorem SwitchRun.byte_static {k : DispatchKind} {next : Word} {s t : State} {r : TaskReg} {x : Nat} (h : SwitchRun k next s t)
    (hi : Invariant s) (hr : s.tr = some r ∨ t.tr = some r)
    (hx : (r.base.toNat + 4 ≤ x ∧ x < r.base.toNat + 32) ∨ (r.base.toNat + 94 ≤ x ∧ x < r.base.toNat + 104)) :
    t.mem.byte x = s.mem.byte x := by
  obtain ⟨hm, sel, tr, hready, rfl⟩ := h.cases
  have hb : r.base.toNat = tr.base.toNat ∨ r.base.toNat = (tssAt s sel).base.toNat := by
    rcases hr with hr | hr
    · exact .inl (congrArg (·.base.toNat) (Option.some.inj (hr.symm.trans hready.loaded)))
    · exact .inr (congrArg (·.base.toNat) (Option.some.inj hr).symm)
  exact hready.byte_static hi hm hb hx next

/-- The LDT selector and the directory base of either TSS are static fields (R35, R37). -/
theorem SwitchRun.read_static {k : DispatchKind} {next : Word} {s t : State} {r : TaskReg} (h : SwitchRun k next s t)
    (hi : Invariant s) (hr : s.tr = some r ∨ t.tr = some r) :
    t.mem.read2 (r.base.toNat + 96) = s.mem.read2 (r.base.toNat + 96) ∧ t.mem.read4 (r.base.toNat + 28) = s.mem.read4 (r.base.toNat + 28) :=
  ⟨Memory.read2_congr fun _ h1 h2 => h.byte_static hi hr (by omega), Memory.read4_congr fun _ h1 h2 => h.byte_static hi hr (by omega)⟩

/-- Settles O40: CR3 is loaded from the memory the switch leaves, and the directory base is a static field of both TSSs. -/
theorem cr3OnSwitch : Obligations.Cr3OnSwitch := by
  intro k next s t hi h
  obtain ⟨_, _, tr, hready, _⟩ := h.cases
  obtain ⟨v, hv, hcr3, _⟩ := incomingContextIsLoaded k next s t h
  refine ⟨tr, v, hready.loaded, hv, fun hp => ?_, fun hp => ?_, (h.read_static hi (.inl hready.loaded)).2⟩
  · rw [hcr3, hp, if_pos rfl, (h.read_static hi (.inr hv)).2]
  · rw [hcr3, hp, if_neg Bool.false_ne_true]

/-! ### What is saved (R82) -/

/-- Settles O36: what was saved reads back, and of the outgoing TSS no other byte is written. -/
theorem outgoingContextIsSaved : Obligations.OutgoingContextIsSaved := by
  intro k next s t hi h
  obtain ⟨hm, sel, tr, hr, ht⟩ := h.cases
  obtain ⟨hgprs, hsegs, heip, heflags, _⟩ := h.saved_loads hr.loaded
  refine ⟨tr, hr.loaded, heip, heflags.trans (savedEflags_eq k _), congrArg Gprs.eax hgprs, congrArg Gprs.ecx hgprs, congrArg Gprs.edx hgprs,
    congrArg Gprs.ebx hgprs, congrArg Gprs.esp hgprs, congrArg Gprs.ebp hgprs, congrArg Gprs.esi hgprs, congrArg Gprs.edi hgprs,
    congrArg SegRegs.es hsegs, congrArg SegRegs.cs hsegs, congrArg SegRegs.ss hsegs, congrArg SegRegs.ds hsegs, congrArg SegRegs.fs hsegs,
    congrArg SegRegs.gs hsegs, fun x h1 h2 hx => ?_, fun v x hv h1 h2 hx => ?_⟩
  · rw [ht]
    exact hr.byte_outgoing_tss hi hm h1 h2 hx
  · subst ht
    obtain rfl : taskRegOf sel (tssAt s sel) = v := Option.some.inj hv
    exact byte_committed_other (not_or.2 ⟨hr.sspRow_not_dynamic (.inl rfl) h1 h2, hx⟩) next

/-! ### Busy flags, NT and link (R83) -/

/-- Settles O38: the descriptors bit by bit, NT by the EFLAGS images, and the links among the bytes that are or are not written. -/
theorem busyNtAndLinkTable : Obligations.BusyNtAndLinkTable := by
  intro k next s t hi h
  obtain ⟨hm, sel, tr, hr, ht⟩ := h.cases
  obtain ⟨_, _, _, heflags, _⟩ := h.saved_loads hr.loaded
  subst ht
  refine ⟨tr, taskRegOf sel (tssAt s sel), hr.loaded, rfl, ⟨hr.busy, ?inBusy⟩, ?outBusy, ?ntLoaded, ?ntSaved, ?inLink, ?outLink⟩
  case inBusy => exact (hr.bit_incoming_desc (by decide)).trans (Bool.or_true _)
  case outBusy =>
    rw [commitSwitch_mem, hr.bit_outgoing_desc hi hm (by decide), (hi.trCopy tr hr.loaded).bit41 hm, nests_eq]
    rfl
  case ntLoaded =>
    have hrow : (switchMemory k tr next (gdtSlot s tr.sel) (gdtSlot s sel) (tssAt s sel).base.toNat s).read4 ((tssAt s sel).base.toNat + 36) =
        s.mem.read4 ((tssAt s sel).base.toNat + 36) :=
      Memory.read4_congr fun x h1 h2 => hr.byte_incoming_tss hi hm (by omega) (by omega) fun _ => by omega
    rw [commitSwitch_eflags, getLsbD_loadedEflags_nt, hrow, nests_eq]
    rfl
  case ntSaved => rw [heflags, getLsbD_savedEflags_nt]
  case inLink =>
    show (switchMemory k tr next _ _ (tssAt s sel).base.toNat s).read2 (tssAt s sel).base.toNat = _
    cases hk : nests k with
    | true =>
      rw [nests_eq, decide_eq_true_iff] at hk
      rw [if_pos hk, read2_switchMemory_link (by rw [nests_eq, decide_eq_true hk])]
    | false =>
      rw [if_neg (by rwa [nests_eq, decide_eq_false_iff_not] at hk)]
      exact Memory.read2_congr fun x h1 h2 => hr.byte_incoming_tss hi hm h1 (by omega) fun hn => absurd hn (ne_true_of_eq_false hk)
  case outLink => exact Memory.read2_congr fun x h1 h2 => hr.byte_outgoing_tss hi hm h1 (by omega) (not_dynamicByte (by omega))

/-! ### The task register (R85) -/

/-- A JMP or CALL that goes on loads TR with the selector it reaches. -/
theorem tr_of_transfer {k : DispatchKind} {sel : Sel} {off : Word} {s t : State} (hk : k = .jmp ∨ k = .call)
    (h : exec (if k = .jmp then .jmp sel off else .call sel off) s = .next t) : ∃ v, t.tr = some v ∧ Reaches s sel v.sel := by
  obtain ⟨tssSel, next, hreach, hswitch⟩ : ∃ tssSel next, Reaches s sel tssSel ∧ taskSwitch k tssSel next s = .ok t := by
    rcases hk with rfl | rfl
    · obtain ⟨_, _, tssSel, hreach, hswitch⟩ := execJmp_eq_next.1 h
      exact ⟨tssSel, _, hreach, hswitch⟩
    · obtain ⟨_, _, tssSel, hreach, hswitch⟩ := execCall_eq_next.1 h
      exact ⟨tssSel, _, hreach, hswitch⟩
  obtain ⟨_, _, rfl⟩ := taskSwitch_eq_ok.1 hswitch
  exact ⟨_, rfl, hreach⟩

/-- Settles O39: TR is loaded from the incoming descriptor, whose selector a JMP or CALL reaches. -/
theorem taskRegisterAfterSwitch : Obligations.TaskRegisterAfterSwitch := by
  intro k next s t hi h
  refine ⟨?_, fun sel off hk => tr_of_transfer hk, fun tr x htr h1 h2 hx => ?_⟩
  · obtain ⟨_, sel, _, _, rfl⟩ := h.cases
    exact ⟨_, rfl, rfl⟩
  · obtain ⟨hm, sel, tr', hr, rfl⟩ := h.cases
    obtain rfl : tr = tr' := Option.some.inj (htr.symm.trans hr.loaded)
    exact hr.byte_outgoing_tss hi hm h1 h2 hx

/-! ### A task resumed (R87) -/

/-- A task switched out, and switched in again from a TSS as it was left, has what was saved: registers, selectors, EIP and the EFLAGS image. -/
theorem SwitchRun.resumed {k l : DispatchKind} {next next' : Word} {s t u w : State} {tr v : TaskReg} (hout : SwitchRun k next s t)
    (htr : s.tr = some tr) (hkept : ∀ x, tr.base.toNat ≤ x → x ≤ tr.base.toNat + 103 → u.mem.byte x = t.mem.byte x) (hi : Invariant u)
    (hin : SwitchRun l next' u w) (hv : w.tr = some v) (hbase : v.base = tr.base) :
    w.gprs = s.gprs ∧ w.segs = s.segs ∧ w.eip = next ∧ w.eflags = loadedEflags l (savedEflags k s.eflags) := by
  obtain ⟨hgprs, hsegs, heip, heflags, _⟩ := hout.saved_loads htr
  obtain ⟨hm, sel, tr', hr, rfl⟩ := hin.cases
  have hnb : (tssAt u sel).base = tr.base := (congrArg TaskReg.base (Option.some.inj hv)).trans hbase
  obtain ⟨hg, hs, he, hf, _⟩ := loads_congr (b := tr.base.toNat) (m' := t.mem)
    (m := switchMemory l tr' next' (gdtSlot u tr'.sel) (gdtSlot u sel) (tssAt u sel).base.toNat u) fun x h1 h2 =>
      (hr.byte_incoming_tss hi hm (by rw [hnb]; omega) (by rw [hnb]; omega) fun _ => by rw [hnb]; omega).trans (hkept x (by omega) h2)
  rw [commitSwitch_gprs, commitSwitch_segs, commitSwitch_eip, commitSwitch_eflags, hnb]
  rw [hnb] at hg hs he hf
  exact ⟨hg.trans hgprs, hs.trans hsegs, he.trans heip, congrArg (loadedEflags l) (hf.trans heflags)⟩

/-- Settles O43: NT apart, the EFLAGS image is saved and loaded as it is. -/
theorem resumedTaskFindsItsContext : Obligations.ResumedTaskFindsItsContext := by
  intro k l next next' s t u w tr v hout htr hkept hi hin hv hbase
  obtain ⟨hgprs, hsegs, heip, heflags⟩ := hout.resumed htr hkept hi hin hv hbase
  exact ⟨hgprs, hsegs, heip, fun i hne => by rw [heflags, getLsbD_loadedEflags hne, getLsbD_savedEflags hne]⟩

/-! ### The return from a nested task (R99, R100) -/

theorem gdtSlot_of_cfg {s t : State} (h : t.cfg = s.cfg) (sel : Sel) : gdtSlot t sel = gdtSlot s sel := by rw [gdtSlot, h, gdtSlot]

/-- A nesting switch leaves the outgoing descriptor as it was, busy (R83). -/
theorem SwitchReady.tssAt_outgoing {k : DispatchKind} {sel : Sel} {tr : TaskReg} {s : State} (hr : SwitchReady k sel tr s) (hi : Invariant s)
    (hm : s.cfg.mode = .protectedMode) (hk : nests k = true) (next : Word) :
    tssAt (commitSwitch k sel tr next (gdtSlot s tr.sel) (gdtSlot s sel) (tssAt s sel) s) tr.sel = tssAt s tr.sel := by
  refine congrArg decodeTss32 (BitVec.eq_of_getLsbD_eq fun i hlt => (hr.bit_outgoing_desc hi hm hlt).trans ?_)
  rw [hk, Bool.or_true, Bool.and_true]

/-- An IRET at once from a nested task goes back to the task register of the calling task. -/
theorem SwitchRun.tr_of_return {k : DispatchKind} {next : Word} {s t u : State} {tr : TaskReg} (hk : nests k = true) (hi : Invariant s)
    (hout : SwitchRun k next s t) (htr : s.tr = some tr) (hret : exec .iret t = .next u) : u.tr = some tr := by
  obtain ⟨hm, sel, tr', hr, rfl⟩ := hout.cases
  obtain rfl : tr = tr' := Option.some.inj (htr.symm.trans hr.loaded)
  obtain ⟨_, _, _, v, hv, hswitch⟩ := execIret_eq_next.1 hret
  obtain rfl : taskRegOf sel (tssAt s sel) = v := Option.some.inj hv
  rw [commitSwitch_mem, taskRegOf, read2_switchMemory_link hk] at hswitch
  obtain ⟨_, _, rfl⟩ := taskSwitch_eq_ok.1 hswitch
  have hcopied : taskRegOf tr.sel (tssAt s tr.sel) = tr := by
    have hcopy := (hi.trCopy tr htr).copied
    rwa [modeTssAt_of_protected hm] at hcopy
  rw [commitSwitch_tr, hr.tssAt_outgoing hi hm hk, hcopied]

/-- Settles O44: the IRET is a switch back to the interrupted task, which is resumed from its TSS as the first switch left it. -/
theorem nestedDispatchReturns : Obligations.NestedDispatchReturns := by
  intro k next s t u hk hi hout hret
  have hnests : nests k = true := by rw [nests_eq, decide_eq_true hk]
  have hin : SwitchRun .iret (t.eipAfter .iret) t u := ⟨hret, rfl⟩
  have hti : Invariant t := hout.keeps_invariant hi
  have hui : Invariant u := hin.keeps_invariant hti
  obtain ⟨hcfg, _, hssp⟩ := hout.keeps
  obtain ⟨_, _, hssp'⟩ := hin.keeps
  obtain ⟨_, _, tr, hready, _⟩ := hout.cases
  have htr : u.tr = some tr := hout.tr_of_return hnests hi hready.loaded hret
  obtain ⟨hgprs, hsegs, heip, heflags⟩ := hout.resumed hready.loaded (fun _ _ _ => rfl) hti hin htr rfl
  obtain ⟨v, w, hv, hw, ⟨_, hbusy⟩, havail, _, hnt, _, _⟩ := busyNtAndLinkTable _ _ _ _ hti hin
  obtain rfl : tr = w := Option.some.inj (htr.symm.trans hw)
  obtain ⟨_, _, hresume, _⟩ := hin.saved_loads hv
  rw [gdtSlot_of_cfg hcfg] at hbusy havail
  refine ⟨hgprs, hsegs, heip, ?eflags, ?cpl, htr.trans hready.loaded.symm, hssp'.trans hssp, tr, v, hready.loaded, hv, ?ldtr, ?cr3, havail, hbusy,
    ?nt, hresume⟩
  case eflags => rcases hk with rfl | rfl <;> exact heflags
  case cpl => rw [hui.cplOfCs, hsegs, hi.cplOfCs]
  case nt => rw [hnt]; exact Bool.and_false _
  case ldtr =>
    obtain ⟨r, hr, _, hldtr, _⟩ := incomingContextIsLoaded _ _ _ _ hin
    obtain rfl : tr = r := Option.some.inj (htr.symm.trans hr)
    rw [hldtr, (hin.read_static hti (.inr htr)).1, (hout.read_static hi (.inl hready.loaded)).1]
  case cr3 =>
    obtain ⟨_, r, _, hr, hload, hkeep, _⟩ := cr3OnSwitch _ _ _ _ hti hin
    obtain rfl : tr = r := Option.some.inj (htr.symm.trans hr)
    cases hp : s.cfg.pagingEnabled with
    | true => rw [hload (hcfg ▸ hp), (hout.read_static hi (.inl hready.loaded)).2, if_pos rfl]
    | false =>
      obtain ⟨_, _, _, _, _, hkeep', _⟩ := cr3OnSwitch _ _ _ _ hi hout
      rw [hkeep (hcfg ▸ hp), hkeep' hp, if_neg Bool.false_ne_true]

end Sys2Proof.Machine
end

section
/-! PROOFS. The CPL is loaded by a task switch, from the CS field of the incoming TSS, and by nothing else (R19, R84, R101). -/

namespace Sys2Proof.Machine

/-- LTR writes memory, TR and EIP, and not the CPL (R69, R70). -/
theorem execLtr_keeps_cpl {r : Reg} {s t : State} (h : execLtr r s = .next t) : t.cpl = s.cpl := by
  obtain ⟨_, rfl⟩ := execLtr_eq_next.1 h
  rfl

/-- A switch loads the CPL from the incoming CS field as it was before the switch, which writes no such byte (R82, R84). -/
theorem SwitchRun.cpl_of_incoming_cs {k : DispatchKind} {next : Word} {s t : State} (hi : Invariant s) (h : SwitchRun k next s t) :
    ∃ v, t.tr = some v ∧ t.cpl = cplOf (s.mem.read2 (v.base.toNat + 76)) := by
  obtain ⟨hm, sel, tr, hr, rfl⟩ := h.cases
  refine ⟨taskRegOf sel (tssAt s sel), rfl, ?_⟩
  rw [commitSwitch_cpl]
  exact congrArg cplOf (Memory.read2_congr fun x h1 h2 => hr.byte_incoming_tss hi hm (by omega) (by omega) fun _ => by omega)

/-- Settles O54: of what a step can do, resting and LTR keep the CPL, and a task switch loads it from the incoming CS field. -/
theorem cplChangesOnlyBySwitch : Obligations.CplChangesOnlyBySwitch := by
  intro s t hi h hne
  rcases step_cases h with ⟨_, rfl⟩ | ⟨_, _, hltr⟩ | ⟨k, next, _, hrun⟩
  · exact absurd rfl hne
  · exact absurd (execLtr_keeps_cpl hltr) hne
  · obtain ⟨v, hv, hcpl⟩ := hrun.cpl_of_incoming_cs (invariant_withOffers.2 hi)
    rw [State.withOffers_mem, cplOf] at hcpl
    exact ⟨⟨k, next, hrun⟩, v, hv, hcpl⟩

end Sys2Proof.Machine
end

section
/-! PROOFS. Final states stay, a step that goes on leaves the mark running, and the launch premises that every run of the model meets
(R24, R25, R26, R96, R110, R113; log 7, log 8). -/

namespace Sys2Proof.Machine

/-! ### The outcome mark (R26, R113) -/

theorem execLtr_keeps_outcome {r : Reg} {s t : State} (h : execLtr r s = .next t) : t.outcome = s.outcome := by
  obtain ⟨_, rfl⟩ := execLtr_eq_next.1 h
  rfl

theorem SwitchRun.keeps_outcome {k : DispatchKind} {next : Word} {s t : State} (h : SwitchRun k next s t) : t.outcome = s.outcome := by
  obtain ⟨_, _, _, _, rfl⟩ := h.cases
  rfl

/-- A step goes on from a running state only, and no rule writes the mark. -/
theorem step_leaves_running {s t : State} (h : step s = .next t) : t.outcome = .running := by
  have hrun : s.outcome = .running := (step_eq_next.1 h).1
  rcases step_cases h with ⟨_, rfl⟩ | ⟨_, _, hltr⟩ | ⟨_, _, _, hswitch⟩
  · exact hrun
  · exact (execLtr_keeps_outcome hltr).trans hrun
  · exact hswitch.keeps_outcome.trans hrun

theorem advanceN_of_final {s : State} (h : Final s) (n : Nat) : advanceN n s = s :=
  advanceN_induction (p := (· = s)) rfl (by rintro _ rfl; exact advance_of_next (step_of_final h)) n

/-- Settles O10: a final state answers itself, so a run from it stays; of what a step can do, nothing writes the mark. -/
theorem finalStatesStay : Obligations.FinalStatesStay :=
  ⟨fun _ n h => ⟨step_of_final h, advanceN_of_final h n⟩, fun _ _ => step_leaves_running⟩

/-! ### The launch premises (R110) -/

theorem modeFixed (n : Nat) (s : State) : ModeFixed n s := fun j _ => by
  rw [(advanceN_keeps j s).1]
  exact ⟨rfl, rfl, rfl⟩

theorem tablesFixed (n : Nat) (s : State) : TablesFixed n s := fun j _ => by
  rw [(advanceN_keeps j s).1]
  exact ⟨rfl, rfl, rfl, rfl, rfl⟩

/-- The boundaries of a run of the model are a history in which only the processor's step changes memory. -/
theorem noOtherWriters_advanceN (n : Nat) (s : State) : NoOtherWriters (fun j => advanceN j s) n := fun j _ =>
  congrArg State.mem (advanceN_succ j s)

/-- No event in the list of offers, and no event at any boundary, are the same: beyond the list nothing is offered (log 7). -/
theorem noEvents_iff (s : State) : NoEvents s ↔ EnvAssumption (fun _ o => o = none) s := by
  constructor
  · intro h j
    by_cases hj : j < s.offers.length
    · rw [offerAt, List.getD_eq_getElem _ _ hj]
      exact h _ (List.getElem_mem hj)
    · exact offerAt_of_length_le (Nat.le_of_not_lt hj)
  · intro h o ho
    obtain ⟨j, hj, rfl⟩ := List.mem_iff_getElem.1 ho
    have hoffer := h j
    rwa [offerAt, List.getD_eq_getElem _ _ hj] at hoffer

/-- Settles O52: a run keeps the parameters and the program text, is its own history, and beyond the list of offers nothing is offered. -/
theorem premisesTheModelMeets : Obligations.PremisesTheModelMeets := fun n s =>
  ⟨modeFixed n s, tablesFixed n s, fun j _ => (advanceN_keeps j s).2, noOtherWriters_advanceN n s, fun hp _ => .inl hp, noEvents_iff s,
    fun _ henv j hj => offerAt_of_length_le hj ▸ henv j⟩

end Sys2Proof.Machine
end

section
/-! PROOFS. The order of initialisation: LTR of the initial task, then a JMP to the second task (R69, R74, R109). -/

namespace Sys2Proof.Machine

theorem switchReady_withEip {s : State} {k : DispatchKind} {sel : Sel} {tr : TaskReg} (h : SwitchReady k sel tr s) (e : Word) :
    SwitchReady k sel tr (s.withEip e) :=
  ⟨h.loaded, h.noShadow, ⟨h.slot.global, h.slot.notNull, h.slot.inTable, h.slot.fits⟩, h.isTss, h.zeros, h.busy, h.present, h.bigEnough,
    h.other, h.fit, h.apart, h.noTrap, h.outSlot, h.outBusy⟩

/-! ### The write of LTR beside the switch after it -/

section
variable {k : DispatchKind} {sel : Sel} {tr : TaskReg} {s : State} (h : SwitchReady k sel tr s)
include h

/-- The busy byte of the outgoing task's descriptor is not in the slot of the incoming task's. -/
theorem SwitchReady.read8_setBusy_outgoing : (setBusy s.mem (gdtSlot s tr.sel)).read8 (gdtSlot s sel) = s.mem.read8 (gdtSlot s sel) := by
  obtain ⟨_, _, _, hslots⟩ := h.geometry
  exact Memory.read8_congr fun x h1 h2 => byte_setBusy_other _ (by omega)

section
variable (hin : 8 * selIndex tr.sel + 7 ≤ s.cfg.gdtLimit.toNat)
include hin

/-- An outgoing descriptor within the GDT limit is apart from the incoming TSS (R33). -/
theorem SwitchReady.busyByte_not_incoming {x : Nat} (h1 : (tssAt s sel).base.toNat ≤ x) (h2 : x ≤ (tssAt s sel).base.toNat + 103) :
    x ≠ gdtSlot s tr.sel + 5 := by
  obtain ⟨_, _, hgdt⟩ := allApart_switchRanges h.apart
  rw [gdtSlot]
  omega

theorem SwitchReady.byte_setBusy_outgoing {x : Nat} (h1 : (tssAt s sel).base.toNat ≤ x) (h2 : x ≤ (tssAt s sel).base.toNat + 103) :
    (setBusy s.mem (gdtSlot s tr.sel)).byte x = s.mem.byte x :=
  byte_setBusy_other _ (h.busyByte_not_incoming hin h1 h2)

/-- A switch that is ready is ready once its outgoing task is marked busy. -/
theorem SwitchReady.setBusy_outgoing : SwitchReady k sel tr (s.withMem (setBusy s.mem (gdtSlot s tr.sel))) :=
  h.of_agree_but_dpl (fun _ _ _ _ => by rw [h.read8_setBusy_outgoing])
    (Memory.read2_congr fun x h1 h2 => h.byte_setBusy_outgoing hin (by omega) (by omega))

/-- A ready switch starts the incoming task at the EIP field of its TSS as it was before the switch (R84). -/
theorem SwitchReady.eip_committed (next : Word) :
    (commitSwitch k sel tr next (gdtSlot s tr.sel) (gdtSlot s sel) (tssAt s sel) s).eip = s.mem.read4 ((tssAt s sel).base.toNat + 32) := by
  rw [commitSwitch_eip]
  exact Memory.read4_congr fun x h1 h2 => h.byte_incoming (by omega) (by omega) fun _ => h.busyByte_not_incoming hin (by omega) (by omega)

end

end

/-! ### LTR, then JMP -/

/-- A ready JMP saves its next EIP in the outgoing TSS and starts the incoming task at the EIP in its TSS. -/
theorem exec_jmp_of_ready {s : State} {sel : Sel} {off : Word} {tr : TaskReg} (hreach : Reaches s sel sel) (hready : SwitchReady .jmp sel tr s)
    (hm : s.cfg.mode = .protectedMode) (he : s.eip.toNat + s.lenOf (.jmp sel off) < 2 ^ 32)
    (hin : 8 * selIndex tr.sel + 7 ≤ s.cfg.gdtLimit.toNat) :
    ∃ u, exec (.jmp sel off) s = .next u ∧ u.tr = some (taskRegOf sel (tssAt s sel)) ∧
      u.eip = s.mem.read4 ((tssAt s sel).base.toNat + 32) ∧ u.mem.read4 (tr.base.toNat + 32) = s.eipAfter (.jmp sel off) := by
  have hexec : exec (.jmp sel off) s = .next _ :=
    execJmp_eq_next.2 ⟨hm, he, sel, hreach, taskSwitch_eq_ok.2 ⟨tr, hready, rfl⟩⟩
  have hrun : SwitchRun .jmp (s.eipAfter (.jmp sel off)) s _ := ⟨sel, off, hexec, rfl⟩
  obtain ⟨_, _, hsaved, _⟩ := hrun.saved_loads hready.loaded
  exact ⟨_, hexec, rfl, hready.eip_committed hin _, hsaved⟩

/-- With the task register loaded at CPL 0, a JMP to a task whose switch is ready completes also when the current task's descriptor is marked busy:
the byte is neither in the second task's descriptor nor in its TSS. -/
theorem exec_jmp_of_ready_before_busy {s : State} {sel : Sel} {off : Word} {tr : TaskReg} (hm : s.cfg.mode = .protectedMode) (hcpl : s.cpl = 0)
    (he : s.eip.toNat + s.lenOf (.jmp sel off) < 2 ^ 32) (hready : SwitchReady .jmp sel tr s)
    (hrpl : (selRPL sel).toNat ≤ ((s.mem.read8 (gdtSlot s sel)).extractLsb' 45 2).toNat) (hin : 8 * selIndex tr.sel + 7 ≤ s.cfg.gdtLimit.toNat) :
    ∃ u, exec (.jmp sel off) (s.withMem (setBusy s.mem (gdtSlot s tr.sel))) = .next u ∧ u.tr = some (taskRegOf sel (tssAt s sel)) ∧
      u.eip = s.mem.read4 ((tssAt s sel).base.toNat + 32) ∧ u.mem.read4 (tr.base.toNat + 32) = s.eipAfter (.jmp sel off) := by
  have hready' := hready.setBusy_outgoing hin
  have hdesc := hready.read8_setBusy_outgoing
  have hallowed : max s.cpl.toNat (selRPL sel).toNat ≤ (((setBusy s.mem (gdtSlot s tr.sel)).read8 (gdtSlot s sel)).extractLsb' 45 2).toNat := by
    rw [hdesc, hcpl]
    exact max_le (Nat.zero_le _) hrpl
  have hreach : Reaches (s.withMem (setBusy s.mem (gdtSlot s tr.sel))) sel sel := .direct hready'.slot hready'.isTss hallowed
  obtain ⟨u, hjmp, htr, heip, hsaved⟩ := exec_jmp_of_ready hreach hready' hm he hin
  have htss : tssAt (s.withMem (setBusy s.mem (gdtSlot s tr.sel))) sel = tssAt s sel := congrArg decodeTss32 hdesc
  rw [htss] at htr heip
  exact ⟨u, hjmp, htr, heip.trans (Memory.read4_congr fun x h1 h2 => hready.byte_setBusy_outgoing hin (by omega) (by omega)), hsaved⟩

/-- Settles O45: LTR loads the task register and EIP and marks its descriptor busy, and the JMP is ready in the state so far but for the mark. -/
theorem bootThenFirstSwitch : Obligations.BootThenFirstSwitch := by
  intro s r sel off tr s' hltr he hready hrpl
  have htr : taskRegOf (s.gprs.low16 r) (modeTssAt s (s.gprs.low16 r)) = tr := by rw [modeTssAt_of_protected hltr.mode]; rfl
  have hexec : exec (.ltr r) s = .next (((s.withTr tr).withEip (s.eipAfter (.ltr r))).withMem (setBusy s.mem (gdtSlot s tr.sel))) :=
    execLtr_eq_next.2 ⟨.inl hltr, by rw [htr]; rfl⟩
  obtain ⟨u, hjmp⟩ := exec_jmp_of_ready_before_busy (s := (s.withTr tr).withEip (s.eipAfter (.ltr r))) (off := off) hltr.mode hltr.cpl he
    (switchReady_withEip hready _) hrpl hltr.slot.inTable
  exact ⟨_, u, hexec, hjmp⟩

end Sys2Proof.Machine
end

section
/-! PROOFS. A step writes and depends on no byte outside the structures of its state (R58, R110; log 29). -/

namespace Sys2Proof.Machine

/-! ### The bytes of the structures -/

/-- The bytes of a TSS that a descriptor in the GDT describes. -/
theorem structureByte_of_tss {s : State} {sel : Sel} {x : Nat} (hs : InGdt s sel 8) (ht : drawnAsTss (s.mem.read8 (gdtSlot s sel)))
    (h1 : (tssAt s sel).base.toNat ≤ x) (h2 : x ≤ (tssAt s sel).base.toNat + 103) : structureByte s x :=
  .inr (.inr (.inr (.inr (.inr ⟨sel, hs, ht, h1, h2⟩))))

/-- The bytes of the current TSS. -/
theorem structureByte_of_currentTss {s : State} {tr : TaskReg} {x : Nat} (htr : s.tr = some tr) (h1 : tr.base.toNat ≤ x)
    (h2 : x ≤ tr.base.toNat + 103) : structureByte s x :=
  .inr (.inr (.inr (.inl ⟨tr, htr, h1, h2⟩)))

/-- The bytes of the slot of the current task's descriptor, within the GDT limit or not (log 12). -/
theorem structureByte_of_currentSlot {s : State} {tr : TaskReg} {x : Nat} (htr : s.tr = some tr) (h1 : gdtSlot s tr.sel ≤ x)
    (h2 : x ≤ gdtSlot s tr.sel + 7) : structureByte s x :=
  .inr (.inr (.inr (.inr (.inl ⟨tr, htr, h1, h2⟩))))

/-- The bytes of an IDT entry that a lookup finds. -/
theorem structureByte_of_idtAddr {s : State} {v a x : Nat} (h : idtAddr s v = .ok a) (h1 : a ≤ x) (h2 : x < a + 8) : structureByte s x := by
  obtain ⟨hlim, _, rfl⟩ := idtAddr_eq_ok.1 h
  exact .inr (.inl ⟨by omega, by omega⟩)

/-! ### What a step writes -/

/-- The bytes a ready switch writes are those of the outgoing TSS, of the two descriptors and of the incoming link. -/
theorem SwitchReady.structureByte_of_switchWrites {k l : DispatchKind} {sel : Sel} {tr : TaskReg} {s : State} {x : Nat}
    (h : SwitchReady k sel tr s) (hx : switchWrites l s tr (taskRegOf sel (tssAt s sel)) x) : structureByte s x := by
  rcases hx with hdyn | ⟨_, rfl⟩ | ⟨_, rfl⟩ | ⟨_, hlink⟩
  · have hrange := dynamicByte_range hdyn
    exact structureByte_of_currentTss h.loaded (by omega) (by omega)
  · exact structureByte_of_currentSlot h.loaded (by omega) (by omega)
  · exact structureByte_of_slot h.slot.inTable (Nat.le_add_right _ _) (Nat.add_lt_add_left (by decide) _)
  · have hbase : (taskRegOf sel (tssAt s sel)).base = (tssAt s sel).base := rfl
    rw [hbase] at hlink
    exact structureByte_of_tss h.slot h.isTss (by omega) (by omega)

/-- The byte LTR writes is one of its descriptor. -/
theorem structureByte_of_execLtr {r : Reg} {s t : State} (h : execLtr r s = .next t) : structureByte s (gdtSlot s (s.gprs.low16 r) + 5) := by
  obtain ⟨hready, _⟩ := execLtr_eq_next.1 h
  have hslot := (hready.elim LtrReady.checksPass LtrReady64.checksPass).slot
  exact structureByte_of_slot hslot.inTable (Nat.le_add_right _ _) (Nat.add_lt_add_left (by cases s.cfg.mode <;> decide) _)

theorem structureByte_of_stepWrites {s : State} {x : Nat} (h : stepWrites s x) : structureByte s x := by
  obtain ⟨t, hstep, hx⟩ := h
  rcases step_cases hstep with ⟨hact, _⟩ | ⟨r, hact, hltr⟩ | ⟨k, next, hact, hrun⟩
  · -- a step that rests writes nothing
    rcases hx with ⟨r, hact', _⟩ | ⟨k, _, _, hkind, _⟩
    · rw [hact] at hact'; cases hact'
    · rw [hact] at hkind; cases hkind
  · rcases hx with ⟨r', hact', rfl⟩ | ⟨k, _, _, hkind, _⟩
    · obtain rfl : r = r' := by rw [hact] at hact'; injection hact' with hinstr; injection hinstr
      exact (structureByte_withOffers (os := s.offers.tail)).1 (structureByte_of_execLtr hltr)
    · rw [hact] at hkind; cases hkind
  · rcases hx with ⟨r, hact', _⟩ | ⟨l, tr, v, _, htr, hv, hw⟩
    · rw [hact'] at hact; cases hact
    · obtain ⟨_, sel, tr', hready, rfl⟩ := hrun.cases
      obtain rfl : tr = tr' := Option.some.inj (htr.symm.trans hready.loaded)
      obtain rfl : taskRegOf sel (tssAt (s.withOffers s.offers.tail) sel) = v := Option.some.inj hv
      exact structureByte_withOffers.1 (hready.structureByte_of_switchWrites hw)

/-! ### Answers that are alike -/

/-- The answer of a rule in memory `m` and in memory `m'`: the same stop, or next states that are the same but for memory, in which every byte
that read alike still does. -/
inductive AnswersAlike (m m' : Memory) : Host.Outcome State Fault Refusal → Host.Outcome State Fault Refusal → Prop
  | fault (f : Fault) : AnswersAlike m m' (.fault f) (.fault f)
  | refused (r : Refusal) : AnswersAlike m m' (.refused r) (.refused r)
  | next (t : State) (u : Memory) (h : ∀ x, m'.byte x = m.byte x → u.byte x = t.mem.byte x) : AnswersAlike m m' (.next t) (.next (t.withMem u))

theorem AnswersAlike.of_stop (m m' : Memory) (e : Stop) : AnswersAlike m m' (toOutcome (.error e)) (toOutcome (.error e)) := by
  cases e with
  | raise f => exact .fault f
  | refuse r => exact .refused r

/-- Pseudocode answers alike when its first part is the same and its rest, wherever that part ends, answers alike. -/
theorem AnswersAlike.bind {α : Type} {m m' : Memory} {c c' : Chk α} {f f' : α → Chk State} (hc : c' = c)
    (hf : ∀ a, c = .ok a → AnswersAlike m m' (toOutcome (f a)) (toOutcome (f' a))) :
    AnswersAlike m m' (toOutcome (c >>= f)) (toOutcome (c' >>= f')) := by
  subst hc
  cases c' with
  | ok a => exact hf a rfl
  | error e => exact .of_stop m m' e

/-- What two answers that are alike say, outcome by outcome. -/
theorem AnswersAlike.outcomes {m m' : Memory} {o o' : Host.Outcome State Fault Refusal} (h : AnswersAlike m m' o o') :
    (∀ f, o = .fault f → o' = .fault f) ∧ (∀ r, o = .refused r → o' = .refused r) ∧
    (∀ t, o = .next t → ∃ u, o' = .next (t.withMem u) ∧ ∀ x, m'.byte x = m.byte x → u.byte x = t.mem.byte x) := by
  cases h with
  | fault f => exact ⟨fun _ he => he, fun _ he => (by cases he), fun _ he => (by cases he)⟩
  | refused r => exact ⟨fun _ he => (by cases he), fun _ he => he, fun _ he => (by cases he)⟩
  | next t u hu => exact ⟨fun _ he => (by cases he), fun _ he => (by cases he), fun _ he => (by cases he; exact ⟨u, rfl, hu⟩)⟩

/-- Pseudocode is the same when its first part is, and its rest wherever that part ends. -/
theorem Chk.bind_congr {α β : Type} {c c' : Chk α} {f f' : α → Chk β} (hc : c' = c) (hf : ∀ a, c = .ok a → f' a = f a) :
    (c' >>= f') = (c >>= f) := by
  subst hc
  cases c' with
  | ok a => exact hf a rfl
  | error e => rfl

/-! ### The checks read the structures alone -/

/-- Another memory that reads alike on the structures of a state. -/
def AlikeOnStructures (s : State) (m : Memory) : Prop := ∀ x, structureByte s x → m.byte x = s.mem.byte x

/-- A TSS descriptor that the tests on an incoming task find is one in the GDT. -/
theorem tssAt_of_lookup {s : State} {sel : Sel} {a : Nat} {d : BitVec 64} {t : TssDesc} (hti : selTI sel = false) (ha : descAddr s sel 8 = .ok a)
    (hd : memRead8 s a = .ok d) (hc : classify d = .tss t) :
    InGdt s sel 8 ∧ drawnAsTss (s.mem.read8 (gdtSlot s sel)) ∧ t = tssAt s sel := by
  obtain ⟨hfits, rfl⟩ := memRead8_eq_ok.1 hd
  obtain ⟨ht, rfl⟩ := classify_eq_tss.1 hc
  obtain ⟨_, ⟨_, hn, hl, rfl⟩ | ⟨hlocal, _⟩⟩ := descAddr_eq_ok.1 ha
  · exact ⟨⟨hti, hn, hl, hfits⟩, ht, rfl⟩
  · exact absurd hlocal (ne_true_of_eq_false hti)

section
variable {s : State} {m : Memory} (h : AlikeOnStructures s m)
include h

theorem AlikeOnStructures.withOffers (os : List (Option Event)) : AlikeOnStructures (s.withOffers os) m :=
  fun x hx => h x (structureByte_withOffers.1 hx)

theorem AlikeOnStructures.memRead2_eq {a : Nat} (ha : ∀ x, a ≤ x → x < a + 2 → structureByte s x) :
    memRead2 (s.withMem m) a = memRead2 s a := by
  have hread : m.read2 a = s.mem.read2 a := Memory.read2_congr fun x h1 h2 => h x (ha x h1 h2)
  rw [memRead2, memRead2, State.withMem_mem, hread]
  rfl

theorem AlikeOnStructures.memRead8_eq {a : Nat} (ha : ∀ x, a ≤ x → x < a + 8 → structureByte s x) :
    memRead8 (s.withMem m) a = memRead8 s a := by
  have hread : m.read8 a = s.mem.read8 a := Memory.read8_congr fun x h1 h2 => h x (ha x h1 h2)
  rw [memRead8, memRead8, State.withMem_mem, hread]
  rfl

theorem AlikeOnStructures.memRead16_eq {a : Nat} (ha : ∀ x, a ≤ x → x < a + 16 → structureByte s x) :
    memRead16 (s.withMem m) a = memRead16 s a := by
  have hread : m.read16 a = s.mem.read16 a := Memory.read16_congr fun x h1 h2 => h x (ha x h1 h2)
  rw [memRead16, memRead16, State.withMem_mem, hread]
  rfl

theorem AlikeOnStructures.resolveTarget_eq (sel : Sel) : resolveTarget (s.withMem m) sel = resolveTarget s sel :=
  Chk.bind_congr rfl fun _ ha => Chk.bind_congr (h.memRead8_eq fun _ => structureByte_of_descAddr ha) fun _ _ => rfl

theorem AlikeOnStructures.checkIncoming_eq (k : DispatchKind) (sel : Sel) (tr : TaskReg) :
    checkIncoming k sel tr (s.withMem m) = checkIncoming k sel tr s := by
  refine Chk.bind_congr rfl fun _ hti => Chk.bind_congr rfl fun a ha =>
    Chk.bind_congr (h.memRead8_eq fun _ => structureByte_of_descAddr ha) fun d hd => ?_
  cases hc : classify d with
  | gate _ | other => rfl
  | tss t =>
    have hglobal : selTI sel = false := Bool.eq_false_of_not_eq_true (raiseIf_eq_ok.1 hti)
    obtain ⟨hs, ht, rfl⟩ := tssAt_of_lookup hglobal ha hd hc
    have hrow : ∀ x, (tssAt s sel).base.toNat + tss32Offset .t ≤ x → x < (tssAt s sel).base.toNat + tss32Offset .t + 2 → structureByte s x :=
      fun x h1 h2 => structureByte_of_tss hs ht (by omega) (by simp only [tss32Offset] at h2; omega)
    exact Chk.bind_congr rfl fun _ _ => Chk.bind_congr rfl fun _ _ => Chk.bind_congr rfl fun _ _ => Chk.bind_congr rfl fun _ _ =>
      Chk.bind_congr rfl fun _ _ => Chk.bind_congr rfl fun _ _ => Chk.bind_congr (h.memRead2_eq hrow) fun _ _ => rfl

theorem AlikeOnStructures.readLtrDesc_eq {sel : Sel} {a : Nat} (ha : descAddr s sel (ltrDescSize s.cfg.mode) = .ok a) :
    readLtrDesc (s.withMem m) a sel = readLtrDesc s a sel := by
  rw [readLtrDesc, readLtrDesc, State.withMem_cfg]
  cases hm : s.cfg.mode with
  | protectedMode => rw [hm] at ha; exact Chk.bind_congr (h.memRead8_eq fun _ => structureByte_of_descAddr ha) fun _ _ => rfl
  | long64 => rw [hm] at ha; exact Chk.bind_congr (h.memRead16_eq fun _ => structureByte_of_descAddr ha) fun _ _ => rfl

theorem AlikeOnStructures.checkLtr_eq (sel : Sel) (i : Instr) : checkLtr sel i (s.withMem m) = checkLtr sel i s :=
  Chk.bind_congr rfl fun _ _ => Chk.bind_congr rfl fun _ _ => Chk.bind_congr rfl fun _ ha =>
    Chk.bind_congr (h.readLtrDesc_eq ha) fun _ _ => rfl

end

/-! ### The rules answer alike -/

/-- What is loaded from a TSS depends on its 104 bytes alone (R84, R86). -/
theorem loadContext_withMem {s : State} {m : Memory} {nb : Nat} (h : m.agree s.mem nb 104) (k : DispatchKind) :
    loadContext (s.withMem m) nb k = (loadContext s nb k).withMem m := by
  obtain ⟨hgprs, hsegs, heip, heflags, hcs⟩ := loads_congr (b := nb) fun x h1 h2 => h x (by omega) (by omega)
  have hcr3 : m.read4 (nb + 28) = s.mem.read4 (nb + 28) := Memory.read4_congr fun x h1 h2 => h x (by omega) (by omega)
  have hldt : m.read2 (nb + 96) = s.mem.read2 (nb + 96) := Memory.read2_congr fun x h1 h2 => h x (by omega) (by omega)
  simp only [loadContext, State.withMem, tss32Offset, hgprs, hsegs, heip, heflags, hcs, hcr3, hldt]

section
variable {s : State} {m : Memory} (h : AlikeOnStructures s m)
include h

/-- A committed switch loads the same context, since the incoming TSS is one of the structures. -/
theorem AlikeOnStructures.commitSwitch_eq {sel : Sel} (hs : InGdt s sel 8) (ht : drawnAsTss (s.mem.read8 (gdtSlot s sel))) (k : DispatchKind)
    (tr : TaskReg) (next : Word) (o i : Nat) :
    commitSwitch k sel tr next o i (tssAt s sel) (s.withMem m) =
      (commitSwitch k sel tr next o i (tssAt s sel) s).withMem (switchMemory k tr next o i (tssAt s sel).base.toNat (s.withMem m)) :=
  loadContext_withMem (s := (s.withMem (switchMemory k tr next o i (tssAt s sel).base.toNat s)).withTr (taskRegOf sel (tssAt s sel)))
    (fun x h1 h2 => byte_switchMemory_congr (h x (structureByte_of_tss hs ht h1 (by omega)))) k

theorem AlikeOnStructures.taskSwitch_alike (k : DispatchKind) (sel : Sel) (next : Word) :
    AnswersAlike s.mem m (toOutcome (taskSwitch k sel next s)) (toOutcome (taskSwitch k sel next (s.withMem m))) := by
  rw [taskSwitch, taskSwitch, State.withMem_tr]
  cases s.tr with
  | none => exact .of_stop _ _ _
  | some tr =>
    refine .bind rfl fun _ _ => .bind (h.checkIncoming_eq k sel tr) fun inc hinc => .bind rfl fun o _ => .bind rfl fun _ _ => ?_
    obtain ⟨rfl, hs, ht, _⟩ := checkIncoming_eq_ok.1 hinc
    rw [h.commitSwitch_eq hs ht]
    exact .next _ _ fun x hx => byte_switchMemory_congr hx

theorem AlikeOnStructures.dispatchVector_alike (v : Nat) :
    AnswersAlike s.mem m (toOutcome (dispatchVector v s)) (toOutcome (dispatchVector v (s.withMem m))) := by
  refine .bind rfl fun _ _ => .bind rfl fun a ha => .bind (h.memRead8_eq fun _ => structureByte_of_idtAddr ha) fun d _ => ?_
  cases classify d with
  | gate g => exact .bind rfl fun _ _ => h.taskSwitch_alike _ _ _
  | tss _ | other => exact .of_stop _ _ _

theorem AlikeOnStructures.takeEvent_alike (e : Event) : AnswersAlike s.mem m (toOutcome (takeEvent e s)) (toOutcome (takeEvent e (s.withMem m))) := by
  cases e with
  | interrupt v => exact h.dispatchVector_alike v
  | exception v => exact .bind rfl fun _ _ => h.dispatchVector_alike v

theorem AlikeOnStructures.execLtr_alike (r : Reg) : AnswersAlike s.mem m (execLtr r s) (execLtr r (s.withMem m)) :=
  .bind (h.checkLtr_eq _ _) fun x _ => .next (((s.withMem (setBusy s.mem x.1)).withTr (taskRegOf (s.gprs.low16 r) x.2.1)).withEip x.2.2)
    (setBusy m x.1) fun _ hy => byte_setBusy_congr hy x.1

theorem AlikeOnStructures.execJmp_alike (sel : Sel) (off : Word) : AnswersAlike s.mem m (execJmp sel off s) (execJmp sel off (s.withMem m)) :=
  .bind rfl fun _ _ => .bind (h.resolveTarget_eq sel) fun _ _ => .bind rfl fun _ _ => h.taskSwitch_alike _ _ _

theorem AlikeOnStructures.execCall_alike (sel : Sel) (off : Word) : AnswersAlike s.mem m (execCall sel off s) (execCall sel off (s.withMem m)) :=
  .bind rfl fun _ _ => .bind (h.resolveTarget_eq sel) fun _ _ => .bind rfl fun _ _ => h.taskSwitch_alike _ _ _

theorem AlikeOnStructures.execIret_alike : AnswersAlike s.mem m (execIret s) (execIret (s.withMem m)) := by
  refine .bind rfl fun _ _ => .bind rfl fun _ _ => ?_
  rw [State.withMem_tr]
  cases htr : s.tr with
  | none => exact .of_stop _ _ _
  | some tr =>
    have hlink : previousLink (s.withMem m) tr = previousLink s tr :=
      h.memRead2_eq fun x h1 h2 => structureByte_of_currentTss htr h1 (by simp only [tss32Offset] at h2; omega)
    exact .bind hlink fun _ _ => .bind rfl fun _ _ => h.taskSwitch_alike _ _ _

theorem AlikeOnStructures.exec_alike (i : Instr) : AnswersAlike s.mem m (exec i s) (exec i (s.withMem m)) := by
  cases i with
  | ltr r => exact h.execLtr_alike r
  | jmp sel off => exact h.execJmp_alike sel off
  | call sel off => exact h.execCall_alike sel off
  | iret => exact h.execIret_alike

theorem AlikeOnStructures.step_alike : AnswersAlike s.mem m (step s) (step (s.withMem m)) := by
  cases hr : s.outcome with
  | faulted f => rw [step_of_faulted hr, step_of_faulted (s := s.withMem m) hr]; exact .fault f
  | refused r => rw [step_of_refused hr, step_of_refused (s := s.withMem m) hr]; exact .refused r
  | running =>
    by_cases hevent : ∃ e os, s.offers = some e :: os
    · obtain ⟨e, os, ho⟩ := hevent
      rw [step_of_event hr ho, step_of_event (s := s.withMem m) hr ho]
      exact (h.withOffers os).takeEvent_alike e
    · have ho : ∀ e os, s.offers ≠ some e :: os := fun e os he => hevent ⟨e, os, he⟩
      by_cases hs : s.codeLoc ∈ s.cfg.stops
      · rw [step_of_final ⟨hr, hs, ho⟩, step_of_final (s := s.withMem m) ⟨hr, hs, ho⟩]
        exact .next s m fun _ hx => hx
      · have hfetch : fetch (s.withMem m) = fetch s := rfl
        rw [step_of_no_event hr ho hs, step_of_no_event (s := s.withMem m) hr ho hs, hfetch]
        cases fetch s with
        | none => exact .refused _
        | some e => exact (h.withOffers s.offers.tail).exec_alike e.term

end

/-- Settles O50: by the cases of a step that goes on, and by the reads of each rule, every one of which is in a structure. -/
theorem stepsTouchOnlyStructures : Obligations.StepsTouchOnlyStructures :=
  ⟨fun _ _ => structureByte_of_stepWrites, fun _ _ h => (AlikeOnStructures.step_alike h).outcomes⟩

end Sys2Proof.Machine
end
